-- ==== Sys2Proof/Word.lean ====
section
/-! DEFINITION. The two word types of the block: a field element or buffer cell, and a host-port word. -/

namespace Sys2Proof

/-- A field element (R7: "A field element is a value of exactly 8 bits") or one byte cell. -/
abbrev Byte := BitVec 8

/-- A host-port address or data word, and a command word (R60, R91). -/
abbrev Word := BitVec 32

end Sys2Proof
end

