-- ==== Sys2Proof/Config.lean ====
section
/-! DEFINITION. The parameters of the block (R6) and the family of free values: the contents of cells that the spec
leaves unspecified. (Which member of the family a reset selects is `Config.residue`, in Machine/State.lean.) -/

namespace Sys2Proof

/-- The one legal value of `NSLOT` (R6): the number of entries of each register array. -/
abbrev Config.slotCount : Nat := 256

/-- The four parameters of R6. They are constants of the hardware (R45): State carries them, and no step changes them
(log 7). -/
structure Config where
  /-- `POLY`, the field modulus, bit `i` the coefficient of x^i (R122). -/
  poly : BitVec 9
  /-- `LMAX`, the longest secret in bytes that the buffers hold. -/
  lmax : Nat
  /-- `REJ_LIMIT`, the draws allowed per shuffle index. -/
  rejLimit : Nat
  /-- `NSLOT`, the number of share slots, and of entries of each register array. -/
  nslot : Nat
  deriving DecidableEq, Repr

/-- The legal values of `POLY`: the 30 irreducible polynomials of degree 8 listed in R122. -/
def Config.legalPolys : List (BitVec 9) :=
  [0x11B, 0x11D, 0x12B, 0x12D, 0x139, 0x13F, 0x14D, 0x15F, 0x163, 0x165,
   0x169, 0x171, 0x177, 0x17B, 0x187, 0x18B, 0x18D, 0x19F, 0x1A3, 0x1A9,
   0x1B1, 0x1BD, 0x1C3, 0x1CF, 0x1D7, 0x1DD, 0x1E7, 0x1F3, 0x1F5, 0x1F9]

/-- The legal ranges of R6. -/
abbrev Config.Legal (c : Config) : Prop :=
  c.poly ∈ Config.legalPolys ∧ 1 ≤ c.lmax ∧ c.lmax ≤ 65534 ∧ 1 ≤ c.rejLimit ∧ c.nslot = Config.slotCount

/-- The values this hardware takes (R6). `LMAX` is OPEN in the spec; 255 is what every vector of the spec uses
(DESIGN CHOICE, log 7). -/
def Config.thisHardware : Config := { poly := 0x11B, lmax := 255, rejLimit := 64, nslot := 256 }

/-- What a cell that nobody has written since the last reset holds, by its location address (U1, U2: "any value"). A free
value: it has no body, so nothing can be proved about it. `residue` says which contents the reset left. A byte cell takes
the low 8 bits (log 5, log 6). -/
opaque Config.unspecified (residue address : Nat) : Word

end Sys2Proof
end

