-- ==== Sys2Proof/Syntax.lean ====
section
/-! DEFINITION. The nine commands (R90), one constructor per row of spec/opcode_table.json. -/

namespace Sys2Proof

/-- A decoded command. Operands are the unsigned values of their fields (R93): `a`, `b`, `x`, `c0` are field
elements, `cnt`, `n`, `k`, `m` are 12-bit numbers. -/
inductive Instr where
  /-- `GFADD a, b` (R130). -/
  | gfadd (a b : Byte)
  /-- `GFMUL a, b` (R131). -/
  | gfmul (a b : Byte)
  /-- `GFINV a` (R132). -/
  | gfinv (a : Byte)
  /-- `GFDIV a, b` (R133). -/
  | gfdiv (a b : Byte)
  /-- `PGEN cnt, c0` (R155). -/
  | pgen (cnt : BitVec 12) (c0 : Byte)
  /-- `PEVAL cnt, x` (R156). -/
  | peval (cnt : BitVec 12) (x : Byte)
  /-- `LINTERP cnt, x` (R175). -/
  | linterp (cnt : BitVec 12) (x : Byte)
  /-- `SPLIT n, k` (R190). -/
  | split (n k : BitVec 12)
  /-- `COMBINE m` (R210). -/
  | combine (m : BitVec 12)
  deriving DecidableEq, Repr

end Sys2Proof
end

