-- ==== Sys2Proof/WellFormed.lean ====
section
/-! DEFINITION. Which instruction terms stand for a legal word: the one operand range that decoding checks (R93:
`cnt` is 1 to 256). The ranges of `n`, `k` and `m` are no part of it: every value decodes (R93, R192, R211). -/

namespace Sys2Proof

/-- The constraint `1 <= cnt <= 256` of the three format V rows (R95). -/
def Instr.cntInRange (cnt : BitVec 12) : Bool :=
  decide (1 ≤ cnt.toNat) && decide (cnt.toNat ≤ 256)

/-- Well-formed: some legal word means it (R95). -/
def Instr.wf : Instr → Bool
  | .gfadd _ _ => true
  | .gfmul _ _ => true
  | .gfinv _ => true
  | .gfdiv _ _ => true
  | .pgen cnt _ => Instr.cntInRange cnt
  | .peval cnt _ => Instr.cntInRange cnt
  | .linterp cnt _ => Instr.cntInRange cnt
  | .split _ _ => true
  | .combine _ => true

end Sys2Proof
end

