-- ==== Sys2Proof/Decode.lean ====
section
/-! DEFINITION. The command word: its fields (R91), decoding with every illegal word rejected by name (R92, R95),
and the encoder (R97). -/

namespace Sys2Proof

/-- The opcode byte `op`, bits 31:24 (R91, R94). -/
def fieldOp (w : Word) : Byte := w.extractLsb' 24 8

/-- Operand `a` of format S, bits 23:16 (R93). -/
def fieldA (w : Word) : Byte := w.extractLsb' 16 8

/-- Operand `b` of format S, bits 15:8 (R93). -/
def fieldB (w : Word) : Byte := w.extractLsb' 8 8

/-- Operand `x` or `c0` of format V, bits 7:0 (R93). -/
def fieldX (w : Word) : Byte := w.extractLsb' 0 8

/-- Operand `cnt` of format V, `n` of `SPLIT` and `m` of `COMBINE`, bits 23:12 (R93). -/
def fieldN (w : Word) : BitVec 12 := w.extractLsb' 12 12

/-- Operand `k` of `SPLIT`, bits 11:0 (R93). -/
def fieldK (w : Word) : BitVec 12 := w.extractLsb' 0 12

/-- The `zero` field of format S, bits 7:0 (R91). -/
def fieldZeroS (w : Word) : BitVec 8 := w.extractLsb' 0 8

/-- The `zero` field of `GFINV`, bits 15:0 (R91). -/
def fieldZeroInv (w : Word) : BitVec 16 := w.extractLsb' 0 16

/-- The `zero` field of format V, bits 11:8 (R91). -/
def fieldZeroV (w : Word) : BitVec 4 := w.extractLsb' 8 4

/-- The `zero` field of `COMBINE`, bits 11:0 (R91). -/
def fieldZeroO (w : Word) : BitVec 12 := w.extractLsb' 0 12

/-- Why a word is illegal (R95). Whichever it is, the command ends with `IllegalCommand`. -/
inductive IllegalWord where
  /-- `op` is reserved (R94). -/
  | reservedOpcode (op : Byte)
  /-- A `zero` field of the format is not zero (R91). -/
  | nonzeroZeroField
  /-- `cnt` is outside 1 to 256 (R93). -/
  | countOutOfRange (cnt : BitVec 12)
  deriving DecidableEq, Repr

/-- What a word means: a command, or an illegal word. Nothing about any of the 2^32 words is unspecified (U11). -/
inductive Decoded where
  | ok (i : Instr)
  | illegal (why : IllegalWord)
  deriving DecidableEq, Repr

/-- The `cnt` test of R92: `cnt < 1 or cnt > 256` is illegal. -/
def countLegal (cnt : BitVec 12) : Bool :=
  !(decide (cnt.toNat < 1) || decide (cnt.toNat > 256))

/-- The two checks of format S and of the fixed-zero rows (R92). -/
def decodeZero (zeroFieldIsZero : Bool) (i : Instr) : Decoded :=
  if zeroFieldIsZero then .ok i else .illegal .nonzeroZeroField

/-- The checks of format V, in the order of R92: the `zero` field, then the range of `cnt`. -/
def decodeV (w : Word) (i : Instr) : Decoded :=
  if fieldZeroV w = 0 then
    if countLegal (fieldN w) then .ok i else .illegal (.countOutOfRange (fieldN w))
  else .illegal .nonzeroZeroField

/-- The `case` of R92: the opcode byte selects the command, then the `zero` field and `cnt` are checked. -/
def decode (w : Word) : Decoded :=
  if fieldOp w = 0x01 then decodeZero (fieldZeroS w == 0) (.gfadd (fieldA w) (fieldB w))
  else if fieldOp w = 0x02 then decodeZero (fieldZeroS w == 0) (.gfmul (fieldA w) (fieldB w))
  else if fieldOp w = 0x03 then decodeZero (fieldZeroInv w == 0) (.gfinv (fieldA w))
  else if fieldOp w = 0x04 then decodeZero (fieldZeroS w == 0) (.gfdiv (fieldA w) (fieldB w))
  else if fieldOp w = 0x10 then decodeV w (.pgen (fieldN w) (fieldX w))
  else if fieldOp w = 0x11 then decodeV w (.peval (fieldN w) (fieldX w))
  else if fieldOp w = 0x12 then decodeV w (.linterp (fieldN w) (fieldX w))
  else if fieldOp w = 0x20 then .ok (.split (fieldN w) (fieldK w))
  else if fieldOp w = 0x21 then decodeZero (fieldZeroO w == 0) (.combine (fieldN w))
  else .illegal (.reservedOpcode (fieldOp w))

/-- Format S: `{op, a, b, 0x00}` (R97). -/
def encodeS (op a b : Byte) : Word := op ++ a ++ b ++ 0x00#8

/-- Format V: `{op, cnt[11:0], 0x0, x}` (R97). -/
def encodeV (op : Byte) (cnt : BitVec 12) (x : Byte) : Word := op ++ cnt ++ 0x0#4 ++ x

/-- Format O: `{op, n[11:0], k[11:0]}` (R97). -/
def encodeO (op : Byte) (n k : BitVec 12) : Word := op ++ n ++ k

/-- The word of a command, from the opcode map R90 and the formats R97. -/
def encode : Instr → Word
  | .gfadd a b => encodeS 0x01 a b
  | .gfmul a b => encodeS 0x02 a b
  | .gfinv a => encodeS 0x03 a 0x00
  | .gfdiv a b => encodeS 0x04 a b
  | .pgen cnt c0 => encodeV 0x10 cnt c0
  | .peval cnt x => encodeV 0x11 cnt x
  | .linterp cnt x => encodeV 0x12 cnt x
  | .split n k => encodeO 0x20 n k
  | .combine m => encodeO 0x21 m 0x000

/-- The command the decoder reads from the low `nbits` bits of `w` (all bits above are 0); none for an illegal word.
A command is one 32-bit word (R91), so there is no byte order to lay out (R67). -/
def decodeTableWord (nbits w : Nat) : Option Instr :=
  match decode (BitVec.ofNat 32 (w % 2 ^ nbits)) with
  | .ok i => some i
  | .illegal _ => none

end Sys2Proof
end

