-- ==== Sys2Proof/Machine/State.lean ====
section
/-! DEFINITION. Everything the machine holds (R20, R43, R44), as plain data, and the state right after reset (R46). -/

namespace Sys2Proof.Machine

/-- The values `ECODE` takes (R240); 8 to 15 are never produced. -/
inductive ECode where
  | ok
  | invalidThreshold
  | invalidCount
  | emptySecret
  | randomnessFailure
  | invalidShares
  | illegalCommand
  | invalidLength
  deriving DecidableEq, Repr

/-- The values `FCODE` takes (R33); 2 to 15 are never produced. -/
inductive FCode where
  | none
  | divideByZero
  deriving DecidableEq, Repr

/-- The sequencing states of R220. -/
inductive ST where
  | idle
  | decode
  | field
  | gen
  | eval
  | interp
  | spCheck
  | spClear
  | spShuffle
  | spCoef
  | spEval
  | spTail
  | cbCheck
  | cbLoadX
  | cbLoadY
  | cbInterp
  | cbLen
  /-- `END` of R220. -/
  | finish
  | halt
  deriving DecidableEq, Repr

/-- The hidden sequencing state (R43, R44): `ST`, the loop counters that live from one visit of a state to the next,
and the error code carried into `END` (R221). The other temporaries of R43 live inside one visit (log 10). -/
structure Seq where
  st : ST
  /-- The byte position `i` of `SPLIT` and `COMBINE`. -/
  i : Nat
  /-- The coefficient index `c` of `Generate`. -/
  c : Nat
  /-- The shuffle index `t`. -/
  t : Nat
  /-- The draws already rejected for the current `t`. -/
  tries : Nat
  /-- The code `END` writes. -/
  e : ECode
  deriving DecidableEq, Repr

/-- One state with every counter at 0. -/
def Seq.start (st : ST) : Seq := { st := st, i := 0, c := 0, t := 0, tries := 0, e := .ok }

/-- One answer of the entropy source to `RngDraw()` (R66). -/
inductive Answer where
  | ok (b : Byte)
  | fail
  deriving DecidableEq, Repr

/-- What happens next at the block, when it is not left to the core alone (log 1). -/
inductive Event where
  /-- The transaction `HostRead(ha)` (R60). -/
  | hostRead (ha : Word)
  /-- The transaction `HostWrite(ha, d)` (R60). -/
  | hostWrite (ha d : Word)
  /-- The reset event (R280). -/
  | reset
  /-- One transition of the core's finite-state machine (R221). -/
  | coreMove
  deriving DecidableEq, Repr

/-- Buffer memory: (location address, byte) for every cell somebody has written since reset, addresses strictly
rising. A cell not listed holds an unspecified byte (log 6). -/
abbrev Memory := List Host.Cell

/-- The whole state of the block. -/
structure State where
  /-- The parameters of R6, constants of the hardware. -/
  cfg : Config
  /-- `STATUS` bit 0 (R28). -/
  busy : Bool
  /-- `STATUS` bit 1 (R29). -/
  done : Bool
  /-- `STATUS` bit 2 (R30). -/
  fatal : Bool
  /-- `STATUS` bit 3 (R31). -/
  herr : Bool
  /-- `STATUS` bits 11:8 (R32). -/
  ecode : ECode
  /-- `STATUS` bits 15:12 (R33). -/
  fcode : FCode
  /-- `CTRL` bit 0, `IE` (R35). -/
  ie : Bool
  /-- `RESULT` (R21). -/
  result : Byte
  /-- `LEN` (R22). -/
  len : BitVec 16
  /-- `SHLEN[0..255]` (R23). -/
  shlen : Vector (BitVec 16) Config.slotCount
  /-- `XC[0..255]` (R24). -/
  xc : Vector Byte Config.slotCount
  /-- `COEF[0..255]` (R25). -/
  coef : Vector Byte Config.slotCount
  /-- `PY[0..255]` (R26). -/
  py : Vector Byte Config.slotCount
  /-- `SHARE` and `SECRET` (R40, R41), by location address (R62). -/
  mem : Memory
  /-- `CMDL`, the latched command word (R37, R43). -/
  cmdl : Word
  /-- `ST` and the loop counters (R43, R44). -/
  seq : Seq
  /-- The answers the entropy source will give to the coming draws, first one first; an input of the block, not
  state of it (R45, R66, log 8). -/
  entropy : List Answer
  /-- The host transactions, resets and single core transitions still to come, first one first (R9, log 1). -/
  schedule : List Event
  /-- The data word of the last `HostRead` (R60, log 13). -/
  rdata : Word
  /-- The number of reset events so far (log 5). -/
  epoch : Nat
  /-- Which contents the last reset left in the cells nobody has written since: with an address it names the free value
  of such a cell (log 5, log 6). -/
  residue : Nat
  deriving DecidableEq, Repr

/-- Why a step can stop for good. -/
inductive Fault where
  /-- Raised by `step` alone, when the core is in `HALT` (R246, R247) and neither the host nor reset has anything
  left to do: "A state with FATAL = 1 is a fault, not an end" (R303, U8). Safe: the hardware sits in `HALT`. No
  command's meaning raises it: entering `HALT` is a next state (log 9). -/
  | haltedAfterDivideByZero
  deriving DecidableEq, Repr

/-- Why a step can be refused. -/
inductive Refusal where
  /-- An instruction that has no meaning yet, by its mnemonic; raised by `exec`'s arms only, and by none of them now.
  Safe. -/
  | notModelled (mnemonic : String)
  deriving DecidableEq, Repr

/-- The state right after reset (R46). `XC`, `COEF`, `PY` and `CMDL` are unspecified in the spec and zero here
(DESIGN CHOICE, unsafe, log 4); the buffers list no cell. -/
def State.reset : State where
  cfg := Config.thisHardware
  busy := false
  done := false
  fatal := false
  herr := false
  ecode := .ok
  fcode := .none
  ie := false
  result := 0
  len := 0
  shlen := Vector.replicate Config.slotCount 0
  xc := Vector.replicate Config.slotCount 0
  coef := Vector.replicate Config.slotCount 0
  py := Vector.replicate Config.slotCount 0
  mem := []
  cmdl := 0
  seq := Seq.start .idle
  entropy := []
  schedule := []
  rdata := 0
  epoch := 0
  residue := 0

end Sys2Proof.Machine

/-- Which contents a reset event leaves, by the whole state in which it strikes: old bytes may remain, or anything else
(R282, U2). A free value: it has no body, so nothing can be proved about it, neither that two states differing in a secret
byte look alike after a reset nor that they differ (log 5). -/
opaque Sys2Proof.Config.residue (old : Sys2Proof.Machine.State) : Nat
end

