-- ==== Sys2Proof/Machine/Ops.lean ====
section
/-! DEFINITION. The operations every command is written with: buffer memory, register arrays, draws, the loops of the
pseudocode, and how a command begins and ends (acceptance, success, error, fatal condition, reset). -/

namespace Sys2Proof.Machine

/-! ### Buffer memory -/

/-- The canonical form of a memory: addresses strictly rising. No entry can equal what an unlisted address holds,
because an unlisted address holds no value (log 6). -/
abbrev Memory.wf (m : Memory) : Prop := m.Pairwise (fun p q => p.1 < q.1)

/-- The byte listed at an address, if somebody has written it. -/
def Memory.lookup : Memory → Nat → Option Byte
  | [], _ => none
  | (k, v) :: m, a => if k = a then some v else Memory.lookup m a

/-- Write one byte, keeping the addresses strictly rising. -/
def Memory.store : Memory → Nat → Byte → Memory
  | [], a, b => [(a, b)]
  | (k, v) :: m, a, b =>
    if a < k then (a, b) :: (k, v) :: m
    else if a = k then (a, b) :: m
    else (k, v) :: Memory.store m a b

/-- What a cell nobody has written since the last reset reads as: a free value (U1, log 6). -/
def State.unwritten (s : State) (a : Nat) : Byte := (Config.unspecified s.residue a).setWidth 8

/-- `MemRead(addr, 1)` (R8). -/
def State.memRead (s : State) (a : Nat) : Byte := (Memory.lookup s.mem a).getD (s.unwritten a)

/-- `MemWrite(addr, 1, v)` (R8). -/
def State.memWrite (s : State) (a : Nat) (v : Byte) : State := { s with mem := Memory.store s.mem a v }

/-- The location address of `SHARE[j][o]` (R62). -/
def shareAddr (j o : Nat) : Nat := 0x01000000 + j * 0x10000 + o

/-- The location address of `SECRET[o]` (R62). -/
def secretAddr (o : Nat) : Nat := 0x02000000 + o

/-- `SHARE[j][o]` (R8). -/
def State.share (s : State) (j o : Nat) : Byte := s.memRead (shareAddr j o)

/-- `SHARE[j][o] <- v` (R8). -/
def State.setShare (s : State) (j o : Nat) (v : Byte) : State := s.memWrite (shareAddr j o) v

/-- `SECRET[o]` (R8). -/
def State.secret (s : State) (o : Nat) : Byte := s.memRead (secretAddr o)

/-- `SECRET[o] <- v` (R8). -/
def State.setSecret (s : State) (o : Nat) (v : Byte) : State := s.memWrite (secretAddr o) v

/-! ### Register arrays -/

/-- Entry `i` of a register array. Every index a command or the host uses is below 256 (R70, R62); outside, it is 0
(never reached, log 14). -/
def entry {w : Nat} (v : Vector (BitVec w) Config.slotCount) (i : Nat) : BitVec w := v[i]?.getD 0

/-- Write of entry `i` of a register array. -/
def setEntry {w : Nat} (v : Vector (BitVec w) Config.slotCount) (i : Nat) (x : BitVec w) :
    Vector (BitVec w) Config.slotCount :=
  v.setIfInBounds i x

/-- `RESULT <- v`. -/
def State.setResult (s : State) (v : Byte) : State := { s with result := v }

/-- `LEN <- v`. -/
def State.setLen (s : State) (v : BitVec 16) : State := { s with len := v }

/-- `SHLEN[j] <- v`. -/
def State.setShlen (s : State) (j : Nat) (v : BitVec 16) : State := { s with shlen := setEntry s.shlen j v }

/-- `XC[i] <- v`. -/
def State.setXc (s : State) (i : Nat) (v : Byte) : State := { s with xc := setEntry s.xc i v }

/-- `COEF[c] <- v`. -/
def State.setCoef (s : State) (c : Nat) (v : Byte) : State := { s with coef := setEntry s.coef c v }

/-- `PY[i] <- v`. -/
def State.setPy (s : State) (i : Nat) (v : Byte) : State := { s with py := setEntry s.py i v }

/-! ### The entropy port -/

/-- What `RngDraw()` gives. -/
inductive Drawn where
  /-- The source has not answered: the block waits with `BUSY = 1` (R66, R301, U7). -/
  | waiting
  /-- The answer `Fail`. -/
  | fail (s : State)
  /-- The answer `Ok(b)`. -/
  | byte (b : Byte) (s : State)
  deriving DecidableEq, Repr

/-- `RngDraw()` (R66): the next answer, consumed. -/
def State.rngDraw (s : State) : Drawn :=
  match s.entropy with
  | [] => .waiting
  | .fail :: rest => .fail { s with entropy := rest }
  | .ok b :: rest => .byte b { s with entropy := rest }

/-! ### Pseudocode -/

/-- How a piece of pseudocode leaves off (R8). -/
inductive Exit where
  /-- It ran to its end. -/
  | ok
  /-- `raise Error(code)`. -/
  | error (e : ECode)
  /-- `raise Fatal(DivideByZero)`. -/
  | fatal
  /-- It waits for an answer of the entropy source. -/
  | waiting
  deriving DecidableEq, Repr

/-- A piece of pseudocode: how it leaves off, and the state it leaves. -/
abbrev Body := State → Exit × State

/-- `p; q`. A raise in `p` skips `q` (R8). -/
def Body.andThen (p q : Body) : Body := fun s =>
  match p s with
  | (.ok, t) => q t
  | (x, t) => (x, t)

/-- `for i in is: f i`. A raise leaves the loop at once (R8). -/
def forEach : List Nat → (Nat → Body) → Body
  | [], _ => fun s => (.ok, s)
  | i :: is, f => Body.andThen (f i) (forEach is f)

/-- The indices of `for t in n downto 1`. -/
def downFrom : Nat → List Nat
  | 0 => []
  | n + 1 => (n + 1) :: downFrom n

/-! ### How a command begins and ends -/

/-- Acceptance of the word `w` written to `CMD` (R37, R44). It is also what follows an earlier command's error:
there is no return instruction, and accepting the next command clears `DONE` and `ECODE` (R245). -/
def State.accept (s : State) (w : Word) : State :=
  { s with cmdl := w, busy := true, done := false, ecode := .ok, seq := Seq.start .decode }

/-- Successful end of a command (R241). -/
def State.endOk (s : State) : State :=
  { s with ecode := .ok, done := true, busy := false, seq := Seq.start .idle }

/-- End of a command by `raise Error(code)` (R242). -/
def State.raiseError (s : State) (e : ECode) : State :=
  { s with ecode := e, done := true, busy := false, seq := Seq.start .idle }

/-- End of a command by `raise Fatal(DivideByZero)`, the entry into the fatal state (R246). `DONE` and `ECODE` stay
as acceptance left them. -/
def State.raiseFatal (s : State) : State :=
  { s with fatal := true, fcode := .divideByZero, busy := false, seq := Seq.start .halt }

/-- A register array after a reset event: free values, by the location address of each entry (U2, log 5). -/
def unspecifiedArray (residue base : Nat) : Vector Byte Config.slotCount :=
  Vector.ofFn fun i => (Config.unspecified residue (base + i.val)).setWidth 8

/-- The reset event (R280, R281, R46): the only way out of the fatal state (R248). What R46 calls unspecified becomes
a free value that may depend on everything the block held, so that nothing is promised about old bytes, neither that they
stay nor that they go (R282); the parameters, the source's coming answers and the other agents' plans are no state of the
block. -/
def State.resetEvent (s : State) : State :=
  { s with
    busy := false, done := false, fatal := false, herr := false, ecode := .ok, fcode := .none, ie := false,
    result := 0, len := 0, shlen := Vector.replicate Config.slotCount 0,
    xc := unspecifiedArray (Config.residue s) 0x200,
    coef := unspecifiedArray (Config.residue s) 0x300,
    py := unspecifiedArray (Config.residue s) 0x400,
    mem := [], cmdl := Config.unspecified (Config.residue s) 0,
    seq := Seq.start .idle, epoch := s.epoch + 1, residue := Config.residue s }

/-- Runs a command's pseudocode from acceptance to its end, as one step (R222). While the entropy source leaves a draw
unanswered the block waits with `BUSY = 1`, and nothing of what the command has done can be observed (R64, R301): the
state stays as it is (log 8). -/
def runCommand (body : Body) (s : State) : Host.Outcome State Fault Refusal :=
  match body s with
  | (.ok, t) => .next t.endOk
  | (.error e, t) => .next (t.raiseError e)
  | (.fatal, t) => .next t.raiseFatal
  | (.waiting, _) => .next s

end Sys2Proof.Machine
end

