-- ==== Sys2Proof/Machine/Operands.lean ====
section
/-! DEFINITION. Where operands come from: the fields of the latched command word (R92, R93), the index mask of a
shuffle draw (R199), and the location a host address names (R62). -/

namespace Sys2Proof.Machine

/-! ### The operands of the latched word -/

/-- `CMDL[31:24]`. -/
def State.op (s : State) : Byte := fieldOp s.cmdl

/-- `CMDL[23:16]`, operand `a`. -/
def State.opA (s : State) : Byte := fieldA s.cmdl

/-- `CMDL[15:8]`, operand `b`. -/
def State.opB (s : State) : Byte := fieldB s.cmdl

/-- `CMDL[7:0]`, operand `x` or `c0`. -/
def State.opX (s : State) : Byte := fieldX s.cmdl

/-- `CMDL[23:12]`, operand `cnt`, `n` or `m`. -/
def State.opN (s : State) : BitVec 12 := fieldN s.cmdl

/-- `CMDL[11:0]`, operand `k`. -/
def State.opK (s : State) : BitVec 12 := fieldK s.cmdl

/-! ### The index of a shuffle draw -/

/-- The smallest of 0x01, 0x03, 0x07, 0x0F, 0x1F, 0x3F, 0x7F, 0xFF that is at least `t` (R199). -/
def drawMask (t : Nat) : Byte :=
  if t ≤ 0x01 then 0x01
  else if t ≤ 0x03 then 0x03
  else if t ≤ 0x07 then 0x07
  else if t ≤ 0x0F then 0x0F
  else if t ≤ 0x1F then 0x1F
  else if t ≤ 0x3F then 0x3F
  else if t ≤ 0x7F then 0x7F
  else 0xFF

/-- The index a drawn byte proposes: `b & mask` (R199). -/
def drawnIndex (t : Nat) (b : Byte) : Nat := (b &&& drawMask t).toNat

/-! ### Locations -/

/-- A location of the address map (R62). -/
inductive Loc where
  | cmd
  | status
  | ctrl
  | cap
  | result
  | len
  | shlen (j : Byte)
  | xc (i : Byte)
  | coef (c : Byte)
  | py (i : Byte)
  | share (j : Byte) (o : BitVec 16)
  | secret (o : BitVec 16)
  | unmapped
  deriving DecidableEq, Repr

/-- The single registers, by address (R62). -/
def registerLoc : Nat → Loc
  | 0x0 => .cmd
  | 0x1 => .status
  | 0x2 => .ctrl
  | 0x3 => .cap
  | 0x4 => .result
  | 0x5 => .len
  | _ => .unmapped

/-- The register arrays, by `ha[31:8]`, and the entry, `ha[7:0]` (R62). -/
def arrayLoc (page : Nat) (i : Byte) : Loc :=
  match page with
  | 0x1 => .shlen i
  | 0x2 => .xc i
  | 0x3 => .coef i
  | 0x4 => .py i
  | _ => .unmapped

/-- The byte cells (R62): for a share `ha[31:24] = 0x01`, `j = ha[23:16]`, `o = ha[15:0]`; for a secret
`ha[31:16] = 0x0200`, `o = ha[15:0]`. -/
def bufferLoc (lmax : Nat) (ha : Word) : Loc :=
  if ha.extractLsb' 24 8 = 0x01 then
    if (ha.extractLsb' 0 16).toNat ≤ lmax then .share (ha.extractLsb' 16 8) (ha.extractLsb' 0 16) else .unmapped
  else if ha.extractLsb' 16 16 = 0x0200 then
    if (ha.extractLsb' 0 16).toNat < lmax then .secret (ha.extractLsb' 0 16) else .unmapped
  else .unmapped

/-- The location an address names, for buffers of `lmax` (R62). -/
def locOf (lmax : Nat) (ha : Word) : Loc :=
  if ha.toNat < 0x100 then registerLoc ha.toNat
  else if ha.toNat < 0x500 then arrayLoc (ha.toNat / 0x100) (ha.extractLsb' 0 8)
  else bufferLoc lmax ha

/-- The guarded locations: the last column of R62. -/
def Loc.guarded : Loc → Bool
  | .cmd => true
  | .status => false
  | .ctrl => false
  | .cap => false
  | .result => true
  | .len => true
  | .shlen _ => true
  | .xc _ => true
  | .coef _ => true
  | .py _ => true
  | .share _ _ => true
  | .secret _ => true
  | .unmapped => false

/-- The locations a host read may address, the guard apart: all but the write-only `CMD` and the unmapped ones (R65). -/
def Loc.readable : Loc → Bool
  | .cmd => false
  | .unmapped => false
  | _ => true

/-- The locations a host write may address, the guard apart: all but the read-only `CAP` and `RESULT` and the
unmapped ones (R65). -/
def Loc.writable : Loc → Bool
  | .cap => false
  | .result => false
  | .unmapped => false
  | _ => true

end Sys2Proof.Machine
end

