-- ==== Sys2Proof/Machine/Field.lean ====
section
/-! DEFINITION. The field adder, multiplier and inverse unit (R120 to R129) and the commands GFADD, GFMUL, GFINV and
GFDIV (R130 to R133). -/

namespace Sys2Proof.Machine

/-! ### The field functions -/

/-- `add(a, b)` (R120). Subtraction is the same function. -/
def gfAdd (a b : Byte) : Byte := a ^^^ b

/-- One shift of `a` with reduction modulo `POLY`: the second half of a round of R123. -/
def gfShift (poly : BitVec 9) (a : Byte) : Byte :=
  if a.getLsbD 7 then (a <<< 1) ^^^ poly.setWidth 8 else a <<< 1

/-- The rounds of R123 from bit `i` of `b` on: `p` is the product so far. -/
def gfMulRounds (poly : BitVec 9) (b : Byte) : (rounds i : Nat) → (a p : Byte) → Byte
  | 0, _, _, p => p
  | n + 1, i, a, p => gfMulRounds poly b n (i + 1) (gfShift poly a) (if b.getLsbD i then p ^^^ a else p)

/-- `mul(a, b)`, by the reference algorithm R123. -/
def gfMul (poly : BitVec 9) (a b : Byte) : Byte := gfMulRounds poly b 8 0 a 0x00

/-- The square-and-multiply rounds of R128: `r = mul(r, r)`, and `r = mul(r, a)` where the exponent has a 1. -/
def gfPowRounds (poly : BitVec 9) (a : Byte) : List Bool → Byte → Byte
  | [], r => r
  | true :: bits, r => gfPowRounds poly a bits (gfMul poly (gfMul poly r r) a)
  | false :: bits, r => gfPowRounds poly a bits (gfMul poly r r)

/-- `inv(a)`: none when it raises `Fatal(DivideByZero)`, by the reference algorithm R128 (exponent 1111_1110). -/
def gfInv (poly : BitVec 9) (a : Byte) : Option Byte :=
  if a = 0x00 then none
  else some (gfPowRounds poly a [true, true, true, true, true, true, true, false] 0x01)

/-- `div(a, b)`: none when it raises `Fatal(DivideByZero)`, which is for `b = 0` and every `a` (R129). -/
def gfDiv (poly : BitVec 9) (a b : Byte) : Option Byte :=
  match gfInv poly b with
  | none => none
  | some r => some (gfMul poly a r)

/-! ### The commands -/

/-- `RESULT <- v`, where `v` is a field result or `Fatal(DivideByZero)`. `RESULT` is not written on the fatal way. -/
def putResult (v : Option Byte) : Body := fun s =>
  match v with
  | none => (.fatal, s)
  | some r => (.ok, s.setResult r)

/-- The pseudocode of R130. -/
def gfaddBody (a b : Byte) : Body := putResult (some (gfAdd a b))

/-- The pseudocode of R131. -/
def gfmulBody (a b : Byte) : Body := fun s => putResult (some (gfMul s.cfg.poly a b)) s

/-- The pseudocode of R132. -/
def gfinvBody (a : Byte) : Body := fun s => putResult (gfInv s.cfg.poly a) s

/-- The pseudocode of R133. -/
def gfdivBody (a b : Byte) : Body := fun s => putResult (gfDiv s.cfg.poly a b) s

/-- `GFADD a, b` (R130). -/
def execGfadd (a b : Byte) (s : State) : Host.Outcome State Fault Refusal := runCommand (gfaddBody a b) s

/-- `GFMUL a, b` (R131). -/
def execGfmul (a b : Byte) (s : State) : Host.Outcome State Fault Refusal := runCommand (gfmulBody a b) s

/-- `GFINV a` (R132). -/
def execGfinv (a : Byte) (s : State) : Host.Outcome State Fault Refusal := runCommand (gfinvBody a) s

/-- `GFDIV a, b` (R133). -/
def execGfdiv (a b : Byte) (s : State) : Host.Outcome State Fault Refusal := runCommand (gfdivBody a b) s

end Sys2Proof.Machine
end

