-- ==== Sys2Proof/Machine/Polynomial.lean ====
section
/-! DEFINITION. The polynomial generator and the Horner evaluator (R150 to R153) and the commands PGEN and PEVAL
(R155, R156). -/

namespace Sys2Proof.Machine

/-! ### The functions -/

/-- One pass of the loop of R150: `COEF[c]` from one draw, or `Error(RandomnessFailure)`. -/
def drawCoef (c : Nat) : Body := fun s =>
  match s.rngDraw with
  | .waiting => (.waiting, s)
  | .fail t => (.error .randomnessFailure, t)
  | .byte b t => (.ok, t.setCoef c b)

/-- `Generate(cnt, c0)` (R150, R151). -/
def generate (cnt : Nat) (c0 : Byte) : Body := fun s =>
  forEach (List.range' 1 (cnt - 1)) drawCoef (s.setCoef 0 c0)

/-- The loop of R152 over the coefficients below index `i`, from the highest down. -/
def hornerRounds (poly : BitVec 9) (coef : Vector Byte Config.slotCount) (x : Byte) : (i : Nat) → (acc : Byte) → Byte
  | 0, acc => acc
  | i + 1, acc => hornerRounds poly coef x i (gfAdd (gfMul poly acc x) (entry coef i))

/-- `Horner(cnt, x)` (R152). -/
def horner (poly : BitVec 9) (coef : Vector Byte Config.slotCount) (cnt : Nat) (x : Byte) : Byte :=
  hornerRounds poly coef x (cnt - 1) (entry coef (cnt - 1))

/-- `Horner(cnt, x)` on the coefficients the state holds. -/
def State.horner (s : State) (cnt : Nat) (x : Byte) : Byte := Machine.horner s.cfg.poly s.coef cnt x

/-! ### The commands -/

/-- The range check of `cnt`, made before anything is written or drawn (R155, R156, R175). -/
def withCount (cnt : BitVec 12) (body : Body) : Body := fun s =>
  if countLegal cnt then body s else (.error .illegalCommand, s)

/-- The pseudocode of R155. -/
def pgenBody (cnt : BitVec 12) (c0 : Byte) : Body := withCount cnt (generate cnt.toNat c0)

/-- The pseudocode of R156. -/
def pevalBody (cnt : BitVec 12) (x : Byte) : Body :=
  withCount cnt fun s => putResult (some (s.horner cnt.toNat x)) s

/-- `PGEN cnt, c0` (R155). -/
def execPgen (cnt : BitVec 12) (c0 : Byte) (s : State) : Host.Outcome State Fault Refusal :=
  runCommand (pgenBody cnt c0) s

/-- `PEVAL cnt, x` (R156). -/
def execPeval (cnt : BitVec 12) (x : Byte) (s : State) : Host.Outcome State Fault Refusal :=
  runCommand (pevalBody cnt x) s

end Sys2Proof.Machine
end

