-- ==== Sys2Proof/Machine/Interpolator.lean ====
section
/-! DEFINITION. The Lagrange-basis interpolator (R170 to R174) and the command LINTERP (R175). -/

namespace Sys2Proof.Machine

/-- The inner loop of R172 over the indices `js`: the basis of point `i` at `x`. One division for every `j` but `i`,
none skipped; none when a division raises `Fatal(DivideByZero)`. -/
def lagrangeBasis (poly : BitVec 9) (xc : Vector Byte Config.slotCount) (x : Byte) (i : Nat) : (js : List Nat) → (basis : Byte) → Option Byte
  | [], basis => some basis
  | j :: js, basis =>
    if j = i then lagrangeBasis poly xc x i js basis
    else
      match gfDiv poly (gfAdd x (entry xc j)) (gfAdd (entry xc i) (entry xc j)) with
      | none => none
      | some q => lagrangeBasis poly xc x i js (gfMul poly basis q)

/-- The outer loop of R172 over the indices `is`, for `m` points. -/
def lagrangeSum (poly : BitVec 9) (xc py : Vector Byte Config.slotCount) (m : Nat) (x : Byte) : (is : List Nat) → (acc : Byte) → Option Byte
  | [], acc => some acc
  | i :: is, acc =>
    match lagrangeBasis poly xc x i (List.range m) 0x01 with
    | none => none
    | some basis => lagrangeSum poly xc py m x is (gfAdd acc (gfMul poly (entry py i) basis))

/-- `Lagrange(m, x)` (R172). -/
def lagrange (poly : BitVec 9) (xc py : Vector Byte Config.slotCount) (m : Nat) (x : Byte) : Option Byte :=
  lagrangeSum poly xc py m x (List.range m) 0x00

/-- `Lagrange(m, x)` on the points the state holds. -/
def State.lagrange (s : State) (m : Nat) (x : Byte) : Option Byte := Machine.lagrange s.cfg.poly s.xc s.py m x

/-- The pseudocode of R175. -/
def linterpBody (cnt : BitVec 12) (x : Byte) : Body :=
  withCount cnt fun s => putResult (s.lagrange cnt.toNat x) s

/-- `LINTERP cnt, x` (R175). -/
def execLinterp (cnt : BitVec 12) (x : Byte) (s : State) : Host.Outcome State Fault Refusal :=
  runCommand (linterpBody cnt x) s

end Sys2Proof.Machine
end

