-- ==== Sys2Proof/Machine/Orchestrator.lean ====
section
/-! DEFINITION. The share orchestrator: SPLIT (R190 to R206) and COMBINE (R210 to R218). -/

namespace Sys2Proof.Machine

/-! ### SPLIT -/

/-- The four checks of R192, in their order; the first that fails decides the error. -/
def splitError (n k : BitVec 12) (s : State) : Option ECode :=
  if k.toNat < 2 ∨ 255 < k.toNat then some .invalidThreshold
  else if n.toNat < k.toNat ∨ 255 < n.toNat then some .invalidCount
  else if s.len.toNat = 0 then some .emptySecret
  else if s.cfg.lmax < s.len.toNat then some .invalidLength
  else none

/-- `for j in 0..255: SHLEN[j] <- 0` (R196). -/
def clearShlen (s : State) : State := { s with shlen := Vector.replicate Config.slotCount 0 }

/-- `for t in 0..254: XC[t] <- t + 1` (R197). `XC[255]` is not written. -/
def identityXc (s : State) : State := (List.range 255).foldl (fun s t => s.setXc t (BitVec.ofNat 8 (t + 1))) s

/-- `DrawIndex(t)` with `tries` draws left (R199): a drawn byte whose index is not above `t`, as that index. When no
draw is left the source counts as failed. -/
def drawIndex (t : Nat) : (tries : Nat) → State → Drawn
  | 0, s => .fail s
  | tries + 1, s =>
    match s.rngDraw with
    | .waiting => .waiting
    | .fail u => .fail u
    | .byte b u => if drawnIndex t b ≤ t then .byte (b &&& drawMask t) u else drawIndex t tries u

/-- `tmp = XC[t]; XC[t] <- XC[r]; XC[r] <- tmp` (R198): both cells are read before either is written (R291). -/
def exchangeXc (t r : Nat) (s : State) : State := (s.setXc t (entry s.xc r)).setXc r (entry s.xc t)

/-- One `t` of the shuffle (R198). -/
def shuffleAt (t : Nat) : Body := fun s =>
  match drawIndex t s.cfg.rejLimit s with
  | .waiting => (.waiting, s)
  | .fail u => (.error .randomnessFailure, u)
  | .byte r u => (.ok, exchangeXc t r.toNat u)

/-- `for t in 254 downto 1` (R198). -/
def shuffle : Body := forEach (downFrom 254) shuffleAt

/-- `for j in 0..n-1: SHARE[j][i] <- Horner(k, XC[j])` (R201). -/
def evalShares (n k i : Nat) (s : State) : State :=
  (List.range n).foldl (fun s j => s.setShare j i (s.horner k (entry s.xc j))) s

/-- One byte position (R200): the polynomial in full, then its evaluations. -/
def splitByte (n k i : Nat) : Body :=
  Body.andThen (fun s => generate k (s.secret i) s) (fun s => (.ok, evalShares n k i s))

/-- `for j in 0..n-1: SHARE[j][L] <- XC[j]` (R202). -/
def tailShares (n : Nat) (s : State) : State :=
  (List.range n).foldl (fun s j => s.setShare j s.len.toNat (entry s.xc j)) s

/-- `for j in 0..n-1: SHLEN[j] <- L + 1` (R203). -/
def markShares (n : Nat) (s : State) : State :=
  (List.range n).foldl (fun s j => s.setShlen j (s.len + 1)) s

/-- The pseudocode of R190. `L` is `LEN`, which the command does not write. -/
def splitBody (n k : BitVec 12) : Body := fun s =>
  match splitError n k s with
  | some e => (.error e, s)
  | none =>
    Body.andThen shuffle
      (Body.andThen (forEach (List.range s.len.toNat) (splitByte n.toNat k.toNat))
        (fun s => (.ok, markShares n.toNat (tailShares n.toNat s))))
      (identityXc (clearShlen s))

/-- `SPLIT n, k` (R190). -/
def execSplit (n k : BitVec 12) (s : State) : Host.Outcome State Fault Refusal := runCommand (splitBody n k) s

/-! ### COMBINE -/

/-- `Lc = SHLEN[0] - 1`, the offset of the coordinate byte and the length of the secret (R210). -/
def State.combinedLen (s : State) : Nat := (entry s.shlen 0).toNat - 1

/-- Some two of the first `m` shares have the same trailing coordinate byte (R211). -/
def sameCoordinate (m : Nat) (s : State) : Bool :=
  (List.range (m - 1)).any fun a =>
    (List.range' (a + 1) (m - (a + 1))).any fun b => s.share a s.combinedLen == s.share b s.combinedLen

/-- The checks of R210 and R211, in the order of R210. -/
def combineError (m : BitVec 12) (s : State) : Option ECode :=
  if m.toNat < 2 ∨ s.cfg.nslot < m.toNat then some .invalidShares
  else if (List.range m.toNat).any fun j => decide ((entry s.shlen j).toNat < 2) then some .invalidShares
  else if (List.range' 1 (m.toNat - 1)).any fun j => entry s.shlen j != entry s.shlen 0 then some .invalidShares
  else if s.cfg.lmax + 1 < (entry s.shlen 0).toNat then some .invalidLength
  else if sameCoordinate m.toNat s then some .invalidShares
  else none

/-- `for j in 0..m-1: XC[j] <- SHARE[j][Lc]` (R214). -/
def loadX (m : Nat) (s : State) : State :=
  (List.range m).foldl (fun s j => s.setXc j (s.share j s.combinedLen)) s

/-- `for j in 0..m-1: PY[j] <- SHARE[j][i]` (R215). -/
def loadY (m i : Nat) (s : State) : State :=
  (List.range m).foldl (fun s j => s.setPy j (s.share j i)) s

/-- `SECRET[i] <- Lagrange(m, 0x00)` (R215). The fatal way is that of R172; it is never taken, because the coordinates
are distinct (R218). -/
def interpolateByte (m i : Nat) : Body := fun s =>
  match s.lagrange m 0x00 with
  | none => (.fatal, s)
  | some b => (.ok, s.setSecret i b)

/-- One byte position (R215). -/
def combineByte (m i : Nat) : Body := fun s => interpolateByte m i (loadY m i s)

/-- `LEN <- Lc` (R216). -/
def setCombinedLen (s : State) : State := s.setLen (BitVec.ofNat 16 s.combinedLen)

/-- The pseudocode of R210. `SHLEN` is not written, so `Lc` stays the same throughout. -/
def combineBody (m : BitVec 12) : Body := fun s =>
  match combineError m s with
  | some e => (.error e, s)
  | none =>
    Body.andThen (forEach (List.range s.combinedLen) (combineByte m.toNat)) (fun s => (.ok, setCombinedLen s))
      (loadX m.toNat s)

/-- `COMBINE m` (R210). -/
def execCombine (m : BitVec 12) (s : State) : Host.Outcome State Fault Refusal := runCommand (combineBody m) s

end Sys2Proof.Machine
end

