-- ==== Sys2Proof/Machine/Dispatch.lean ====
section
/-! DEFINITION. The meaning of every command: one arm per constructor of Instr. -/

namespace Sys2Proof.Machine

def exec (i : Instr) (s : State) : Host.Outcome State Fault Refusal :=
  match i with
  | .gfadd a b => Sys2Proof.Machine.execGfadd a b s
  | .gfmul a b => Sys2Proof.Machine.execGfmul a b s
  | .gfinv a => Sys2Proof.Machine.execGfinv a s
  | .gfdiv a b => Sys2Proof.Machine.execGfdiv a b s
  | .pgen cnt c0 => Sys2Proof.Machine.execPgen cnt c0 s
  | .peval cnt x => Sys2Proof.Machine.execPeval cnt x s
  | .linterp cnt x => Sys2Proof.Machine.execLinterp cnt x s
  | .split n k => Sys2Proof.Machine.execSplit n k s
  | .combine m => Sys2Proof.Machine.execCombine m s

end Sys2Proof.Machine
end

