-- ==== Sys2Proof/Machine/Flags.lean ====
section
/-! DEFINITION. The status, control and capability words as the host reads them (R27, R35, R36), the clearing of
status bits (R34), and the interrupt output (R250). -/

namespace Sys2Proof.Machine

/-- One bit as a bit vector. -/
def bit (b : Bool) : BitVec 1 := BitVec.ofBool b

/-- The code numbers of R240. -/
def ECode.code : ECode → BitVec 4
  | .ok => 0
  | .invalidThreshold => 1
  | .invalidCount => 2
  | .emptySecret => 3
  | .randomnessFailure => 4
  | .invalidShares => 5
  | .illegalCommand => 6
  | .invalidLength => 7

/-- The cause numbers of R33. -/
def FCode.code : FCode → BitVec 4
  | .none => 0
  | .divideByZero => 1

/-- `STATUS` as read: the layout of R27, reserved bits 0. -/
def State.statusWord (s : State) : Word :=
  0x0000#16 ++ s.fcode.code ++ s.ecode.code ++ 0x0#4 ++ bit s.herr ++ bit s.fatal ++ bit s.done ++ bit s.busy

/-- `CTRL` as read: `IE` in bit 0, the rest 0 (R35). -/
def State.ctrlWord (s : State) : Word := 0#31 ++ bit s.ie

/-- `CAP`: `LMAX` in bits 15:0, the interface version 0x01 in bits 23:16, the rest 0 (R36). -/
def State.capWord (s : State) : Word := 0x00#8 ++ 0x01#8 ++ BitVec.ofNat 16 s.cfg.lmax

/-- A host write of `v` to `STATUS` (R34): bit 1 clears `DONE`, bit 3 clears `HERR`, the other bits are ignored. -/
def State.writeStatus (s : State) (v : Word) : State :=
  { s with done := s.done && !v.getLsbD 1, herr := s.herr && !v.getLsbD 3 }

/-- A host write of `v` to `CTRL` (R35): bit 0 is written, the others are ignored. -/
def State.writeCtrl (s : State) (v : Word) : State := { s with ie := v.getLsbD 0 }

/-- The interrupt output: `irq = CTRL.IE and (STATUS.DONE or STATUS.FATAL)` (R250). -/
def State.irq (s : State) : Bool := s.ie && (s.done || s.fatal)

end Sys2Proof.Machine
end

