-- ==== Sys2Proof/Machine/HostPort.lean ====
section
/-! DEFINITION. The host port: the transactions HostRead and HostWrite, the guard, and refused accesses (R60 to R65). -/

namespace Sys2Proof.Machine

/-- The guard closes every guarded location while a command runs and in the fatal state (R64). -/
def State.guardClosed (s : State) : Bool := s.busy || s.fatal

/-- The location an address names here. -/
def State.locOf (s : State) (ha : Word) : Loc := Machine.locOf s.cfg.lmax ha

/-- A host read of this address is refused (R65). -/
def State.readRefused (s : State) (ha : Word) : Bool :=
  !(s.locOf ha).readable || ((s.locOf ha).guarded && s.guardClosed)

/-- A host write of this address is refused (R65). -/
def State.writeRefused (s : State) (ha : Word) : Bool :=
  !(s.locOf ha).writable || ((s.locOf ha).guarded && s.guardClosed)

/-- The value of a location, zero-extended to 32 bits (R61). `CMD` and the unmapped locations have none to read; the
caller refuses them. -/
def State.readLoc (s : State) : Loc → Word
  | .cmd => 0
  | .status => s.statusWord
  | .ctrl => s.ctrlWord
  | .cap => s.capWord
  | .result => s.result.setWidth 32
  | .len => s.len.setWidth 32
  | .shlen j => (entry s.shlen j.toNat).setWidth 32
  | .xc i => (entry s.xc i.toNat).setWidth 32
  | .coef c => (entry s.coef c.toNat).setWidth 32
  | .py i => (entry s.py i.toNat).setWidth 32
  | .share j o => (s.share j.toNat o.toNat).setWidth 32
  | .secret o => (s.secret o.toNat).setWidth 32
  | .unmapped => 0

/-- A write to a location takes the low bits of the data word (R61, R62). `CAP`, `RESULT` and the unmapped locations
are not written; the caller refuses them. -/
def State.writeLoc (s : State) (d : Word) : Loc → State
  | .cmd => s.accept d
  | .status => s.writeStatus d
  | .ctrl => s.writeCtrl d
  | .cap => s
  | .result => s
  | .len => s.setLen (d.setWidth 16)
  | .shlen j => s.setShlen j.toNat (d.setWidth 16)
  | .xc i => s.setXc i.toNat (d.setWidth 8)
  | .coef c => s.setCoef c.toNat (d.setWidth 8)
  | .py i => s.setPy i.toNat (d.setWidth 8)
  | .share j o => s.setShare j.toNat o.toNat (d.setWidth 8)
  | .secret o => s.setSecret o.toNat (d.setWidth 8)
  | .unmapped => s

/-- `HostRead(ha)` (R60): the value, or the refusal of R65, which reads 0 and sets `HERR`. -/
def State.hostRead (s : State) (ha : Word) : State :=
  if s.readRefused ha then { s with herr := true, rdata := 0 } else { s with rdata := s.readLoc (s.locOf ha) }

/-- `HostWrite(ha, d)` (R60): the write, or the refusal of R65, which sets `HERR` and does nothing else. -/
def State.hostWrite (s : State) (ha d : Word) : State :=
  if s.writeRefused ha then { s with herr := true } else s.writeLoc d (s.locOf ha)

end Sys2Proof.Machine
end

