-- ==== Sys2Proof/Machine/Sequencer.lean ====
section
/-! DEFINITION. The orchestrator's finite-state machine (R220, R221): one transition of the core at a time, with the
loop counters of R43 in the state. It is one way of running the commands (R222); the other, the one step per command of
`exec`, does the same work in the same order. -/

namespace Sys2Proof.Machine

/-- Go to another state, counters as they are. -/
def State.goto (s : State) (st : ST) : State := { s with seq := { s.seq with st := st } }

/-- Go to `END` with an error code (R221). -/
def State.toFinish (s : State) (e : ECode) : State := { s with seq := { s.seq with st := .finish, e := e } }

/-- Go to `SP_COEF` for byte position `i` (R221). -/
def State.toCoef (s : State) (i : Nat) : State := { s with seq := { s.seq with st := .spCoef, i := i, c := 0 } }

/-- Leave a state whose work is one piece of pseudocode: `END` with the code, `HALT`, or wait for an answer. -/
def leave (r : Exit × State) : State :=
  match r with
  | (.ok, t) => t.toFinish .ok
  | (.error e, t) => t.toFinish e
  | (.fatal, t) => t.raiseFatal
  | (.waiting, t) => t

/-- Leave `DECODE` (R221): by the opcode, or to `END` with code 6 for an illegal word. -/
def leaveDecode (s : State) : State :=
  match decode s.cmdl with
  | .illegal _ => s.toFinish .illegalCommand
  | .ok (.gfadd _ _) => s.goto .field
  | .ok (.gfmul _ _) => s.goto .field
  | .ok (.gfinv _) => s.goto .field
  | .ok (.gfdiv _ _) => s.goto .field
  | .ok (.pgen _ _) => s.goto .gen
  | .ok (.peval _ _) => s.goto .eval
  | .ok (.linterp _ _) => s.goto .interp
  | .ok (.split _ _) => s.goto .spCheck
  | .ok (.combine _) => s.goto .cbCheck

/-- The work of `FIELD`: one call of the field function the opcode names. The state is entered for the opcodes 0x01 to
0x04 only (R221), so the last case is 0x04. -/
def fieldWork (s : State) : Exit × State :=
  if s.op = 0x01 then gfaddBody s.opA s.opB s
  else if s.op = 0x02 then gfmulBody s.opA s.opB s
  else if s.op = 0x03 then gfinvBody s.opA s
  else gfdivBody s.opA s.opB s

/-- The work of one visit of `Generate(cnt, c0)`: the intercept at the first visit, one drawn coefficient at each
later one. When the coefficients are complete the state is left for `after`; a failing draw leaves for `END`, e = 4; an
unanswered draw stays. -/
def coefVisit (cnt : Nat) (c0 : Byte) (after : State → State) (s : State) : State :=
  if s.seq.c = 0 then
    let t := s.setCoef 0 c0
    if cnt ≤ 1 then after t else { t with seq := { t.seq with c := 1 } }
  else
    match drawCoef s.seq.c s with
    | (.ok, t) => if cnt ≤ s.seq.c + 1 then after t else { t with seq := { t.seq with c := s.seq.c + 1 } }
    | (.error e, t) => t.toFinish e
    | (.fatal, t) => t.raiseFatal
    | (.waiting, t) => t

/-- The work of one draw in `SP_SHUFFLE` (R198, R199, R221): an accepted index exchanges and goes on to `t - 1`, or to
`SP_COEF` after `t = 1`; a rejected one counts, and the `REJ_LIMIT`-th rejection, like `Fail`, leaves for `END`, e = 4. -/
def shuffleVisit (s : State) : State :=
  match s.rngDraw with
  | .waiting => s
  | .fail u => u.toFinish .randomnessFailure
  | .byte b u =>
    if drawnIndex s.seq.t b ≤ s.seq.t then
      let v := exchangeXc s.seq.t (drawnIndex s.seq.t b) u
      if s.seq.t ≤ 1 then v.toCoef 0 else { v with seq := { v.seq with t := s.seq.t - 1, tries := 0 } }
    else if s.cfg.rejLimit ≤ s.seq.tries + 1 then u.toFinish .randomnessFailure
    else { u with seq := { u.seq with tries := s.seq.tries + 1 } }

/-- One transition of the core (R221). -/
def coreTransition (s : State) : State :=
  match s.seq.st with
  | .idle => s
  | .decode => leaveDecode s
  | .field => leave (fieldWork s)
  | .gen => coefVisit s.opN.toNat s.opX (fun t => t.toFinish .ok) s
  | .eval => leave (pevalBody s.opN s.opX s)
  | .interp => leave (linterpBody s.opN s.opX s)
  | .spCheck =>
    match splitError s.opN s.opK s with
    | some e => s.toFinish e
    | none => s.goto .spClear
  | .spClear => { identityXc (clearShlen s) with seq := { s.seq with st := .spShuffle, t := 254, tries := 0 } }
  | .spShuffle => shuffleVisit s
  | .spCoef => coefVisit s.opK.toNat (s.secret s.seq.i) (fun t => t.goto .spEval) s
  | .spEval =>
    let t := evalShares s.opN.toNat s.opK.toNat s.seq.i s
    if s.seq.i + 1 < s.len.toNat then t.toCoef (s.seq.i + 1) else t.goto .spTail
  | .spTail => (markShares s.opN.toNat (tailShares s.opN.toNat s)).toFinish .ok
  | .cbCheck =>
    match combineError s.opN s with
    | some e => s.toFinish e
    | none => s.goto .cbLoadX
  | .cbLoadX => { loadX s.opN.toNat s with seq := { s.seq with st := .cbLoadY, i := 0 } }
  | .cbLoadY => (loadY s.opN.toNat s.seq.i s).goto .cbInterp
  | .cbInterp =>
    match interpolateByte s.opN.toNat s.seq.i s with
    | (.ok, t) =>
      if s.seq.i + 1 < s.combinedLen then { t with seq := { t.seq with st := .cbLoadY, i := s.seq.i + 1 } }
      else t.goto .cbLen
    | (.error e, t) => t.toFinish e
    | (.fatal, t) => t.raiseFatal
    | (.waiting, t) => t
  | .cbLen => (setCombinedLen s).toFinish .ok
  | .finish => s.raiseError s.seq.e
  | .halt => s

end Sys2Proof.Machine
end

