-- ==== Sys2Proof/Machine/Step.lean ====
section
/-! DEFINITION. One step of the machine: what the schedule says, or else the core. -/

namespace Sys2Proof.Machine

/-- One event of the schedule: a transaction of the host, a reset, or one transition of the core (R9, R60, R221). -/
def State.serve (s : State) : Event → State
  | .hostRead ha => s.hostRead ha
  | .hostWrite ha d => s.hostWrite ha d
  | .reset => s.resetEvent
  | .coreMove => coreTransition s

/-- The core left to itself: a latched word is decoded and runs to the end of its command (R92, R222); an illegal word
ends with `IllegalCommand` (R95); a command already under way makes its next transition (R221); in `IDLE` nothing
happens; in `HALT` the run has ended in a fault (U8). -/
def coreStep (s : State) : Host.Outcome State Fault Refusal :=
  match s.seq.st with
  | .decode =>
    match decode s.cmdl with
    | .ok i => exec i s
    | .illegal _ => .next (s.raiseError .illegalCommand)
  | .halt => .fault .haltedAfterDivideByZero
  | _ => .next (coreTransition s)

/-- One step: the first event of the schedule, or the core when the schedule is empty (log 1). -/
def step (s : State) : Host.Outcome State Fault Refusal :=
  match s.schedule with
  | e :: rest => .next (State.serve { s with schedule := rest } e)
  | [] => coreStep s

/-- `s` with the low `nbits` bits of `w` accepted as a command and nothing scheduled, so that the very next step runs it
(log 12). -/
def State.withFetchWord (s : State) (nbits w : Nat) : State :=
  { s.accept (BitVec.ofNat 32 (w % 2 ^ nbits)) with schedule := [] }

end Sys2Proof.Machine
end

