-- ==== Sys2Proof/Machine/Run.lean ====
section
/-! DEFINITION. Runs of the block (R303): a host script (R98) played against the machine of `step`, with a record of what
every command of the script left. -/

namespace Sys2Proof.Machine

/-- A line of a host script (R98). -/
inductive Line where
  /-- `WR ha, d`. A write to `CMD` is a command that the script does not mean to succeed (log 17). -/
  | write (ha d : Word)
  /-- `RD ha`. -/
  | read (ha : Word)
  /-- A command, by its word, and whether the script means it to succeed (R303). -/
  | command (w : Word) (meant : Bool)
  /-- `WAIT`: read `STATUS` until `BUSY` reads 0. -/
  | wait
  /-- `RESET`. -/
  | reset
  /-- `RNG:`, the answers the entropy source gives to the following draws. -/
  | rng (answers : List Answer)
  deriving DecidableEq, Repr

/-- The intention behind a line that writes a word to `CMD`; none for the other lines. -/
def Line.intention : Line → Option Bool
  | .write ha _ => if ha = 0 then some false else none
  | .read _ => none
  | .command _ meant => some meant
  | .wait => none
  | .reset => none
  | .rng _ => none

/-- A point of a run. -/
structure Run where
  state : State
  /-- What the script has left to do. -/
  script : List Line
  /-- The intention behind the command in flight, while one is. -/
  flight : Option Bool
  /-- Every command of the script that is over, first one first: whether it was meant to succeed, and the `ECODE` it left;
  none when it left none, because it ended fatally (R246), was abandoned by a reset (R281), or was dropped (R37),
  log 17. -/
  left : List (Bool × Option ECode)
  deriving DecidableEq, Repr

/-- Who moves next in a run (R9). The order among the agents is open (R71), so any list of these is allowed. -/
inductive Mover where
  /-- The next line of the script. -/
  | host
  /-- The core, left to itself: a whole command when one has just been accepted (R222). -/
  | core
  /-- One transition of the core's finite-state machine (R221). -/
  | transition
  deriving DecidableEq, Repr

/-- A run at its start. -/
def Run.start (s : State) (script : List Line) : Run := { state := s, script := script, flight := none, left := [] }

/-- The state with these events to come. -/
def State.plan (s : State) (events : List Event) : State := { s with schedule := events }

/-- One step of the machine with these events to come; none when it faults. -/
def State.after (s : State) (events : List Event) : Option State :=
  match step (s.plan events) with
  | .next t => some t
  | .fault _ => none
  | .refused _ => none

/-- What a command that is over has left. -/
def State.verdict (s : State) : Option ECode := if s.fatal then none else some s.ecode

/-- The core has moved to `t`: when that ends the command in flight, what it left is recorded. -/
def Run.coreMoved (r : Run) (t : State) : Run :=
  match r.flight with
  | none => { r with state := t }
  | some meant =>
    if t.busy then { r with state := t }
    else { r with state := t, flight := none, left := r.left ++ [(meant, t.verdict)] }

/-- The host has written a word to `CMD`: it is in flight, or it was dropped (R37). -/
def Run.issued (r : Run) (meant : Bool) (rest : List Line) (t : State) : Run :=
  if r.state.writeRefused 0 then { r with state := t, script := rest, left := r.left ++ [(meant, none)] }
  else { r with state := t, script := rest, flight := some meant }

/-- The reset event has struck: a command in flight is abandoned and leaves no code (R281). -/
def Run.wasReset (r : Run) (rest : List Line) (t : State) : Run :=
  match r.flight with
  | none => { r with state := t, script := rest }
  | some meant => { r with state := t, script := rest, flight := none, left := r.left ++ [(meant, none)] }

/-- The host has made a transaction that is neither of these. -/
def Run.served (r : Run) (rest : List Line) (t : State) : Run := { r with state := t, script := rest }

/-- The next line of the script (R98). `WAIT` stays until its read of `STATUS` has bit 0 at 0. -/
def Run.hostMove (r : Run) : Option Run :=
  match r.script with
  | [] => none
  | .write ha d :: rest =>
    if ha = 0 then (r.state.after [.hostWrite 0 d]).map (r.issued false rest)
    else (r.state.after [.hostWrite ha d]).map (r.served rest)
  | .read ha :: rest => (r.state.after [.hostRead ha]).map (r.served rest)
  | .command w meant :: rest => (r.state.after [.hostWrite 0 w]).map (r.issued meant rest)
  | .wait :: rest =>
    (r.state.after [.hostRead 1]).map fun t => r.served (if t.rdata.getLsbD 0 then .wait :: rest else rest) t
  | .reset :: rest => (r.state.after [.reset]).map (r.wasReset rest)
  | .rng answers :: rest => some (r.served rest { r.state with entropy := r.state.entropy ++ answers })

/-- One move of a run; none when the mover has nothing it can do: the script is at its end, or the core is halted. -/
def Run.move (r : Run) : Mover → Option Run
  | .host => r.hostMove
  | .core => (r.state.after []).map r.coreMoved
  | .transition => (r.state.after [.coreMove]).map r.coreMoved

/-- The moves of a run, one after another. -/
def Run.play (r : Run) : List Mover → Option Run
  | [] => some r
  | m :: ms =>
    match r.move m with
    | none => none
    | some r' => r'.play ms

/-- The commands the host has written to `CMD` so far: those that are over, and the one in flight. -/
def Run.issuedCount (r : Run) : Nat := r.left.length + if r.flight.isSome then 1 else 0

/-- The mover is about to write a word to `CMD`. -/
def Run.issuesBy (r : Run) (m : Mover) : Bool := m == .host && (r.script.head?.bind Line.intention).isSome

end Sys2Proof.Machine
end

