-- ==== Sys2Proof/Safety.lean ====
section
/-! DEFINITION. What counts as a safe state and a good end of a run, the invariants of the machine, and the words the
claims use. -/

namespace Sys2Proof.Safety

open Sys2Proof.Machine

/-! ### Runs -/

/-- A reset state (R46): what the spec calls unspecified may be anything, and so may the parameters and the answers the
entropy source will give. `State.reset` is one. -/
def Starts (s : State) : Prop :=
  s.cfg.Legal ∧ s = { State.reset with cfg := s.cfg, xc := s.xc, coef := s.coef, py := s.py, cmdl := s.cmdl,
                                       entropy := s.entropy, rdata := s.rdata, epoch := s.epoch, residue := s.residue }

/-- `r` is a point of a run of the script: some reset state, and some order of the movers, lead there (R303). -/
def IsRun (script : List Line) (r : Run) : Prop :=
  ∃ s movers, Starts s ∧ (Run.start s script).play movers = some r

/-- A run is over: the last transaction of its script has been made and `BUSY = 0` (R303). -/
def Over (r : Run) : Prop := r.script = [] ∧ r.state.busy = false

/-- A state with `FATAL = 1` is a fault, not an end (R303). -/
def Faulted (r : Run) : Prop := r.state.fatal = true

/-- A run ended well: it is over with `FATAL = 0` and `HERR = 0`, and every command the script meant to succeed, not the
last one only, left `ECODE = 0` (R303). -/
def EndedWell (r : Run) : Prop :=
  Over r ∧ ¬Faulted r ∧ r.state.herr = false ∧ ∀ p ∈ r.left, p.1 = true → p.2 = some .ok

/-! ### Invariants -/

/-- How `ST`, `BUSY`, `FATAL` and `FCODE` hang together (R33, R44), and what the codes read while no command has
reported (R29, R32, R246). -/
structure StatusInv (s : State) : Prop where
  /-- `ST = IDLE` exactly when `BUSY = 0` and `FATAL = 0` (R44). -/
  idle_iff : s.seq.st = .idle ↔ s.busy = false ∧ s.fatal = false
  /-- `ST = HALT` exactly when `FATAL = 1` (R44). -/
  halt_iff : s.seq.st = .halt ↔ s.fatal = true
  /-- `FATAL` and `BUSY` exclude each other (R44). -/
  fatal_idle : s.fatal = true → s.busy = false
  /-- `FCODE` is 1 exactly when `FATAL = 1` (R33). -/
  fcode_iff : s.fcode = .divideByZero ↔ s.fatal = true
  /-- While a command runs and after a fatal end, `DONE = 0` and `ECODE = 0` (R29, R32, R246). -/
  unreported : s.busy = true ∨ s.fatal = true → s.done = false ∧ s.ecode = .ok

/-- An address of the buffers: one of `SHARE` or `SECRET` as R62 lays them out (R40, R41). -/
def Buffered (lmax a : Nat) : Prop :=
  (∃ j o, j < 256 ∧ o ≤ lmax ∧ a = shareAddr j o) ∨ (∃ o, o < lmax ∧ a = secretAddr o)

/-- The memory is in canonical form and lists buffer cells only (R70: the core never leaves the ranges of R40 and
R41; R62: the host's writes elsewhere are refused). -/
def MemoryInv (s : State) : Prop :=
  Memory.wf s.mem ∧ ∀ p ∈ s.mem, Buffered s.cfg.lmax p.1

/-- `XC[0..254]` holds each of 1 to 255 exactly once (R197, R198). -/
def PermutesNonzero (xc : Vector Byte Config.slotCount) : Prop :=
  (∀ i j, i < 255 → j < 255 → entry xc i = entry xc j → i = j) ∧ (∀ i, i < 255 → entry xc i ≠ 0)

/-- The first `m` coordinates are pairwise distinct (R170). -/
def DistinctXc (xc : Vector Byte Config.slotCount) (m : Nat) : Prop :=
  ∀ i j, i < m → j < m → entry xc i = entry xc j → i = j

/-- The arguments `SPLIT` accepts (R192). -/
def SplitArgs (n k : BitVec 12) (s : State) : Prop :=
  2 ≤ k.toNat ∧ k.toNat ≤ n.toNat ∧ n.toNat ≤ 255 ∧ 1 ≤ s.len.toNat ∧ s.len.toNat ≤ s.cfg.lmax

/-- The lengths `COMBINE` accepts (R211): at least 2 and at most 256 shares, each of at least 2 bytes, all equally
long. -/
def CombineLengths (m : BitVec 12) (s : State) : Prop :=
  2 ≤ m.toNat ∧ m.toNat ≤ 256 ∧ ∀ j, j < m.toNat → 2 ≤ (entry s.shlen j).toNat ∧ entry s.shlen j = entry s.shlen 0

/-- The trailing coordinate bytes of the first `m` shares are pairwise distinct (R211). -/
def CombineDistinct (m : BitVec 12) (s : State) : Prop :=
  ∀ a b, a < m.toNat → b < m.toNat → a ≠ b →
    s.share a ((entry s.shlen 0).toNat - 1) ≠ s.share b ((entry s.shlen 0).toNat - 1)

/-- The states of R220 that belong to a command, those between `DECODE` and `END` (R221). -/
def statesOf : Instr → List ST
  | .gfadd _ _ => [.field]
  | .gfmul _ _ => [.field]
  | .gfinv _ => [.field]
  | .gfdiv _ _ => [.field]
  | .pgen _ _ => [.gen]
  | .peval _ _ => [.eval]
  | .linterp _ _ => [.interp]
  | .split _ _ => [.spCheck, .spClear, .spShuffle, .spCoef, .spEval, .spTail]
  | .combine _ => [.cbCheck, .cbLoadX, .cbLoadY, .cbInterp, .cbLen]

/-- Between `DECODE` and `END` the latched word is legal, and the state is one of its command's (R221). -/
def WordInv (s : State) : Prop :=
  s.seq.st ∉ [ST.idle, .decode, .finish, .halt] → ∃ i, decode s.cmdl = .ok i ∧ s.seq.st ∈ statesOf i

/-- What holds while the machine is inside `SPLIT` (R190, R221). -/
structure SplitInv (s : State) : Prop where
  /-- Past `SP_CHECK` the checks of R192 are still passed. -/
  checked : s.seq.st ∈ [ST.spClear, .spShuffle, .spCoef, .spEval, .spTail] → SplitArgs s.opN s.opK s
  /-- Past `SP_CLEAR` no slot is marked (R196), and `XC[0..254]` is a permutation of 1 to 255 (R198). -/
  cleared : s.seq.st ∈ [ST.spShuffle, .spCoef, .spEval, .spTail] →
    PermutesNonzero s.xc ∧ ∀ j, j < 256 → entry s.shlen j = 0
  /-- The shuffle index and the count of rejected draws are in range (R198, R199). -/
  shuffling : s.seq.st = .spShuffle → 1 ≤ s.seq.t ∧ s.seq.t ≤ 254 ∧ s.seq.tries < s.cfg.rejLimit
  /-- The byte position is inside the secret (R200). -/
  position : s.seq.st ∈ [ST.spCoef, .spEval] → s.seq.i < s.len.toNat
  /-- The coefficient index is below the threshold (R150). -/
  coefficient : s.seq.st = .spCoef → s.seq.c < s.opK.toNat

/-- What holds while the machine is inside `COMBINE` (R210, R221). -/
structure CombineInv (s : State) : Prop where
  /-- Past `CB_CHECK` the checks of R211, all of them, are still passed. -/
  checked : s.seq.st ∈ [ST.cbLoadX, .cbLoadY, .cbInterp, .cbLen] →
    CombineLengths s.opN s ∧ (entry s.shlen 0).toNat ≤ s.cfg.lmax + 1 ∧ CombineDistinct s.opN s
  /-- Past `CB_LOADX` the coordinates are the trailing bytes of the shares (R214), pairwise distinct (R211, R218). -/
  loaded : s.seq.st ∈ [ST.cbLoadY, .cbInterp, .cbLen] →
    (∀ j, j < s.opN.toNat → entry s.xc j = s.share j s.combinedLen) ∧ DistinctXc s.xc s.opN.toNat
  /-- The byte position is inside the secret (R215). -/
  position : s.seq.st ∈ [ST.cbLoadY, .cbInterp] → s.seq.i < s.combinedLen
  /-- In `CB_INTERP` the points of the byte position are loaded (R215). -/
  points : s.seq.st = .cbInterp → ∀ j, j < s.opN.toNat → entry s.py j = s.share j s.seq.i

/-- The invariant of the machine: legal parameters, a coherent status, buffers that nobody writes outside, and `SPLIT` and
`COMBINE` on their way as their checks and earlier states left them. -/
structure Inv (s : State) : Prop where
  cfg : s.cfg.Legal
  status : StatusInv s
  memory : MemoryInv s
  word : WordInv s
  split : SplitInv s
  combine : CombineInv s

/-! ### How a command ends -/

/-- A meaning or step ends a command with code `e`, leaving `s'` otherwise: `ECODE <- e; DONE <- 1; BUSY <- 0;
ST <- IDLE` (R241, R242), and nothing else. The hidden counters are left open. -/
def EndsAs (r : Host.Outcome State Fault Refusal) (s' : State) (e : ECode) : Prop :=
  ∃ t, r = .next t ∧ t.seq.st = .idle ∧ t = { s' with ecode := e, done := true, busy := false, seq := t.seq }

/-- A meaning or step enters the fatal state, leaving `s'` otherwise: `FATAL <- 1; FCODE <- 1; BUSY <- 0; ST <- HALT`
(R246), and nothing else. -/
def HaltsFrom (r : Host.Outcome State Fault Refusal) (s' : State) : Prop :=
  ∃ t, r = .next t ∧ t.seq.st = .halt ∧ t = { s' with fatal := true, fcode := .divideByZero, busy := false, seq := t.seq }

/-- Left to itself with a latched word whose opcode byte is `op`, the core runs the command `i` makes of the word when
its `zero` fields and count are legal, and ends it with `IllegalCommand` and no other change when they are not (R92). -/
def WordRuns (op : Byte) (legal : Word → Prop) (i : Word → Instr) : Prop :=
  ∀ s : State, s.schedule = [] → s.seq.st = .decode → s.cmdl.extractLsb' 24 8 = op →
    (legal s.cmdl → step s = exec (i s.cmdl) s) ∧ (¬legal s.cmdl → EndsAs (step s) s .illegalCommand)

/-- The legality of a format V word: `w[11:8] = 0` and `cnt` from 1 to 256 (R91, R93). -/
def LegalV (w : Word) : Prop :=
  w.extractLsb' 8 4 = 0 ∧ 1 ≤ (w.extractLsb' 12 12).toNat ∧ (w.extractLsb' 12 12).toNat ≤ 256

/-! ### The opcode table -/

/-- A row of spec/opcode_table.json: a word matches when `w & mask = match` and, if the row has the count constraint,
`1 <= cnt <= 256` (R95). -/
structure Row where
  pattern : Word
  mask : Word
  counted : Bool
  deriving DecidableEq, Repr

/-- The nine rows, in the table's order. -/
def rows : List Row :=
  [⟨0x01000000, 0xFF0000FF, false⟩, ⟨0x02000000, 0xFF0000FF, false⟩, ⟨0x03000000, 0xFF00FFFF, false⟩,
   ⟨0x04000000, 0xFF0000FF, false⟩, ⟨0x10000000, 0xFF000F00, true⟩, ⟨0x11000000, 0xFF000F00, true⟩,
   ⟨0x12000000, 0xFF000F00, true⟩, ⟨0x20000000, 0xFF000000, false⟩, ⟨0x21000000, 0xFF000FFF, false⟩]

/-- A word matches a row (R95). -/
def Row.matchesWord (r : Row) (w : Word) : Bool :=
  (w &&& r.mask == r.pattern) &&
    (!r.counted || (decide (1 ≤ (w.extractLsb' 12 12).toNat) && decide ((w.extractLsb' 12 12).toNat ≤ 256)))

/-- The rows a word matches. -/
def matchingRows (w : Word) : List Row := rows.filter fun r => r.matchesWord w

/-- The row of a command. -/
def rowOf : Instr → Row
  | .gfadd _ _ => ⟨0x01000000, 0xFF0000FF, false⟩
  | .gfmul _ _ => ⟨0x02000000, 0xFF0000FF, false⟩
  | .gfinv _ => ⟨0x03000000, 0xFF00FFFF, false⟩
  | .gfdiv _ _ => ⟨0x04000000, 0xFF0000FF, false⟩
  | .pgen _ _ => ⟨0x10000000, 0xFF000F00, true⟩
  | .peval _ _ => ⟨0x11000000, 0xFF000F00, true⟩
  | .linterp _ _ => ⟨0x12000000, 0xFF000F00, true⟩
  | .split _ _ => ⟨0x20000000, 0xFF000000, false⟩
  | .combine _ => ⟨0x21000000, 0xFF000FFF, false⟩

/-! ### Words of the claims -/

/-- A bit vector read as a polynomial over GF(2): bit `i` is the coefficient of x^i (R121). -/
def ReadsAs {w : Nat} (v : BitVec w) (p : Polynomial (ZMod 2)) : Prop :=
  ∀ i, p.coeff i = if v.getLsbD i then 1 else 0

/-- `x` to the power `n` in the field of `poly`. -/
def fieldPow (poly : BitVec 9) (x : Byte) : Nat → Byte
  | 0 => 0x01
  | n + 1 => gfMul poly (fieldPow poly x n) x

/-- The sum `f 0 + f 1 + ... + f (n-1)` in the field. -/
def fieldSum (f : Nat → Byte) : Nat → Byte
  | 0 => 0x00
  | n + 1 => gfAdd (fieldSum f n) (f n)

/-- The product `f 0 * f 1 * ... * f (n-1)` in the field of `poly`. -/
def fieldProd (poly : BitVec 9) (f : Nat → Byte) : Nat → Byte
  | 0 => 0x01
  | n + 1 => gfMul poly (fieldProd poly f n) (f n)

/-- The value at `x` of the polynomial with the coefficients `c 0, ..., c (n-1)`: the sum of `c i * x^i` (R152). -/
def polyValue (poly : BitVec 9) (c : Nat → Byte) (n : Nat) (x : Byte) : Byte :=
  fieldSum (fun i => gfMul poly (c i) (fieldPow poly x i)) n

/-- The quotient of the interpolation formula; it is used for a divisor other than 0 only. -/
def quotient (poly : BitVec 9) (a b : Byte) : Byte := (gfDiv poly a b).getD 0

/-- The interpolation formula of R171: the sum over `i` of `y_i` times the product over `j ≠ i` of
`(x - x_j)/(x_i - x_j)`, for `m` points. -/
def lagrangeValue (poly : BitVec 9) (xs ys : Nat → Byte) (m : Nat) (x : Byte) : Byte :=
  fieldSum (fun i => gfMul poly (ys i) (fieldProd poly
    (fun j => if j = i then 0x01 else quotient poly (gfAdd x (xs j)) (gfAdd (xs i) (xs j))) m)) m

/-- Two entries exchanged. -/
def swapped (f : Nat → Byte) (t r : Nat) : Nat → Byte :=
  fun j => if j = t then f r else if j = r then f t else f j

/-- The permutation that the shuffle of R198 makes of the identity arrangement when the accepted bytes are `bytes`, for
`t` from 254 down. -/
def shuffled (bytes : List Byte) : Nat → Byte :=
  (bytes.zipIdx).foldl (fun f p => swapped f (254 - p.2) (drawnIndex (254 - p.2) p.1)) fun j => BitVec.ofNat 8 (j + 1)

/-- Draws that each give an index, for `t` from 254 down: the bytes rejected at that `t`, fewer than `limit`, and then the
accepted one (R199). -/
def IndexDraws (limit : Nat) (draws : List (List Byte × Byte)) : Prop :=
  ∀ q, q < draws.length → (draws.getD q ([], 0)).1.length < limit ∧
    (∀ b ∈ (draws.getD q ([], 0)).1, 254 - q < drawnIndex (254 - q) b) ∧
    drawnIndex (254 - q) (draws.getD q ([], 0)).2 ≤ 254 - q

/-- The bytes of such draws, in the order they are drawn. -/
def indexBytes (draws : List (List Byte × Byte)) : List Byte := draws.flatMap fun d => d.1 ++ [d.2]

/-- The bytes among them that were accepted. -/
def acceptedBytes (draws : List (List Byte × Byte)) : List Byte := draws.map fun d => d.2

/-- `n` transitions of the core's finite-state machine (R221). -/
def transitions : Nat → State → State
  | 0, s => s
  | n + 1, s => transitions n (coreTransition s)

/-- The machine of R220 and R221 ends where the one step of the command ends, with the same answers consumed (R222):
from the state after acceptance, some number of transitions reaches the state the command's meaning answers, once the
command does not wait for an answer. -/
def MachineAgrees (i : Instr) : Prop :=
  ∀ s t : State, s.cfg.Legal → s.busy = true → s.seq = Seq.start .decode → decode s.cmdl = .ok i →
    exec i s = .next t → t.busy = false → ∃ count, transitions count s = t

/-- The values R46 gives the state after reset (what it calls unspecified is left out). -/
def AfterReset (s : State) : Prop :=
  s.statusWord = 0x00000000 ∧ s.ctrlWord = 0x00000000 ∧ s.capWord.extractLsb' 0 16 = BitVec.ofNat 16 s.cfg.lmax ∧
  s.capWord.extractLsb' 16 8 = 0x01 ∧ s.capWord.extractLsb' 24 8 = 0x00 ∧ s.result = 0x00 ∧ s.len = 0x0000 ∧
  (∀ j, j < 256 → entry s.shlen j = 0x0000) ∧ s.seq.st = .idle ∧ s.irq = false

/-- At `END` with one of the given codes (R221). -/
def AtFinish (t : State) (codes : List ECode) : Prop := t.seq.st = .finish ∧ t.seq.e ∈ codes

/-- The table of R221: `t` follows `s` by a transition of the core. Where the core waits for an answer, or one visit is
part of the work of a state, it may stay in its state. -/
def FollowsTable (s t : State) : Prop :=
  match s.seq.st with
  | .idle => t = s
  | .decode =>
    AtFinish t [.illegalCommand] ∧ (∃ why, decode s.cmdl = .illegal why) ∨
    t.seq.st = .field ∧ s.op ∈ [0x01#8, 0x02, 0x03, 0x04] ∨ t.seq.st = .gen ∧ s.op = 0x10 ∨
    t.seq.st = .eval ∧ s.op = 0x11 ∨ t.seq.st = .interp ∧ s.op = 0x12 ∨
    t.seq.st = .spCheck ∧ s.op = 0x20 ∨ t.seq.st = .cbCheck ∧ s.op = 0x21
  | .field => AtFinish t [.ok] ∨ t.seq.st = .halt
  | .gen => t.seq.st = .gen ∨ AtFinish t [.ok, .randomnessFailure]
  | .eval => AtFinish t [.ok]
  | .interp => AtFinish t [.ok] ∨ t.seq.st = .halt
  | .spCheck => t.seq.st = .spClear ∨ AtFinish t [.invalidThreshold, .invalidCount, .emptySecret, .invalidLength]
  | .spClear => t.seq.st = .spShuffle ∧ t.seq.t = 254
  | .spShuffle =>
    t.seq.st = .spShuffle ∧ (t.seq.t = s.seq.t ∨ 1 < s.seq.t ∧ t.seq.t = s.seq.t - 1) ∨
    s.seq.t = 1 ∧ t.seq.st = .spCoef ∧ t.seq.i = 0 ∨ AtFinish t [.randomnessFailure]
  | .spCoef =>
    (t.seq.st = .spCoef ∨ t.seq.st = .spEval) ∧ t.seq.i = s.seq.i ∨ AtFinish t [.randomnessFailure]
  | .spEval =>
    s.seq.i + 1 < s.len.toNat ∧ t.seq.st = .spCoef ∧ t.seq.i = s.seq.i + 1 ∨
    s.seq.i + 1 = s.len.toNat ∧ t.seq.st = .spTail
  | .spTail => AtFinish t [.ok]
  | .cbCheck => t.seq.st = .cbLoadX ∨ AtFinish t [.invalidShares, .invalidLength]
  | .cbLoadX => t.seq.st = .cbLoadY ∧ t.seq.i = 0
  | .cbLoadY => t.seq.st = .cbInterp ∧ t.seq.i = s.seq.i
  | .cbInterp =>
    s.seq.i + 1 < s.combinedLen ∧ t.seq.st = .cbLoadY ∧ t.seq.i = s.seq.i + 1 ∨
    s.seq.i + 1 = s.combinedLen ∧ t.seq.st = .cbLen
  | .cbLen => AtFinish t [.ok]
  | .finish => t.seq.st = .idle ∧ t.ecode = s.seq.e
  | .halt => t = s

/-- What holds at every point of a run: the invariant of the machine, nothing left to serve, and a command is in flight
exactly while `BUSY = 1`. -/
def RunInv (r : Run) : Prop :=
  Inv r.state ∧ r.state.schedule = [] ∧ r.flight.isSome = r.state.busy

/-- Two states a host cannot tell apart while the guard is closed: the same always-readable locations and the same
last data word, whatever the guarded locations hold (R64). -/
def SameOutside (s t : State) : Prop :=
  s.cfg = t.cfg ∧ s.busy = t.busy ∧ s.done = t.done ∧ s.fatal = t.fatal ∧ s.herr = t.herr ∧
  s.ecode = t.ecode ∧ s.fcode = t.fcode ∧ s.ie = t.ie ∧ s.rdata = t.rdata

/-- A host transaction. -/
def IsHostAccess (e : Event) : Prop := (∃ ha, e = .hostRead ha) ∨ (∃ ha d, e = .hostWrite ha d)

end Sys2Proof.Safety
end

