-- ==== Sys2Proof/Certificates/Slice0/Obligations.lean ====
section
/-! DEFINITION. The statements for the provers. Each says which rule of the spec it formalises. -/

open Sys2Proof Sys2Proof.Machine Sys2Proof.Safety

/-! ## Decoding and encoding -/

/-- When the core is left to itself with a latched word that decodes to `i`, the step is `exec i` of that state and
nothing more (R92, R222; that the core moves when nothing is scheduled is the model's choice, log 1), and
`withFetchWord` makes such a state (log 12). -/
def Obligations.StepRunsTheLatchedCommand : Prop :=
  (∀ (s : State) (i : Instr), s.schedule = [] → s.seq.st = .decode → decode s.cmdl = .ok i → step s = exec i s) ∧
  (∀ (s : State) (nbits w : Nat), (s.withFetchWord nbits w).schedule = [] ∧ (s.withFetchWord nbits w).seq.st = .decode ∧
    (s.withFetchWord nbits w).cmdl = BitVec.ofNat 32 (w % 2 ^ nbits))

/-- R95: every word either matches exactly one row of the opcode table, its command's, or is illegal; and a host that
writes an illegal word to `CMD` sees `BUSY` rise, then the recoverable error `IllegalCommand` with no data state changed. -/
def Obligations.EveryWordMatchesOneRowOrIsIllegal : Prop :=
  (∀ w : Word, (∃ i, decode w = .ok i ∧ matchingRows w = [rowOf i]) ∨
    ((∃ why, decode w = .illegal why) ∧ matchingRows w = [])) ∧
  (∀ (s : State) (w : Word) (why : IllegalWord), s.busy = false → s.fatal = false → s.schedule = [.hostWrite 0 w] →
    decode w = .illegal why →
    ∃ t, step s = .next t ∧ t.busy = true ∧ EndsAs (step t) { s with schedule := [], cmdl := w } .illegalCommand)

/-- The example words of 30_encoding.md section 5 and 95_test_vectors.md V-E decode to the commands they are written for. -/
def Obligations.ExampleWordsDecode : Prop :=
  decode 0x01578300 = .ok (.gfadd 0x57 0x83) ∧ decode 0x02578300 = .ok (.gfmul 0x57 0x83) ∧
  decode 0x03530000 = .ok (.gfinv 0x53) ∧ decode 0x04C18300 = .ok (.gfdiv 0xC1 0x83) ∧
  decode 0x10003065 = .ok (.pgen 3 0x65) ∧ decode 0x11003002 = .ok (.peval 3 0x02) ∧
  decode 0x12100000 = .ok (.linterp 256 0x00) ∧ decode 0x2012C003 = .ok (.split 300 3) ∧
  decode 0x21003000 = .ok (.combine 3) ∧ decode 0x11101002 = .illegal (.countOutOfRange 257) ∧
  decode 0x03530100 = .illegal .nonzeroZeroField ∧ decode 0x05000000 = .illegal (.reservedOpcode 0x05)

/-- Decoding an encoded well-formed command gives it back, for every command and every operand value. -/
def Obligations.DecodeOfEncodeIsTheCommand : Prop :=
  ∀ i : Instr, i.wf = true → decode (encode i) = .ok i

/-- A word that decodes has one meaning: the command is well-formed, and its encoding is the word. -/
def Obligations.EncodeOfDecodeIsTheWord : Prop :=
  ∀ (w : Word) (i : Instr), decode w = .ok i → i.wf = true ∧ encode i = w

/-! ## The field units -/

/-- R120: `add` is the bitwise exclusive or, self-inverse, with identity 0x00. -/
def Obligations.AdditionIsExclusiveOr : Prop :=
  ∀ a b : Byte, gfAdd a b = a ^^^ b ∧ gfAdd a a = 0x00 ∧ gfAdd a 0x00 = a

/-- R121: read as polynomials over GF(2), `mul(a, b)` is the remainder of the product of `a` and `b` modulo `POLY`, for
every modulus with bit 8 set. -/
def Obligations.MultiplicationIsTheProductModuloPoly : Prop :=
  ∀ (poly : BitVec 9) (a b : Byte) (pm pa pb : Polynomial (ZMod 2)), poly.getLsbD 8 = true →
    ReadsAs poly pm → ReadsAs a pa → ReadsAs b pb → ReadsAs (gfMul poly a b) ((pa * pb) %ₘ pm)

/-- R122's list of legal moduli is that of the irreducible polynomials of degree 8. -/
def Obligations.LegalModuliAreTheIrreducibles : Prop :=
  ∀ (poly : BitVec 9) (p : Polynomial (ZMod 2)), poly.getLsbD 8 = true → ReadsAs poly p →
    (poly ∈ Config.legalPolys ↔ Irreducible p)

/-- R125: the laws of `add` and `mul`, and that every nonzero element has exactly one inverse, for every legal modulus. -/
def Obligations.FieldLaws : Prop :=
  ∀ poly ∈ Config.legalPolys, ∀ a b c : Byte,
    gfMul poly a b = gfMul poly b a ∧ gfMul poly (gfMul poly a b) c = gfMul poly a (gfMul poly b c) ∧
    gfMul poly a (gfAdd b c) = gfAdd (gfMul poly a b) (gfMul poly a c) ∧
    gfMul poly a 0x00 = 0x00 ∧ gfMul poly a 0x01 = a ∧ gfAdd a a = 0x00 ∧ gfAdd a 0x00 = a ∧
    (a ≠ 0x00 → ∃! d : Byte, gfMul poly a d = 0x01)

/-- R126: the inverse unit gives the unique inverse of a nonzero element and no result for zero, for every legal
modulus. -/
def Obligations.InverseUnit : Prop :=
  ∀ poly ∈ Config.legalPolys, gfInv poly 0x00 = none ∧
    ∀ a : Byte, a ≠ 0x00 → ∃ b, gfInv poly a = some b ∧ gfMul poly a b = 0x01 ∧ ∀ c, gfMul poly a c = 0x01 → c = b

/-- R127: the inverse table for `POLY = 0x11B`, row by row. -/
def Obligations.InverseTable : Prop :=
  gfInv 0x11B 0x00 = none ∧
  (List.range 255).map (fun a => gfInv 0x11B (BitVec.ofNat 8 (a + 1))) = List.map some
    ([0x01, 0x8D, 0xF6, 0xCB, 0x52, 0x7B, 0xD1, 0xE8, 0x4F, 0x29, 0xC0, 0xB0, 0xE1, 0xE5, 0xC7] ++
     [0x74, 0xB4, 0xAA, 0x4B, 0x99, 0x2B, 0x60, 0x5F, 0x58, 0x3F, 0xFD, 0xCC, 0xFF, 0x40, 0xEE, 0xB2] ++
     [0x3A, 0x6E, 0x5A, 0xF1, 0x55, 0x4D, 0xA8, 0xC9, 0xC1, 0x0A, 0x98, 0x15, 0x30, 0x44, 0xA2, 0xC2] ++
     [0x2C, 0x45, 0x92, 0x6C, 0xF3, 0x39, 0x66, 0x42, 0xF2, 0x35, 0x20, 0x6F, 0x77, 0xBB, 0x59, 0x19] ++
     [0x1D, 0xFE, 0x37, 0x67, 0x2D, 0x31, 0xF5, 0x69, 0xA7, 0x64, 0xAB, 0x13, 0x54, 0x25, 0xE9, 0x09] ++
     [0xED, 0x5C, 0x05, 0xCA, 0x4C, 0x24, 0x87, 0xBF, 0x18, 0x3E, 0x22, 0xF0, 0x51, 0xEC, 0x61, 0x17] ++
     [0x16, 0x5E, 0xAF, 0xD3, 0x49, 0xA6, 0x36, 0x43, 0xF4, 0x47, 0x91, 0xDF, 0x33, 0x93, 0x21, 0x3B] ++
     [0x79, 0xB7, 0x97, 0x85, 0x10, 0xB5, 0xBA, 0x3C, 0xB6, 0x70, 0xD0, 0x06, 0xA1, 0xFA, 0x81, 0x82] ++
     [0x83, 0x7E, 0x7F, 0x80, 0x96, 0x73, 0xBE, 0x56, 0x9B, 0x9E, 0x95, 0xD9, 0xF7, 0x02, 0xB9, 0xA4] ++
     [0xDE, 0x6A, 0x32, 0x6D, 0xD8, 0x8A, 0x84, 0x72, 0x2A, 0x14, 0x9F, 0x88, 0xF9, 0xDC, 0x89, 0x9A] ++
     [0xFB, 0x7C, 0x2E, 0xC3, 0x8F, 0xB8, 0x65, 0x48, 0x26, 0xC8, 0x12, 0x4A, 0xCE, 0xE7, 0xD2, 0x62] ++
     [0x0C, 0xE0, 0x1F, 0xEF, 0x11, 0x75, 0x78, 0x71, 0xA5, 0x8E, 0x76, 0x3D, 0xBD, 0xBC, 0x86, 0x57] ++
     [0x0B, 0x28, 0x2F, 0xA3, 0xDA, 0xD4, 0xE4, 0x0F, 0xA9, 0x27, 0x53, 0x04, 0x1B, 0xFC, 0xAC, 0xE6] ++
     [0x7A, 0x07, 0xAE, 0x63, 0xC5, 0xDB, 0xE2, 0xEA, 0x94, 0x8B, 0xC4, 0xD5, 0x9D, 0xF8, 0x90, 0x6B] ++
     [0xB1, 0x0D, 0xD6, 0xEB, 0xC6, 0x0E, 0xCF, 0xAD, 0x08, 0x4E, 0xD7, 0xE3, 0x5D, 0x50, 0x1E, 0xB3] ++
     [0x5B, 0x23, 0x38, 0x34, 0x68, 0x46, 0x03, 0x8C, 0xDD, 0x9C, 0x7D, 0xA0, 0xCD, 0x1A, 0x41, 0x1C])

/-- R129: `div(a, b)` is `a * inverse(b)`, undone by multiplication with `b`; `div(0, b) = 0`, `div(a, a) = 1`; for
`b = 0` there is no result, whatever `a` is. For every legal modulus. -/
def Obligations.DivisionLaws : Prop :=
  ∀ poly ∈ Config.legalPolys, ∀ a b : Byte,
    gfDiv poly a 0x00 = none ∧
    (b ≠ 0x00 → (∃ r, gfInv poly b = some r ∧ gfDiv poly a b = some (gfMul poly a r)) ∧
      (∃ q, gfDiv poly a b = some q ∧ gfMul poly q b = a) ∧ gfDiv poly 0x00 b = some 0x00 ∧
      gfDiv poly b b = some 0x01)

/-- R130: `GFADD` ends successfully with `RESULT` the exclusive or of its operands and nothing else changed; a nonzero
`zero` field is `IllegalCommand`. -/
def Obligations.GfaddCommand : Prop :=
  (∀ (a b : Byte) (s : State), EndsAs (exec (.gfadd a b) s) { s with result := a ^^^ b } .ok) ∧
  WordRuns 0x01 (fun w => w.extractLsb' 0 8 = 0) (fun w => .gfadd (w.extractLsb' 16 8) (w.extractLsb' 8 8))

/-- R131: `GFMUL` ends successfully with `RESULT` the field product and nothing else changed; a nonzero `zero` field is
`IllegalCommand`. -/
def Obligations.GfmulCommand : Prop :=
  (∀ (a b : Byte) (s : State), EndsAs (exec (.gfmul a b) s) { s with result := gfMul s.cfg.poly a b } .ok) ∧
  WordRuns 0x02 (fun w => w.extractLsb' 0 8 = 0) (fun w => .gfmul (w.extractLsb' 16 8) (w.extractLsb' 8 8))

/-- R132: `GFINV a` ends successfully with `RESULT` the inverse of `a` and nothing else changed when `a` is nonzero; for
`a = 0` it is fatal with `RESULT` unchanged; a nonzero `zero` field is `IllegalCommand`. -/
def Obligations.GfinvCommand : Prop :=
  (∀ (a : Byte) (s : State), s.cfg.Legal → a ≠ 0x00 →
    ∃ b, gfMul s.cfg.poly a b = 0x01 ∧ EndsAs (exec (.gfinv a) s) { s with result := b } .ok) ∧
  (∀ s : State, HaltsFrom (exec (.gfinv 0x00) s) s) ∧
  WordRuns 0x03 (fun w => w.extractLsb' 0 16 = 0) (fun w => .gfinv (w.extractLsb' 16 8))

/-- R133: `GFDIV a, b` ends successfully with `RESULT` the quotient (which times `b` is `a`) and nothing else changed when
`b` is nonzero; for `b = 0` it is fatal for every `a`; a nonzero `zero` field is `IllegalCommand`. -/
def Obligations.GfdivCommand : Prop :=
  (∀ (a b : Byte) (s : State), s.cfg.Legal → b ≠ 0x00 →
    ∃ q, gfMul s.cfg.poly q b = a ∧ EndsAs (exec (.gfdiv a b) s) { s with result := q } .ok) ∧
  (∀ (a : Byte) (s : State), HaltsFrom (exec (.gfdiv a 0x00) s) s) ∧
  WordRuns 0x04 (fun w => w.extractLsb' 0 8 = 0) (fun w => .gfdiv (w.extractLsb' 16 8) (w.extractLsb' 8 8))

/-! ## Polynomials -/

/-- R150, R151, R155: `PGEN` writes `COEF[0]` from `c0` and `COEF[1..cnt-1]` from its `cnt - 1` draws in order, touches no
other entry and nothing else, and ends successfully; when a draw fails the entries written so far stay, no further draw is
made, and the command ends with `RandomnessFailure`; an illegal word is `IllegalCommand`. -/
def Obligations.PgenCommand : Prop :=
  (∀ (cnt : BitVec 12) (c0 : Byte) (s : State) (bytes : List Byte) (rest : List Answer),
    1 ≤ cnt.toNat → cnt.toNat ≤ 256 → bytes.length = cnt.toNat - 1 → s.entropy = bytes.map .ok ++ rest →
    ∃ v : Vector Byte 256, EndsAs (exec (.pgen cnt c0) s) { s with coef := v, entropy := rest } .ok ∧
      ∀ c, entry v c = if c = 0 then c0 else if c < cnt.toNat then bytes.getD (c - 1) 0 else entry s.coef c) ∧
  (∀ (cnt : BitVec 12) (c0 : Byte) (s : State) (bytes : List Byte) (rest : List Answer),
    cnt.toNat ≤ 256 → bytes.length < cnt.toNat - 1 → s.entropy = bytes.map .ok ++ .fail :: rest →
    ∃ v : Vector Byte 256, EndsAs (exec (.pgen cnt c0) s) { s with coef := v, entropy := rest } .randomnessFailure ∧
      ∀ c, entry v c = if c = 0 then c0 else if c ≤ bytes.length then bytes.getD (c - 1) 0 else entry s.coef c) ∧
  WordRuns 0x10 LegalV (fun w => .pgen (w.extractLsb' 12 12) (w.extractLsb' 0 8))

/-- R66, R301: while a draw of `PGEN` or the first draw of `SPLIT` is unanswered, the block waits with `BUSY = 1`; the model
says so by answering the same state (the model's choice, log 8). -/
def Obligations.UnansweredDrawWaits : Prop :=
  (∀ (cnt : BitVec 12) (c0 : Byte) (s : State) (bytes : List Byte),
    cnt.toNat ≤ 256 → bytes.length < cnt.toNat - 1 → s.entropy = bytes.map .ok → exec (.pgen cnt c0) s = .next s) ∧
  (∀ (n k : BitVec 12) (s : State), s.cfg.Legal → SplitArgs n k s → s.entropy = [] → exec (.split n k) s = .next s)

/-- R156: `PEVAL` ends successfully with `RESULT` the value at `x` of the polynomial in `COEF[0..cnt-1]` and nothing else
changed; an illegal word is `IllegalCommand`. -/
def Obligations.PevalCommand : Prop :=
  (∀ (cnt : BitVec 12) (x : Byte) (s : State), s.cfg.Legal → 1 ≤ cnt.toNat → cnt.toNat ≤ 256 →
    EndsAs (exec (.peval cnt x) s) { s with result := polyValue s.cfg.poly (entry s.coef) cnt.toNat x } .ok) ∧
  WordRuns 0x11 LegalV (fun w => .peval (w.extractLsb' 12 12) (w.extractLsb' 0 8))

/-- R153: at `x = 0` the value is the intercept `COEF[0]`, whatever the other coefficients and the modulus are. -/
def Obligations.EvaluationAtTheOrigin : Prop :=
  ∀ (cnt : BitVec 12) (s : State), 1 ≤ cnt.toNat → cnt.toNat ≤ 256 →
    EndsAs (exec (.peval cnt 0x00) s) { s with result := entry s.coef 0 } .ok

/-! ## Interpolation -/

/-- R171, R173, R175: `LINTERP` on distinct coordinates ends successfully with `RESULT` the value of the Lagrange formula
and nothing else changed; on two equal coordinates below `cnt`, and only then, it is fatal with `RESULT` unchanged,
whatever `x` and `PY` are; an illegal word is `IllegalCommand`. -/
def Obligations.LinterpCommand : Prop :=
  (∀ (cnt : BitVec 12) (x : Byte) (s : State), 1 ≤ cnt.toNat → cnt.toNat ≤ 256 → DistinctXc s.xc cnt.toNat →
    EndsAs (exec (.linterp cnt x) s)
      { s with result := lagrangeValue s.cfg.poly (entry s.xc) (entry s.py) cnt.toNat x } .ok) ∧
  (∀ (cnt : BitVec 12) (x : Byte) (s : State), 1 ≤ cnt.toNat → cnt.toNat ≤ 256 → ¬DistinctXc s.xc cnt.toNat →
    HaltsFrom (exec (.linterp cnt x) s) s) ∧
  WordRuns 0x12 LegalV (fun w => .linterp (w.extractLsb' 12 12) (w.extractLsb' 0 8))

/-- R174, R175: at a coordinate `XC[i]`, zero or not, the interpolated value is `PY[i]`. -/
def Obligations.InterpolationAtANode : Prop :=
  ∀ (cnt : BitVec 12) (i : Nat) (s : State), s.cfg.Legal → 1 ≤ cnt.toNat → cnt.toNat ≤ 256 → DistinctXc s.xc cnt.toNat →
    i < cnt.toNat → EndsAs (exec (.linterp cnt (entry s.xc i)) s) { s with result := entry s.py i } .ok

/-- R176: when the `m` points, at distinct coordinates, are values of the polynomial of `p <= m` coefficients in `COEF`,
interpolation gives that polynomial's value at every `x`: `LINTERP m, x` and `PEVAL p, x` leave the same `RESULT`. -/
def Obligations.InterpolationInvertsEvaluation : Prop :=
  ∀ (m p : BitVec 12) (s : State), s.cfg.Legal → 1 ≤ p.toNat → p.toNat ≤ m.toNat → m.toNat ≤ 256 →
    DistinctXc s.xc m.toNat → (∀ i, i < m.toNat → entry s.py i = s.horner p.toNat (entry s.xc i)) →
    ∀ x : Byte, EndsAs (exec (.linterp m x) s) { s with result := s.horner p.toNat x } .ok ∧
      EndsAs (exec (.peval p x) s) { s with result := s.horner p.toNat x } .ok

/-! ## SPLIT -/

/-- R192, R193: the checks of `SPLIT`, threshold, then count, then empty secret, then length; the first that fails decides
the error, and nothing but `STATUS` has changed. -/
def Obligations.SplitValidation : Prop :=
  ∀ (n k : BitVec 12) (s : State),
    (k.toNat < 2 ∨ 255 < k.toNat → EndsAs (exec (.split n k) s) s .invalidThreshold) ∧
    (2 ≤ k.toNat → k.toNat ≤ 255 → n.toNat < k.toNat ∨ 255 < n.toNat → EndsAs (exec (.split n k) s) s .invalidCount) ∧
    (2 ≤ k.toNat → k.toNat ≤ n.toNat → n.toNat ≤ 255 → s.len.toNat = 0 →
      EndsAs (exec (.split n k) s) s .emptySecret) ∧
    (2 ≤ k.toNat → k.toNat ≤ n.toNat → n.toNat ≤ 255 → s.len.toNat ≠ 0 → s.cfg.lmax < s.len.toNat →
      EndsAs (exec (.split n k) s) s .invalidLength)

/-- R190, R199, R204: a `SPLIT` with legal arguments whose answers give an index for every `t` from 254 down, each after
fewer than `REJ_LIMIT` rejected bytes, and then `LEN * (k - 1)` coefficient bytes, consumes exactly those, in that order, and
ends successfully with the shuffled coordinates, the shares of the secret, their lengths, and the last polynomial in `COEF`;
everything else is as it was. -/
def Obligations.SplitRun : Prop :=
  ∀ (n k : BitVec 12) (s : State) (draws : List (List Byte × Byte)) (co : List Byte) (rest : List Answer),
    s.cfg.Legal → Memory.wf s.mem → SplitArgs n k s → draws.length = 254 → IndexDraws s.cfg.rejLimit draws →
    co.length = s.len.toNat * (k.toNat - 1) →
    s.entropy = (indexBytes draws).map .ok ++ co.map .ok ++ rest →
    ∃ t, EndsAs (exec (.split n k) s)
        { s with entropy := rest, xc := t.xc, coef := t.coef, shlen := t.shlen, mem := t.mem } .ok ∧
      exec (.split n k) s = .next t ∧
      (∀ j, j < 255 → entry t.xc j = shuffled (acceptedBytes draws) j) ∧ entry t.xc 255 = entry s.xc 255 ∧
      (∀ c, entry t.coef c =
        if c = 0 then s.secret (s.len.toNat - 1)
        else if c < k.toNat then co.getD ((s.len.toNat - 1) * (k.toNat - 1) + (c - 1)) 0 else entry s.coef c) ∧
      (∀ j, j < 256 → entry t.shlen j = if j < n.toNat then s.len + 1 else 0) ∧
      (∀ j, j < n.toNat → t.share j s.len.toNat = shuffled (acceptedBytes draws) j) ∧
      (∀ j i, j < n.toNat → i < s.len.toNat → t.share j i = polyValue s.cfg.poly
        (fun c => if c = 0 then s.secret i else co.getD (i * (k.toNat - 1) + (c - 1)) 0) k.toNat
        (shuffled (acceptedBytes draws) j)) ∧
      (∀ a, (∀ j o, j < n.toNat → o ≤ s.len.toNat → a ≠ shareAddr j o) → t.memRead a = s.memRead a)

/-- R206: what every successful `SPLIT` guarantees, whatever the entropy source answered: `n` shares of length `LEN + 1`
with distinct nonzero trailing coordinates, whose bytes at each position are the values at those coordinates of one
polynomial of `k` coefficients with the secret byte as intercept; `LEN` and `SECRET` unchanged. -/
def Obligations.SplitGuarantee : Prop :=
  ∀ (n k : BitVec 12) (s t : State), s.cfg.Legal → Memory.wf s.mem → s.busy = true →
    exec (.split n k) s = .next t → t.busy = false → t.ecode = .ok →
    (∀ j, j < 256 → entry t.shlen j = if j < n.toNat then s.len + 1 else 0) ∧
    (∀ j, j < n.toNat → t.share j s.len.toNat = entry t.xc j) ∧
    PermutesNonzero t.xc ∧
    (∀ a b, a < n.toNat → b < n.toNat → a ≠ b → t.share a s.len.toNat ≠ t.share b s.len.toNat) ∧
    (∀ i, i < s.len.toNat → ∃ c : Nat → Byte, c 0 = s.secret i ∧
      ∀ j, j < n.toNat → t.share j i = polyValue s.cfg.poly c k.toNat (entry t.xc j)) ∧
    t.len = s.len ∧ (∀ o, t.secret o = s.secret o)

/-- R190: what `SPLIT` leaves alone, however it ends: all but `STATUS`, `SHLEN`, `XC[0..254]`, `COEF[0..k-1]`, the share
cells `SHARE[j][0..LEN]` with `j` below `n`, and the answers it drew. -/
def Obligations.SplitFrame : Prop :=
  ∀ (n k : BitVec 12) (s t : State), s.cfg.Legal → Memory.wf s.mem → exec (.split n k) s = .next t →
    t = { s with busy := t.busy, done := t.done, ecode := t.ecode, seq := t.seq, entropy := t.entropy,
                 shlen := t.shlen, xc := t.xc, coef := t.coef, mem := t.mem } ∧
    entry t.xc 255 = entry s.xc 255 ∧ (∀ c, k.toNat ≤ c → entry t.coef c = entry s.coef c) ∧
    (∀ a, (∀ j o, j < n.toNat → o ≤ s.len.toNat → a ≠ shareAddr j o) → t.memRead a = s.memRead a)

/-- R205: after a `SPLIT` that ends with `RandomnessFailure`, whatever was drawn, every `SHLEN` is 0 and `XC[0..254]` is
some permutation of 1 to 255. And its two ways to fail leave exactly what was written up to the failing draw:
when a draw of the shuffle fails, or `REJ_LIMIT` are rejected in a row, the exchanges made so far and nothing else; when a
coefficient draw fails, the whole shuffle, the coefficients drawn so far over those of the polynomial before (R151), and the
evaluations of the byte positions completed. -/
def Obligations.FailedSplitReturnsNoShare : Prop :=
  (∀ (n k : BitVec 12) (s t : State), s.cfg.Legal → s.busy = true → exec (.split n k) s = .next t →
    t.busy = false → t.ecode = .randomnessFailure →
    t.done = true ∧ (∀ j, j < 256 → entry t.shlen j = 0) ∧ PermutesNonzero t.xc) ∧
  (∀ (n k : BitVec 12) (s : State) (draws : List (List Byte × Byte)) (rejected : List Byte) (rest : List Answer),
    s.cfg.Legal → SplitArgs n k s → draws.length < 254 → IndexDraws s.cfg.rejLimit draws →
    (∀ b ∈ rejected, 254 - draws.length < drawnIndex (254 - draws.length) b) →
    (rejected.length < s.cfg.rejLimit ∧
        s.entropy = (indexBytes draws).map .ok ++ rejected.map .ok ++ .fail :: rest) ∨
      (rejected.length = s.cfg.rejLimit ∧ s.entropy = (indexBytes draws).map .ok ++ rejected.map .ok ++ rest) →
    ∃ (v : Vector Byte 256) (z : Vector (BitVec 16) 256),
      EndsAs (exec (.split n k) s) { s with entropy := rest, xc := v, shlen := z } .randomnessFailure ∧
      (∀ j, j < 256 → entry z j = 0) ∧
      (∀ j, j < 255 → entry v j = shuffled (acceptedBytes draws) j) ∧ entry v 255 = entry s.xc 255) ∧
  (∀ (n k : BitVec 12) (s : State) (draws : List (List Byte × Byte)) (co : List Byte) (rest : List Answer),
    s.cfg.Legal → Memory.wf s.mem → SplitArgs n k s → draws.length = 254 → IndexDraws s.cfg.rejLimit draws →
    co.length < s.len.toNat * (k.toNat - 1) →
    s.entropy = (indexBytes draws).map .ok ++ co.map .ok ++ .fail :: rest →
    let p := co.length / (k.toNat - 1)
    let q := co.length % (k.toNat - 1)
    ∃ t, EndsAs (exec (.split n k) s)
        { s with entropy := rest, xc := t.xc, coef := t.coef, shlen := t.shlen, mem := t.mem } .randomnessFailure ∧
      exec (.split n k) s = .next t ∧
      (∀ j, j < 256 → entry t.shlen j = 0) ∧
      (∀ j, j < 255 → entry t.xc j = shuffled (acceptedBytes draws) j) ∧ entry t.xc 255 = entry s.xc 255 ∧
      (∀ c, entry t.coef c =
        if c = 0 then s.secret p
        else if c ≤ q then co.getD (p * (k.toNat - 1) + (c - 1)) 0
        else if c < k.toNat ∧ 0 < p then co.getD ((p - 1) * (k.toNat - 1) + (c - 1)) 0
        else entry s.coef c) ∧
      (∀ j i, j < n.toNat → i < p → t.share j i = polyValue s.cfg.poly
        (fun c => if c = 0 then s.secret i else co.getD (i * (k.toNat - 1) + (c - 1)) 0) k.toNat
        (shuffled (acceptedBytes draws) j)) ∧
      (∀ a, (∀ j i, j < n.toNat → i < p → a ≠ shareAddr j i) → t.memRead a = s.memRead a))

/-- R199: the source counts as failed after `REJ_LIMIT` rejected draws in a row: `REJ_LIMIT` bytes 0xFF at `t = 254` end
`SPLIT` with `RandomnessFailure`, no exchange made, exactly those draws consumed. -/
def Obligations.RejectionLimitFailsSplit : Prop :=
  ∀ (n k : BitVec 12) (s : State) (rest : List Answer), s.cfg.Legal → SplitArgs n k s →
    s.entropy = List.replicate s.cfg.rejLimit (.ok 0xFF) ++ rest →
    ∃ (v : Vector Byte 256) (z : Vector (BitVec 16) 256),
      EndsAs (exec (.split n k) s) { s with entropy := rest, xc := v, shlen := z } .randomnessFailure ∧
      (∀ j, j < 256 → entry z j = 0) ∧
      (∀ j, j < 255 → entry v j = BitVec.ofNat 8 (j + 1)) ∧ entry v 255 = entry s.xc 255

/-- R301: `SPLIT` draws at most `254 * REJ_LIMIT + LEN * (k - 1)` answers, and with that many answers ready it does not
wait. -/
def Obligations.SplitDrawsAreBounded : Prop :=
  ∀ (n k : BitVec 12) (s t : State), exec (.split n k) s = .next t →
    (∃ taken, s.entropy = taken ++ t.entropy ∧
      taken.length ≤ 254 * s.cfg.rejLimit + s.len.toNat * (k.toNat - 1)) ∧
    (254 * s.cfg.rejLimit + s.len.toNat * (k.toNat - 1) ≤ s.entropy.length → t.busy = false)

/-- R199: the mask of a shuffle draw is the smallest of the eight that is at least `t`, an index draw gives an index at
most `t`, and rejected bytes are drawn past at the same `t`: after fewer of them than the draws allowed, the next accepted
byte gives its index, a failing answer fails, and no answer waits; when all the draws allowed are rejected it fails without
another draw. -/
def Obligations.DrawIndexStaysInRange : Prop :=
  (∀ t, 1 ≤ t → t ≤ 254 → drawMask t ∈ [0x01#8, 0x03, 0x07, 0x0F, 0x1F, 0x3F, 0x7F, 0xFF] ∧ t ≤ (drawMask t).toNat ∧
    ∀ m ∈ [0x01#8, 0x03, 0x07, 0x0F, 0x1F, 0x3F, 0x7F, 0xFF], t ≤ m.toNat → (drawMask t).toNat ≤ m.toNat) ∧
  (∀ (t tries : Nat) (s u : State) (r : Byte), drawIndex t tries s = .byte r u → r.toNat ≤ t) ∧
  (∀ (t tries : Nat) (s : State) (rejected : List Byte), (∀ b ∈ rejected, t < (b &&& drawMask t).toNat) →
    (∀ (b : Byte) (rest : List Answer), rejected.length < tries → (b &&& drawMask t).toNat ≤ t →
      s.entropy = rejected.map .ok ++ .ok b :: rest →
      drawIndex t tries s = .byte (b &&& drawMask t) { s with entropy := rest }) ∧
    (∀ rest : List Answer, rejected.length < tries → s.entropy = rejected.map .ok ++ .fail :: rest →
      drawIndex t tries s = .fail { s with entropy := rest }) ∧
    (rejected.length < tries → s.entropy = rejected.map .ok → drawIndex t tries s = .waiting) ∧
    (∀ rest : List Answer, rejected.length = tries → s.entropy = rejected.map .ok ++ rest →
      drawIndex t tries s = .fail { s with entropy := rest }))

/-- R197, R198, R221: the machine enters the shuffle with `t = 254` and a permutation of 1 to 255 in `XC[0..254]`, and at
every point of the shuffle that follows, and when it leaves it, `XC[0..254]` is one; while it stays, `t` is in 1 to 254. -/
def Obligations.ShuffleKeepsAPermutation : Prop :=
  (∀ s : State, s.seq.st = .spClear → (coreTransition s).seq.st = .spShuffle ∧ (coreTransition s).seq.t = 254 ∧
    PermutesNonzero (coreTransition s).xc) ∧
  (∀ s : State, s.seq.st = .spShuffle → 1 ≤ s.seq.t → s.seq.t ≤ 254 → PermutesNonzero s.xc →
    PermutesNonzero (coreTransition s).xc ∧
    ((coreTransition s).seq.st = .spShuffle → 1 ≤ (coreTransition s).seq.t ∧ (coreTransition s).seq.t ≤ 254))

/-! ## COMBINE -/

/-- R211, R212: the checks of `COMBINE`: a count outside 2 to 256, a share shorter than 2 bytes, or unequal lengths is
`InvalidShares`; then a share longer than a slot is `InvalidLength`; then two equal trailing coordinate bytes are
`InvalidShares`; nothing but `STATUS` has changed. -/
def Obligations.CombineValidation : Prop :=
  ∀ (m : BitVec 12) (s : State), s.cfg.Legal →
    (¬CombineLengths m s → EndsAs (exec (.combine m) s) s .invalidShares) ∧
    (CombineLengths m s → s.cfg.lmax + 1 < (entry s.shlen 0).toNat → EndsAs (exec (.combine m) s) s .invalidLength) ∧
    (CombineLengths m s → (entry s.shlen 0).toNat ≤ s.cfg.lmax + 1 → ¬CombineDistinct m s →
      EndsAs (exec (.combine m) s) s .invalidShares)

/-- R210, R214, R215, R216: a `COMBINE` that passes its checks ends successfully: `XC[j]` is the trailing byte of share
`j`, each secret byte is the Lagrange formula at 0 over the share bytes of its position, `PY` holds the last position,
`LEN` is one less than the share length, and everything else, every other memory cell among it, is as it was. -/
def Obligations.CombineRun : Prop :=
  ∀ (m : BitVec 12) (s : State), s.cfg.Legal → Memory.wf s.mem → CombineLengths m s →
    (entry s.shlen 0).toNat ≤ s.cfg.lmax + 1 → CombineDistinct m s →
    ∃ t, EndsAs (exec (.combine m) s)
        { s with len := entry s.shlen 0 - 1, xc := t.xc, py := t.py, mem := t.mem } .ok ∧
      exec (.combine m) s = .next t ∧
      (∀ j, entry t.xc j =
        if j < m.toNat then s.share j ((entry s.shlen 0).toNat - 1) else entry s.xc j) ∧
      (∀ j, entry t.py j =
        if j < m.toNat then s.share j ((entry s.shlen 0).toNat - 2) else entry s.py j) ∧
      (∀ o, o < (entry s.shlen 0).toNat - 1 → t.secret o = lagrangeValue s.cfg.poly
        (fun j => s.share j ((entry s.shlen 0).toNat - 1)) (fun j => s.share j o) m.toNat 0x00) ∧
      (∀ a, (∀ o, o < (entry s.shlen 0).toNat - 1 → a ≠ secretAddr o) → t.memRead a = s.memRead a)

/-- R207: any `m >= k` of the `n` shares that a successful `SPLIT` made, loaded into slots 0 to `m - 1` in any order with
their lengths, make `COMBINE m` end successfully with `LEN` and the secret equal to the original. -/
def Obligations.SplitThenCombineRecoversTheSecret : Prop :=
  ∀ (n k m : BitVec 12) (s t u : State) (pick : Nat → Nat),
    s.cfg.Legal → Memory.wf s.mem → s.busy = true → exec (.split n k) s = .next t → t.busy = false → t.ecode = .ok →
    k.toNat ≤ m.toNat → m.toNat ≤ n.toNat →
    (∀ j, j < m.toNat → pick j < n.toNat) → (∀ i j, i < m.toNat → j < m.toNat → pick i = pick j → i = j) →
    u.cfg = s.cfg → Memory.wf u.mem →
    (∀ j, j < m.toNat → entry u.shlen j = entry t.shlen (pick j)) →
    (∀ j o, j < m.toNat → o ≤ s.len.toNat → u.share j o = t.share (pick j) o) →
    ∃ v, exec (.combine m) u = .next v ∧ v.seq.st = .idle ∧ v.done = true ∧ v.ecode = .ok ∧ v.len = s.len ∧
      ∀ o, o < s.len.toNat → v.secret o = s.secret o

/-! ## Ends of commands, and what every command leaves alone -/

/-- R241, R242, R246, R301: an accepted command ends with `DONE = 1`, `BUSY = 0` and `ST = IDLE`, or enters the fatal state
with `FATAL = 1`, `FCODE = 1`, `BUSY = 0`, `ST = HALT`, and `DONE` and `ECODE` still 0. Only `PGEN` and `SPLIT` can wait, and
only while fewer answers are ready than the command may draw; waiting is told by the same state (the model's choice,
log 8). -/
def Obligations.EveryCommandEnds : Prop :=
  ∀ (i : Instr) (s : State), s.busy = true → s.done = false → s.ecode = .ok → s.fatal = false →
    ∃ t, exec i s = .next t ∧
      ((t.busy = false ∧ t.seq.st = .idle ∧ t.done = true ∧ t.fatal = false) ∨
        (t.busy = false ∧ t.seq.st = .halt ∧ t.done = false ∧ t.ecode = .ok ∧ t.fatal = true ∧ t.fcode = .divideByZero) ∨
        (t = s ∧ ((∃ cnt c0, i = .pgen cnt c0 ∧ s.entropy.length < cnt.toNat - 1) ∨
          ∃ n k, i = .split n k ∧
            s.entropy.length < 254 * s.cfg.rejLimit + s.len.toNat * (k.toNat - 1))))

/-- No command touches the parameters, `CTRL`, `HERR`, the latched word, the host's side or the schedule (R31, R35, R45,
R75; the last four fields are the model's own). -/
def Obligations.EveryCommandLeavesTheHostSideAlone : Prop :=
  ∀ (i : Instr) (s t : State), exec i s = .next t →
    t.cfg = s.cfg ∧ t.ie = s.ie ∧ t.herr = s.herr ∧ t.cmdl = s.cmdl ∧ t.rdata = s.rdata ∧ t.schedule = s.schedule ∧
    t.epoch = s.epoch ∧ t.residue = s.residue

/-- R243, its first sentence: an error other than `RandomnessFailure` leaves the data state exactly as before the
command. -/
def Obligations.ErrorsLeaveTheDataState : Prop :=
  ∀ (i : Instr) (s t : State), s.done = false → exec i s = .next t → t.done = true → t.ecode ≠ .ok →
    t.ecode ≠ .randomnessFailure →
    t = { s with ecode := t.ecode, done := true, busy := false, seq := t.seq }

/-- R21: `RESULT` is written by `GFADD`, `GFMUL`, `GFINV`, `GFDIV`, `PEVAL` and `LINTERP` on successful completion and by
no other command or end. -/
def Obligations.ResultHasSixWriters : Prop :=
  ∀ (i : Instr) (s t : State), exec i s = .next t → t.result ≠ s.result →
    t.done = true ∧ t.ecode = .ok ∧
    ((∃ a b, i = .gfadd a b) ∨ (∃ a b, i = .gfmul a b) ∨ (∃ a, i = .gfinv a) ∨ (∃ a b, i = .gfdiv a b) ∨
      (∃ cnt x, i = .peval cnt x) ∨ (∃ cnt x, i = .linterp cnt x))

/-- R218: the fatal state is entered from `GFINV` of zero, `GFDIV` by zero and `LINTERP` on equal coordinates only; in
particular never from `COMBINE`. -/
def Obligations.FatalHasThreeCauses : Prop :=
  ∀ (i : Instr) (s t : State), s.cfg.Legal → Memory.wf s.mem → s.fatal = false → exec i s = .next t → t.fatal = true →
    i = .gfinv 0x00 ∨ (∃ a, i = .gfdiv a 0x00) ∨
    (∃ cnt x, i = .linterp cnt x ∧ ¬DistinctXc s.xc cnt.toNat)

/-! ## The finite-state machine -/

/-- R222, for the field and vector commands: the machine of R220 and R221 and the one step of the command agree. -/
def Obligations.MachineAgreesOnFieldAndVectorCommands : Prop :=
  (∀ a b, MachineAgrees (.gfadd a b)) ∧ (∀ a b, MachineAgrees (.gfmul a b)) ∧ (∀ a, MachineAgrees (.gfinv a)) ∧
  (∀ a b, MachineAgrees (.gfdiv a b)) ∧ (∀ cnt c0, MachineAgrees (.pgen cnt c0)) ∧
  (∀ cnt x, MachineAgrees (.peval cnt x)) ∧ (∀ cnt x, MachineAgrees (.linterp cnt x))

/-- R222, for `SPLIT`. -/
def Obligations.MachineAgreesOnSplit : Prop := ∀ n k, MachineAgrees (.split n k)

/-- R222, for `COMBINE`. -/
def Obligations.MachineAgreesOnCombine : Prop := ∀ m, MachineAgrees (.combine m)

/-! ## Invariants and reset -/

/-- The state right after reset meets the invariant. -/
def Obligations.ResetMeetsTheInvariant : Prop := Inv State.reset

/-- Every step keeps the invariant, from every state that meets it: the status fields agree with `ST` (R33, R44), the
parameters stay legal, the memory keeps its canonical form and lists buffer cells only (R70); between `DECODE` and
`END` the latched word is of the command whose states the machine goes through (R221); inside `SPLIT` the arguments
stay legal, no slot is marked and `XC[0..254]` stays a permutation (R192, R196, R198); inside `COMBINE` the share count, the
lengths and the distinct trailing coordinates stay as its checks found them, and the coordinates loaded from them (R211,
R214). -/
def Obligations.StepKeepsTheInvariant : Prop :=
  ∀ s t : State, Inv s → step s = .next t → Inv t

/-- R46, R280: every value R46 states for the state after reset holds of `State.reset` and of what the reset event leaves
from any state. What R46 calls unspecified is left out. That the parameters are as before is R45's "constants of the
hardware", and that the event is one step that keeps them is the model's reading (DEDUCED, log 3). -/
def Obligations.ResetLeavesTheStatedValues : Prop :=
  AfterReset State.reset ∧
  ∀ (s : State) (rest : List Event), s.schedule = .reset :: rest →
    ∃ t, step s = .next t ∧ AfterReset t ∧ t.cfg = s.cfg

/-- R247, R248: in the fatal state every step but a reset event keeps `FATAL`, `ST = HALT` and the whole data state: only
`HERR`, `DONE`, `IE`, and the data word of a read can change, and nothing is drawn; a reset event clears `FATAL`. (That
a halted machine with nothing scheduled is a fault is U8's treatment, log 9.) -/
def Obligations.OnlyResetLeavesTheFatalState : Prop :=
  (∀ s t : State, s.fatal = true → s.seq.st = .halt → s.schedule.head? ≠ some .reset → step s = .next t →
    t = { s with schedule := t.schedule, herr := t.herr, done := t.done, ie := t.ie, rdata := t.rdata }) ∧
  (∀ s t : State, s.schedule.head? = some .reset → step s = .next t → t.fatal = false ∧ t.seq.st = .idle) ∧
  (∀ s : State, s.seq.st = .halt → s.schedule = [] → step s = .fault .haltedAfterDivideByZero)

/-! ## The host port -/

/-- R61, R62, R64, R65: a host read. `STATUS`, `CTRL` and `CAP` are always served; while a command runs or the block is
halted every other address is refused; otherwise each location of the map gives its value, zero-extended, and every other
address is refused. A refused read gives 0 and sets `HERR`; no read changes anything else. -/
def Obligations.HostReadFollowsTheMap : Prop :=
  ∀ (s : State) (ha : Word) (rest : List Event), s.cfg.Legal → s.schedule = .hostRead ha :: rest →
    ∃ t, step s = .next t ∧ t = { s with schedule := rest, rdata := t.rdata, herr := t.herr } ∧
      let served := fun v : Word => t.rdata = v ∧ t.herr = s.herr
      let refused := t.rdata = 0 ∧ t.herr = true
      (ha.toNat = 0x0 → refused) ∧
      (ha.toNat = 0x1 → served s.statusWord) ∧ (ha.toNat = 0x2 → served s.ctrlWord) ∧
      (ha.toNat = 0x3 → served s.capWord) ∧
      (s.busy = true ∨ s.fatal = true → ha.toNat ≠ 0x1 → ha.toNat ≠ 0x2 → ha.toNat ≠ 0x3 → refused) ∧
      (s.busy = false → s.fatal = false →
        (ha.toNat = 0x4 → served (s.result.setWidth 32)) ∧ (ha.toNat = 0x5 → served (s.len.setWidth 32)) ∧
        (0x6 ≤ ha.toNat → ha.toNat ≤ 0xFF → refused) ∧
        (∀ j, j < 256 → ha.toNat = 0x100 + j → served ((entry s.shlen j).setWidth 32)) ∧
        (∀ i, i < 256 → ha.toNat = 0x200 + i → served ((entry s.xc i).setWidth 32)) ∧
        (∀ c, c < 256 → ha.toNat = 0x300 + c → served ((entry s.coef c).setWidth 32)) ∧
        (∀ i, i < 256 → ha.toNat = 0x400 + i → served ((entry s.py i).setWidth 32)) ∧
        (0x500 ≤ ha.toNat → ha.toNat ≤ 0xFFFFFF → refused) ∧
        (∀ j o, j < 256 → o < 0x10000 → ha.toNat = 0x1000000 + j * 0x10000 + o →
          (o ≤ s.cfg.lmax → served ((s.share j o).setWidth 32)) ∧ (s.cfg.lmax < o → refused)) ∧
        (∀ o, o < 0x10000 → ha.toNat = 0x2000000 + o →
          (o < s.cfg.lmax → served ((s.secret o).setWidth 32)) ∧ (s.cfg.lmax ≤ o → refused)) ∧
        (0x2010000 ≤ ha.toNat → refused))

/-- R34, R35, R37, R61, R62, R64, R65: a host write. `STATUS` and `CTRL` always take it; `CAP` and `RESULT` never; while a
command runs or the block is halted every other address is refused; otherwise each location of the map takes the low bits
of the data word and nothing else changes, `CMD` is accepted, and every other address is refused. A refused write sets
`HERR` and does nothing else. -/
def Obligations.HostWriteFollowsTheMap : Prop :=
  ∀ (s : State) (ha d : Word) (rest : List Event), s.cfg.Legal → Memory.wf s.mem → s.schedule = .hostWrite ha d :: rest →
    ∃ t, step s = .next t ∧
      let refused := t = { s with schedule := rest, herr := true }
      (ha.toNat = 0x1 →
        t = { s with schedule := rest, done := s.done && !d.getLsbD 1, herr := s.herr && !d.getLsbD 3 }) ∧
      (ha.toNat = 0x2 → t = { s with schedule := rest, ie := d.getLsbD 0 }) ∧
      (ha.toNat = 0x3 → refused) ∧
      (s.busy = true ∨ s.fatal = true → ha.toNat ≠ 0x1 → ha.toNat ≠ 0x2 → refused) ∧
      (s.busy = false → s.fatal = false →
        (ha.toNat = 0x0 → t.seq.st = .decode ∧
          t = { s with schedule := rest, cmdl := d, busy := true, done := false, ecode := .ok, seq := t.seq }) ∧
        (ha.toNat = 0x4 → refused) ∧ (ha.toNat = 0x5 → t = { s with schedule := rest, len := d.setWidth 16 }) ∧
        (0x6 ≤ ha.toNat → ha.toNat ≤ 0xFF → refused) ∧
        (∀ j, j < 256 → ha.toNat = 0x100 + j → t = { s with schedule := rest, shlen := t.shlen } ∧
          ∀ x, entry t.shlen x = if x = j then d.setWidth 16 else entry s.shlen x) ∧
        (∀ i, i < 256 → ha.toNat = 0x200 + i → t = { s with schedule := rest, xc := t.xc } ∧
          ∀ x, entry t.xc x = if x = i then d.setWidth 8 else entry s.xc x) ∧
        (∀ c, c < 256 → ha.toNat = 0x300 + c → t = { s with schedule := rest, coef := t.coef } ∧
          ∀ x, entry t.coef x = if x = c then d.setWidth 8 else entry s.coef x) ∧
        (∀ i, i < 256 → ha.toNat = 0x400 + i → t = { s with schedule := rest, py := t.py } ∧
          ∀ x, entry t.py x = if x = i then d.setWidth 8 else entry s.py x) ∧
        (0x500 ≤ ha.toNat → ha.toNat ≤ 0xFFFFFF → refused) ∧
        (∀ j o, j < 256 → o < 0x10000 → ha.toNat = 0x1000000 + j * 0x10000 + o →
          (o ≤ s.cfg.lmax → t = { s with schedule := rest, mem := t.mem } ∧
            ∀ a, t.memRead a = if a = shareAddr j o then d.setWidth 8 else s.memRead a) ∧
          (s.cfg.lmax < o → refused)) ∧
        (∀ o, o < 0x10000 → ha.toNat = 0x2000000 + o →
          (o < s.cfg.lmax → t = { s with schedule := rest, mem := t.mem } ∧
            ∀ a, t.memRead a = if a = secretAddr o then d.setWidth 8 else s.memRead a) ∧
          (s.cfg.lmax ≤ o → refused)) ∧
        (0x2010000 ≤ ha.toNat → refused))

/-- R64: while a command runs or the block is halted the host can observe nothing of the data state: the same host
transaction on two blocks that differ in guarded locations only gives the same data word and the same always-readable
locations, and changes no guarded location of either. -/
def Obligations.ClosedGuardHidesTheDataState : Prop :=
  ∀ (s t : State) (e : Event) (rest rest' : List Event), SameOutside s t → s.busy = true ∨ s.fatal = true →
    IsHostAccess e → s.schedule = e :: rest → t.schedule = e :: rest' →
    ∃ s' t', step s = .next s' ∧ step t = .next t' ∧ SameOutside s' t' ∧
      s' = { s with schedule := rest, herr := s'.herr, done := s'.done, ie := s'.ie, rdata := s'.rdata } ∧
      t' = { t with schedule := rest', herr := t'.herr, done := t'.done, ie := t'.ie, rdata := t'.rdata }

/-- R37: `CMD` accepts a word while the block is free, latching it and starting the core on it; a write while a command
runs or the block is halted is dropped, and a read is refused at all times, each with `HERR` set and no other effect but
the 0 of the refused read. -/
def Obligations.CommandPort : Prop :=
  (∀ (s : State) (w : Word) (rest : List Event), s.busy = false → s.fatal = false → s.schedule = .hostWrite 0 w :: rest →
    ∃ t, step s = .next t ∧ t.seq.st = .decode ∧
      t = { s with schedule := rest, cmdl := w, busy := true, done := false, ecode := .ok, seq := t.seq }) ∧
  (∀ (s : State) (w : Word) (rest : List Event), s.busy = true ∨ s.fatal = true → s.schedule = .hostWrite 0 w :: rest →
    step s = .next { s with schedule := rest, herr := true }) ∧
  (∀ (s : State) (rest : List Event), s.schedule = .hostRead 0 :: rest →
    step s = .next { s with schedule := rest, herr := true, rdata := 0 })

/-- R27, R33, R240: the layout of `STATUS`, bit by bit and field by field, reserved bits 0, with the number of every error
code and of the fatal cause. -/
def Obligations.StatusLayout : Prop :=
  ∀ s : State,
    s.statusWord.getLsbD 0 = s.busy ∧ s.statusWord.getLsbD 1 = s.done ∧ s.statusWord.getLsbD 2 = s.fatal ∧
    s.statusWord.getLsbD 3 = s.herr ∧ s.statusWord.extractLsb' 4 4 = 0 ∧
    s.statusWord.extractLsb' 8 4 = (match s.ecode with
      | .ok => 0#4
      | .invalidThreshold => 1#4
      | .invalidCount => 2#4
      | .emptySecret => 3#4
      | .randomnessFailure => 4#4
      | .invalidShares => 5#4
      | .illegalCommand => 6#4
      | .invalidLength => 7#4) ∧
    s.statusWord.extractLsb' 12 4 = (match s.fcode with
      | .none => 0#4
      | .divideByZero => 1#4) ∧
    s.statusWord.extractLsb' 16 16 = 0

/-- R35, R36, R250: `CTRL` is `IE` alone; `CAP` holds `LMAX`, the version 1 and zeros; the interrupt output is
`IE and (DONE or FATAL)`, read off the two words. -/
def Obligations.ControlCapabilityAndInterrupt : Prop :=
  ∀ s : State,
    s.ctrlWord.getLsbD 0 = s.ie ∧ s.ctrlWord.extractLsb' 1 31 = 0 ∧
    s.capWord.extractLsb' 0 16 = BitVec.ofNat 16 s.cfg.lmax ∧ s.capWord.extractLsb' 16 8 = 0x01 ∧
    s.capWord.extractLsb' 24 8 = 0x00 ∧
    s.irq = (s.ctrlWord.getLsbD 0 && (s.statusWord.getLsbD 1 || s.statusWord.getLsbD 2))

/-! ## More of the machine, and runs -/

/-- R95, R221: from the state after acceptance an illegal word takes the machine from `DECODE` to `END` with `e = 6`, and from
there to `IDLE`, ending with `IllegalCommand` and nothing else changed, as the one step of the core does (R222). -/
def Obligations.MachineAgreesOnIllegalWords : Prop :=
  ∀ (s : State) (why : IllegalWord), s.seq = Seq.start .decode → decode s.cmdl = .illegal why →
    AtFinish (coreTransition s) [.illegalCommand] ∧ EndsAs (.next (transitions 2 s)) s .illegalCommand ∧
    (s.schedule = [] → step s = .next (transitions 2 s))

/-- R221: every transition of the core is one of the table, from every state that meets the invariant; `CB_INTERP` never
goes to `HALT` (R218). Where the core waits for an answer, or one visit is part of the work of a state, it stays (the
model's choice, log 2). -/
def Obligations.TransitionsFollowTheTable : Prop := ∀ s : State, Inv s → FollowsTable s (coreTransition s)

/-- R303, R44: a run starts with the invariant of runs, and every move of it, the host's, the core's, or a single
transition's, keeps it: the machine's invariant, and a command in flight exactly while `BUSY = 1`. How a script is played
move by move, and that a plain write to `CMD` puts a command in flight, is the model's choice (log 17). -/
def Obligations.RunsKeepTheInvariant : Prop :=
  (∀ (s : State) (script : List Line), Starts s → RunInv (Run.start s script)) ∧
  (∀ (r r' : Run) (m : Mover), RunInv r → r.move m = some r' → RunInv r')

/-- The record of a run, which is the model's own (log 17) and serves R303's "every command the script meant to succeed
left `ECODE = 0`": it forgets no command. Every move keeps what earlier commands left; the count of commands grows by one
exactly when the host writes a word to `CMD`; a code is recorded when the command in flight has ended with `DONE = 1` and
`BUSY = 0`, and it is the `ECODE` that stands in `STATUS` then; a command without a code was dropped, was abandoned by a
reset, or has ended fatally. No rule says two of these things: that a plain write to `CMD` counts as a command of the record
is the model's choice (DESIGN CHOICE, log 17), and that a dropped, abandoned or fatally ended command left no code is its
reading (DEDUCED, log 17; after a fatal end `STATUS` itself shows `ECODE = 0`, R32). -/
def Obligations.RunsRecordEveryCommand : Prop :=
  ∀ (r r' : Run) (m : Mover), RunInv r → r.move m = some r' →
    r.left <+: r'.left ∧ r'.issuedCount = r.issuedCount + (if r.issuesBy m then 1 else 0) ∧
    (∀ meant code, r'.left = r.left ++ [(meant, some code)] →
      r.flight = some meant ∧ r'.flight = none ∧ r'.state.done = true ∧ r'.state.busy = false ∧ r'.state.ecode = code) ∧
    (∀ meant, r'.left = r.left ++ [(meant, none)] →
      (m = .host ∧ r.issuesBy m = true ∧ (r.state.busy = true ∨ r.state.fatal = true)) ∨
      (m = .host ∧ r.flight = some meant ∧ r.script.head? = some .reset) ∨
      (m ≠ .host ∧ r.flight = some meant ∧ r'.state.fatal = true))
end

