-- ==== Sys2Proof/Laws/State.lean ====
section
/-! SUPPORT. What each update of the state does to each field, so that no proof unfolds a record update. -/

namespace Sys2Proof.Machine

/-! ### memWrite -/

@[simp] theorem State.memWrite_cfg (s : State) (a : Nat) (v : Byte) : (s.memWrite a v).cfg = s.cfg := rfl
@[simp] theorem State.memWrite_busy (s : State) (a : Nat) (v : Byte) : (s.memWrite a v).busy = s.busy := rfl
@[simp] theorem State.memWrite_done (s : State) (a : Nat) (v : Byte) : (s.memWrite a v).done = s.done := rfl
@[simp] theorem State.memWrite_fatal (s : State) (a : Nat) (v : Byte) : (s.memWrite a v).fatal = s.fatal := rfl
@[simp] theorem State.memWrite_herr (s : State) (a : Nat) (v : Byte) : (s.memWrite a v).herr = s.herr := rfl
@[simp] theorem State.memWrite_ecode (s : State) (a : Nat) (v : Byte) : (s.memWrite a v).ecode = s.ecode := rfl
@[simp] theorem State.memWrite_fcode (s : State) (a : Nat) (v : Byte) : (s.memWrite a v).fcode = s.fcode := rfl
@[simp] theorem State.memWrite_ie (s : State) (a : Nat) (v : Byte) : (s.memWrite a v).ie = s.ie := rfl
@[simp] theorem State.memWrite_result (s : State) (a : Nat) (v : Byte) : (s.memWrite a v).result = s.result := rfl
@[simp] theorem State.memWrite_len (s : State) (a : Nat) (v : Byte) : (s.memWrite a v).len = s.len := rfl
@[simp] theorem State.memWrite_shlen (s : State) (a : Nat) (v : Byte) : (s.memWrite a v).shlen = s.shlen := rfl
@[simp] theorem State.memWrite_xc (s : State) (a : Nat) (v : Byte) : (s.memWrite a v).xc = s.xc := rfl
@[simp] theorem State.memWrite_coef (s : State) (a : Nat) (v : Byte) : (s.memWrite a v).coef = s.coef := rfl
@[simp] theorem State.memWrite_py (s : State) (a : Nat) (v : Byte) : (s.memWrite a v).py = s.py := rfl
@[simp] theorem State.memWrite_mem (s : State) (a : Nat) (v : Byte) : (s.memWrite a v).mem = Memory.store s.mem a v := rfl
@[simp] theorem State.memWrite_cmdl (s : State) (a : Nat) (v : Byte) : (s.memWrite a v).cmdl = s.cmdl := rfl
@[simp] theorem State.memWrite_seq (s : State) (a : Nat) (v : Byte) : (s.memWrite a v).seq = s.seq := rfl
@[simp] theorem State.memWrite_entropy (s : State) (a : Nat) (v : Byte) : (s.memWrite a v).entropy = s.entropy := rfl
@[simp] theorem State.memWrite_schedule (s : State) (a : Nat) (v : Byte) : (s.memWrite a v).schedule = s.schedule := rfl
@[simp] theorem State.memWrite_rdata (s : State) (a : Nat) (v : Byte) : (s.memWrite a v).rdata = s.rdata := rfl
@[simp] theorem State.memWrite_epoch (s : State) (a : Nat) (v : Byte) : (s.memWrite a v).epoch = s.epoch := rfl
@[simp] theorem State.memWrite_residue (s : State) (a : Nat) (v : Byte) : (s.memWrite a v).residue = s.residue := rfl

/-! ### setResult -/

@[simp] theorem State.setResult_cfg (s : State) (v : Byte) : (s.setResult v).cfg = s.cfg := rfl
@[simp] theorem State.setResult_busy (s : State) (v : Byte) : (s.setResult v).busy = s.busy := rfl
@[simp] theorem State.setResult_done (s : State) (v : Byte) : (s.setResult v).done = s.done := rfl
@[simp] theorem State.setResult_fatal (s : State) (v : Byte) : (s.setResult v).fatal = s.fatal := rfl
@[simp] theorem State.setResult_herr (s : State) (v : Byte) : (s.setResult v).herr = s.herr := rfl
@[simp] theorem State.setResult_ecode (s : State) (v : Byte) : (s.setResult v).ecode = s.ecode := rfl
@[simp] theorem State.setResult_fcode (s : State) (v : Byte) : (s.setResult v).fcode = s.fcode := rfl
@[simp] theorem State.setResult_ie (s : State) (v : Byte) : (s.setResult v).ie = s.ie := rfl
@[simp] theorem State.setResult_result (s : State) (v : Byte) : (s.setResult v).result = v := rfl
@[simp] theorem State.setResult_len (s : State) (v : Byte) : (s.setResult v).len = s.len := rfl
@[simp] theorem State.setResult_shlen (s : State) (v : Byte) : (s.setResult v).shlen = s.shlen := rfl
@[simp] theorem State.setResult_xc (s : State) (v : Byte) : (s.setResult v).xc = s.xc := rfl
@[simp] theorem State.setResult_coef (s : State) (v : Byte) : (s.setResult v).coef = s.coef := rfl
@[simp] theorem State.setResult_py (s : State) (v : Byte) : (s.setResult v).py = s.py := rfl
@[simp] theorem State.setResult_mem (s : State) (v : Byte) : (s.setResult v).mem = s.mem := rfl
@[simp] theorem State.setResult_cmdl (s : State) (v : Byte) : (s.setResult v).cmdl = s.cmdl := rfl
@[simp] theorem State.setResult_seq (s : State) (v : Byte) : (s.setResult v).seq = s.seq := rfl
@[simp] theorem State.setResult_entropy (s : State) (v : Byte) : (s.setResult v).entropy = s.entropy := rfl
@[simp] theorem State.setResult_schedule (s : State) (v : Byte) : (s.setResult v).schedule = s.schedule := rfl
@[simp] theorem State.setResult_rdata (s : State) (v : Byte) : (s.setResult v).rdata = s.rdata := rfl
@[simp] theorem State.setResult_epoch (s : State) (v : Byte) : (s.setResult v).epoch = s.epoch := rfl
@[simp] theorem State.setResult_residue (s : State) (v : Byte) : (s.setResult v).residue = s.residue := rfl

/-! ### setLen -/

@[simp] theorem State.setLen_cfg (s : State) (v : BitVec 16) : (s.setLen v).cfg = s.cfg := rfl
@[simp] theorem State.setLen_busy (s : State) (v : BitVec 16) : (s.setLen v).busy = s.busy := rfl
@[simp] theorem State.setLen_done (s : State) (v : BitVec 16) : (s.setLen v).done = s.done := rfl
@[simp] theorem State.setLen_fatal (s : State) (v : BitVec 16) : (s.setLen v).fatal = s.fatal := rfl
@[simp] theorem State.setLen_herr (s : State) (v : BitVec 16) : (s.setLen v).herr = s.herr := rfl
@[simp] theorem State.setLen_ecode (s : State) (v : BitVec 16) : (s.setLen v).ecode = s.ecode := rfl
@[simp] theorem State.setLen_fcode (s : State) (v : BitVec 16) : (s.setLen v).fcode = s.fcode := rfl
@[simp] theorem State.setLen_ie (s : State) (v : BitVec 16) : (s.setLen v).ie = s.ie := rfl
@[simp] theorem State.setLen_result (s : State) (v : BitVec 16) : (s.setLen v).result = s.result := rfl
@[simp] theorem State.setLen_len (s : State) (v : BitVec 16) : (s.setLen v).len = v := rfl
@[simp] theorem State.setLen_shlen (s : State) (v : BitVec 16) : (s.setLen v).shlen = s.shlen := rfl
@[simp] theorem State.setLen_xc (s : State) (v : BitVec 16) : (s.setLen v).xc = s.xc := rfl
@[simp] theorem State.setLen_coef (s : State) (v : BitVec 16) : (s.setLen v).coef = s.coef := rfl
@[simp] theorem State.setLen_py (s : State) (v : BitVec 16) : (s.setLen v).py = s.py := rfl
@[simp] theorem State.setLen_mem (s : State) (v : BitVec 16) : (s.setLen v).mem = s.mem := rfl
@[simp] theorem State.setLen_cmdl (s : State) (v : BitVec 16) : (s.setLen v).cmdl = s.cmdl := rfl
@[simp] theorem State.setLen_seq (s : State) (v : BitVec 16) : (s.setLen v).seq = s.seq := rfl
@[simp] theorem State.setLen_entropy (s : State) (v : BitVec 16) : (s.setLen v).entropy = s.entropy := rfl
@[simp] theorem State.setLen_schedule (s : State) (v : BitVec 16) : (s.setLen v).schedule = s.schedule := rfl
@[simp] theorem State.setLen_rdata (s : State) (v : BitVec 16) : (s.setLen v).rdata = s.rdata := rfl
@[simp] theorem State.setLen_epoch (s : State) (v : BitVec 16) : (s.setLen v).epoch = s.epoch := rfl
@[simp] theorem State.setLen_residue (s : State) (v : BitVec 16) : (s.setLen v).residue = s.residue := rfl

/-! ### setShlen -/

@[simp] theorem State.setShlen_cfg (s : State) (j : Nat) (v : BitVec 16) : (s.setShlen j v).cfg = s.cfg := rfl
@[simp] theorem State.setShlen_busy (s : State) (j : Nat) (v : BitVec 16) : (s.setShlen j v).busy = s.busy := rfl
@[simp] theorem State.setShlen_done (s : State) (j : Nat) (v : BitVec 16) : (s.setShlen j v).done = s.done := rfl
@[simp] theorem State.setShlen_fatal (s : State) (j : Nat) (v : BitVec 16) : (s.setShlen j v).fatal = s.fatal := rfl
@[simp] theorem State.setShlen_herr (s : State) (j : Nat) (v : BitVec 16) : (s.setShlen j v).herr = s.herr := rfl
@[simp] theorem State.setShlen_ecode (s : State) (j : Nat) (v : BitVec 16) : (s.setShlen j v).ecode = s.ecode := rfl
@[simp] theorem State.setShlen_fcode (s : State) (j : Nat) (v : BitVec 16) : (s.setShlen j v).fcode = s.fcode := rfl
@[simp] theorem State.setShlen_ie (s : State) (j : Nat) (v : BitVec 16) : (s.setShlen j v).ie = s.ie := rfl
@[simp] theorem State.setShlen_result (s : State) (j : Nat) (v : BitVec 16) : (s.setShlen j v).result = s.result := rfl
@[simp] theorem State.setShlen_len (s : State) (j : Nat) (v : BitVec 16) : (s.setShlen j v).len = s.len := rfl
@[simp] theorem State.setShlen_shlen (s : State) (j : Nat) (v : BitVec 16) : (s.setShlen j v).shlen = setEntry s.shlen j v := rfl
@[simp] theorem State.setShlen_xc (s : State) (j : Nat) (v : BitVec 16) : (s.setShlen j v).xc = s.xc := rfl
@[simp] theorem State.setShlen_coef (s : State) (j : Nat) (v : BitVec 16) : (s.setShlen j v).coef = s.coef := rfl
@[simp] theorem State.setShlen_py (s : State) (j : Nat) (v : BitVec 16) : (s.setShlen j v).py = s.py := rfl
@[simp] theorem State.setShlen_mem (s : State) (j : Nat) (v : BitVec 16) : (s.setShlen j v).mem = s.mem := rfl
@[simp] theorem State.setShlen_cmdl (s : State) (j : Nat) (v : BitVec 16) : (s.setShlen j v).cmdl = s.cmdl := rfl
@[simp] theorem State.setShlen_seq (s : State) (j : Nat) (v : BitVec 16) : (s.setShlen j v).seq = s.seq := rfl
@[simp] theorem State.setShlen_entropy (s : State) (j : Nat) (v : BitVec 16) : (s.setShlen j v).entropy = s.entropy := rfl
@[simp] theorem State.setShlen_schedule (s : State) (j : Nat) (v : BitVec 16) : (s.setShlen j v).schedule = s.schedule := rfl
@[simp] theorem State.setShlen_rdata (s : State) (j : Nat) (v : BitVec 16) : (s.setShlen j v).rdata = s.rdata := rfl
@[simp] theorem State.setShlen_epoch (s : State) (j : Nat) (v : BitVec 16) : (s.setShlen j v).epoch = s.epoch := rfl
@[simp] theorem State.setShlen_residue (s : State) (j : Nat) (v : BitVec 16) : (s.setShlen j v).residue = s.residue := rfl

/-! ### setXc -/

@[simp] theorem State.setXc_cfg (s : State) (i : Nat) (v : Byte) : (s.setXc i v).cfg = s.cfg := rfl
@[simp] theorem State.setXc_busy (s : State) (i : Nat) (v : Byte) : (s.setXc i v).busy = s.busy := rfl
@[simp] theorem State.setXc_done (s : State) (i : Nat) (v : Byte) : (s.setXc i v).done = s.done := rfl
@[simp] theorem State.setXc_fatal (s : State) (i : Nat) (v : Byte) : (s.setXc i v).fatal = s.fatal := rfl
@[simp] theorem State.setXc_herr (s : State) (i : Nat) (v : Byte) : (s.setXc i v).herr = s.herr := rfl
@[simp] theorem State.setXc_ecode (s : State) (i : Nat) (v : Byte) : (s.setXc i v).ecode = s.ecode := rfl
@[simp] theorem State.setXc_fcode (s : State) (i : Nat) (v : Byte) : (s.setXc i v).fcode = s.fcode := rfl
@[simp] theorem State.setXc_ie (s : State) (i : Nat) (v : Byte) : (s.setXc i v).ie = s.ie := rfl
@[simp] theorem State.setXc_result (s : State) (i : Nat) (v : Byte) : (s.setXc i v).result = s.result := rfl
@[simp] theorem State.setXc_len (s : State) (i : Nat) (v : Byte) : (s.setXc i v).len = s.len := rfl
@[simp] theorem State.setXc_shlen (s : State) (i : Nat) (v : Byte) : (s.setXc i v).shlen = s.shlen := rfl
@[simp] theorem State.setXc_xc (s : State) (i : Nat) (v : Byte) : (s.setXc i v).xc = setEntry s.xc i v := rfl
@[simp] theorem State.setXc_coef (s : State) (i : Nat) (v : Byte) : (s.setXc i v).coef = s.coef := rfl
@[simp] theorem State.setXc_py (s : State) (i : Nat) (v : Byte) : (s.setXc i v).py = s.py := rfl
@[simp] theorem State.setXc_mem (s : State) (i : Nat) (v : Byte) : (s.setXc i v).mem = s.mem := rfl
@[simp] theorem State.setXc_cmdl (s : State) (i : Nat) (v : Byte) : (s.setXc i v).cmdl = s.cmdl := rfl
@[simp] theorem State.setXc_seq (s : State) (i : Nat) (v : Byte) : (s.setXc i v).seq = s.seq := rfl
@[simp] theorem State.setXc_entropy (s : State) (i : Nat) (v : Byte) : (s.setXc i v).entropy = s.entropy := rfl
@[simp] theorem State.setXc_schedule (s : State) (i : Nat) (v : Byte) : (s.setXc i v).schedule = s.schedule := rfl
@[simp] theorem State.setXc_rdata (s : State) (i : Nat) (v : Byte) : (s.setXc i v).rdata = s.rdata := rfl
@[simp] theorem State.setXc_epoch (s : State) (i : Nat) (v : Byte) : (s.setXc i v).epoch = s.epoch := rfl
@[simp] theorem State.setXc_residue (s : State) (i : Nat) (v : Byte) : (s.setXc i v).residue = s.residue := rfl

/-! ### setCoef -/

@[simp] theorem State.setCoef_cfg (s : State) (c : Nat) (v : Byte) : (s.setCoef c v).cfg = s.cfg := rfl
@[simp] theorem State.setCoef_busy (s : State) (c : Nat) (v : Byte) : (s.setCoef c v).busy = s.busy := rfl
@[simp] theorem State.setCoef_done (s : State) (c : Nat) (v : Byte) : (s.setCoef c v).done = s.done := rfl
@[simp] theorem State.setCoef_fatal (s : State) (c : Nat) (v : Byte) : (s.setCoef c v).fatal = s.fatal := rfl
@[simp] theorem State.setCoef_herr (s : State) (c : Nat) (v : Byte) : (s.setCoef c v).herr = s.herr := rfl
@[simp] theorem State.setCoef_ecode (s : State) (c : Nat) (v : Byte) : (s.setCoef c v).ecode = s.ecode := rfl
@[simp] theorem State.setCoef_fcode (s : State) (c : Nat) (v : Byte) : (s.setCoef c v).fcode = s.fcode := rfl
@[simp] theorem State.setCoef_ie (s : State) (c : Nat) (v : Byte) : (s.setCoef c v).ie = s.ie := rfl
@[simp] theorem State.setCoef_result (s : State) (c : Nat) (v : Byte) : (s.setCoef c v).result = s.result := rfl
@[simp] theorem State.setCoef_len (s : State) (c : Nat) (v : Byte) : (s.setCoef c v).len = s.len := rfl
@[simp] theorem State.setCoef_shlen (s : State) (c : Nat) (v : Byte) : (s.setCoef c v).shlen = s.shlen := rfl
@[simp] theorem State.setCoef_xc (s : State) (c : Nat) (v : Byte) : (s.setCoef c v).xc = s.xc := rfl
@[simp] theorem State.setCoef_coef (s : State) (c : Nat) (v : Byte) : (s.setCoef c v).coef = setEntry s.coef c v := rfl
@[simp] theorem State.setCoef_py (s : State) (c : Nat) (v : Byte) : (s.setCoef c v).py = s.py := rfl
@[simp] theorem State.setCoef_mem (s : State) (c : Nat) (v : Byte) : (s.setCoef c v).mem = s.mem := rfl
@[simp] theorem State.setCoef_cmdl (s : State) (c : Nat) (v : Byte) : (s.setCoef c v).cmdl = s.cmdl := rfl
@[simp] theorem State.setCoef_seq (s : State) (c : Nat) (v : Byte) : (s.setCoef c v).seq = s.seq := rfl
@[simp] theorem State.setCoef_entropy (s : State) (c : Nat) (v : Byte) : (s.setCoef c v).entropy = s.entropy := rfl
@[simp] theorem State.setCoef_schedule (s : State) (c : Nat) (v : Byte) : (s.setCoef c v).schedule = s.schedule := rfl
@[simp] theorem State.setCoef_rdata (s : State) (c : Nat) (v : Byte) : (s.setCoef c v).rdata = s.rdata := rfl
@[simp] theorem State.setCoef_epoch (s : State) (c : Nat) (v : Byte) : (s.setCoef c v).epoch = s.epoch := rfl
@[simp] theorem State.setCoef_residue (s : State) (c : Nat) (v : Byte) : (s.setCoef c v).residue = s.residue := rfl

/-! ### setPy -/

@[simp] theorem State.setPy_cfg (s : State) (i : Nat) (v : Byte) : (s.setPy i v).cfg = s.cfg := rfl
@[simp] theorem State.setPy_busy (s : State) (i : Nat) (v : Byte) : (s.setPy i v).busy = s.busy := rfl
@[simp] theorem State.setPy_done (s : State) (i : Nat) (v : Byte) : (s.setPy i v).done = s.done := rfl
@[simp] theorem State.setPy_fatal (s : State) (i : Nat) (v : Byte) : (s.setPy i v).fatal = s.fatal := rfl
@[simp] theorem State.setPy_herr (s : State) (i : Nat) (v : Byte) : (s.setPy i v).herr = s.herr := rfl
@[simp] theorem State.setPy_ecode (s : State) (i : Nat) (v : Byte) : (s.setPy i v).ecode = s.ecode := rfl
@[simp] theorem State.setPy_fcode (s : State) (i : Nat) (v : Byte) : (s.setPy i v).fcode = s.fcode := rfl
@[simp] theorem State.setPy_ie (s : State) (i : Nat) (v : Byte) : (s.setPy i v).ie = s.ie := rfl
@[simp] theorem State.setPy_result (s : State) (i : Nat) (v : Byte) : (s.setPy i v).result = s.result := rfl
@[simp] theorem State.setPy_len (s : State) (i : Nat) (v : Byte) : (s.setPy i v).len = s.len := rfl
@[simp] theorem State.setPy_shlen (s : State) (i : Nat) (v : Byte) : (s.setPy i v).shlen = s.shlen := rfl
@[simp] theorem State.setPy_xc (s : State) (i : Nat) (v : Byte) : (s.setPy i v).xc = s.xc := rfl
@[simp] theorem State.setPy_coef (s : State) (i : Nat) (v : Byte) : (s.setPy i v).coef = s.coef := rfl
@[simp] theorem State.setPy_py (s : State) (i : Nat) (v : Byte) : (s.setPy i v).py = setEntry s.py i v := rfl
@[simp] theorem State.setPy_mem (s : State) (i : Nat) (v : Byte) : (s.setPy i v).mem = s.mem := rfl
@[simp] theorem State.setPy_cmdl (s : State) (i : Nat) (v : Byte) : (s.setPy i v).cmdl = s.cmdl := rfl
@[simp] theorem State.setPy_seq (s : State) (i : Nat) (v : Byte) : (s.setPy i v).seq = s.seq := rfl
@[simp] theorem State.setPy_entropy (s : State) (i : Nat) (v : Byte) : (s.setPy i v).entropy = s.entropy := rfl
@[simp] theorem State.setPy_schedule (s : State) (i : Nat) (v : Byte) : (s.setPy i v).schedule = s.schedule := rfl
@[simp] theorem State.setPy_rdata (s : State) (i : Nat) (v : Byte) : (s.setPy i v).rdata = s.rdata := rfl
@[simp] theorem State.setPy_epoch (s : State) (i : Nat) (v : Byte) : (s.setPy i v).epoch = s.epoch := rfl
@[simp] theorem State.setPy_residue (s : State) (i : Nat) (v : Byte) : (s.setPy i v).residue = s.residue := rfl

/-! ### accept -/

@[simp] theorem State.accept_cfg (s : State) (w : Word) : (s.accept w).cfg = s.cfg := rfl
@[simp] theorem State.accept_busy (s : State) (w : Word) : (s.accept w).busy = true := rfl
@[simp] theorem State.accept_done (s : State) (w : Word) : (s.accept w).done = false := rfl
@[simp] theorem State.accept_fatal (s : State) (w : Word) : (s.accept w).fatal = s.fatal := rfl
@[simp] theorem State.accept_herr (s : State) (w : Word) : (s.accept w).herr = s.herr := rfl
@[simp] theorem State.accept_ecode (s : State) (w : Word) : (s.accept w).ecode = .ok := rfl
@[simp] theorem State.accept_fcode (s : State) (w : Word) : (s.accept w).fcode = s.fcode := rfl
@[simp] theorem State.accept_ie (s : State) (w : Word) : (s.accept w).ie = s.ie := rfl
@[simp] theorem State.accept_result (s : State) (w : Word) : (s.accept w).result = s.result := rfl
@[simp] theorem State.accept_len (s : State) (w : Word) : (s.accept w).len = s.len := rfl
@[simp] theorem State.accept_shlen (s : State) (w : Word) : (s.accept w).shlen = s.shlen := rfl
@[simp] theorem State.accept_xc (s : State) (w : Word) : (s.accept w).xc = s.xc := rfl
@[simp] theorem State.accept_coef (s : State) (w : Word) : (s.accept w).coef = s.coef := rfl
@[simp] theorem State.accept_py (s : State) (w : Word) : (s.accept w).py = s.py := rfl
@[simp] theorem State.accept_mem (s : State) (w : Word) : (s.accept w).mem = s.mem := rfl
@[simp] theorem State.accept_cmdl (s : State) (w : Word) : (s.accept w).cmdl = w := rfl
@[simp] theorem State.accept_seq (s : State) (w : Word) : (s.accept w).seq = Seq.start .decode := rfl
@[simp] theorem State.accept_entropy (s : State) (w : Word) : (s.accept w).entropy = s.entropy := rfl
@[simp] theorem State.accept_schedule (s : State) (w : Word) : (s.accept w).schedule = s.schedule := rfl
@[simp] theorem State.accept_rdata (s : State) (w : Word) : (s.accept w).rdata = s.rdata := rfl
@[simp] theorem State.accept_epoch (s : State) (w : Word) : (s.accept w).epoch = s.epoch := rfl
@[simp] theorem State.accept_residue (s : State) (w : Word) : (s.accept w).residue = s.residue := rfl

/-! ### endOk -/

@[simp] theorem State.endOk_cfg (s : State) : s.endOk.cfg = s.cfg := rfl
@[simp] theorem State.endOk_busy (s : State) : s.endOk.busy = false := rfl
@[simp] theorem State.endOk_done (s : State) : s.endOk.done = true := rfl
@[simp] theorem State.endOk_fatal (s : State) : s.endOk.fatal = s.fatal := rfl
@[simp] theorem State.endOk_herr (s : State) : s.endOk.herr = s.herr := rfl
@[simp] theorem State.endOk_ecode (s : State) : s.endOk.ecode = .ok := rfl
@[simp] theorem State.endOk_fcode (s : State) : s.endOk.fcode = s.fcode := rfl
@[simp] theorem State.endOk_ie (s : State) : s.endOk.ie = s.ie := rfl
@[simp] theorem State.endOk_result (s : State) : s.endOk.result = s.result := rfl
@[simp] theorem State.endOk_len (s : State) : s.endOk.len = s.len := rfl
@[simp] theorem State.endOk_shlen (s : State) : s.endOk.shlen = s.shlen := rfl
@[simp] theorem State.endOk_xc (s : State) : s.endOk.xc = s.xc := rfl
@[simp] theorem State.endOk_coef (s : State) : s.endOk.coef = s.coef := rfl
@[simp] theorem State.endOk_py (s : State) : s.endOk.py = s.py := rfl
@[simp] theorem State.endOk_mem (s : State) : s.endOk.mem = s.mem := rfl
@[simp] theorem State.endOk_cmdl (s : State) : s.endOk.cmdl = s.cmdl := rfl
@[simp] theorem State.endOk_seq (s : State) : s.endOk.seq = Seq.start .idle := rfl
@[simp] theorem State.endOk_entropy (s : State) : s.endOk.entropy = s.entropy := rfl
@[simp] theorem State.endOk_schedule (s : State) : s.endOk.schedule = s.schedule := rfl
@[simp] theorem State.endOk_rdata (s : State) : s.endOk.rdata = s.rdata := rfl
@[simp] theorem State.endOk_epoch (s : State) : s.endOk.epoch = s.epoch := rfl
@[simp] theorem State.endOk_residue (s : State) : s.endOk.residue = s.residue := rfl

/-! ### raiseError -/

@[simp] theorem State.raiseError_cfg (s : State) (e : ECode) : (s.raiseError e).cfg = s.cfg := rfl
@[simp] theorem State.raiseError_busy (s : State) (e : ECode) : (s.raiseError e).busy = false := rfl
@[simp] theorem State.raiseError_done (s : State) (e : ECode) : (s.raiseError e).done = true := rfl
@[simp] theorem State.raiseError_fatal (s : State) (e : ECode) : (s.raiseError e).fatal = s.fatal := rfl
@[simp] theorem State.raiseError_herr (s : State) (e : ECode) : (s.raiseError e).herr = s.herr := rfl
@[simp] theorem State.raiseError_ecode (s : State) (e : ECode) : (s.raiseError e).ecode = e := rfl
@[simp] theorem State.raiseError_fcode (s : State) (e : ECode) : (s.raiseError e).fcode = s.fcode := rfl
@[simp] theorem State.raiseError_ie (s : State) (e : ECode) : (s.raiseError e).ie = s.ie := rfl
@[simp] theorem State.raiseError_result (s : State) (e : ECode) : (s.raiseError e).result = s.result := rfl
@[simp] theorem State.raiseError_len (s : State) (e : ECode) : (s.raiseError e).len = s.len := rfl
@[simp] theorem State.raiseError_shlen (s : State) (e : ECode) : (s.raiseError e).shlen = s.shlen := rfl
@[simp] theorem State.raiseError_xc (s : State) (e : ECode) : (s.raiseError e).xc = s.xc := rfl
@[simp] theorem State.raiseError_coef (s : State) (e : ECode) : (s.raiseError e).coef = s.coef := rfl
@[simp] theorem State.raiseError_py (s : State) (e : ECode) : (s.raiseError e).py = s.py := rfl
@[simp] theorem State.raiseError_mem (s : State) (e : ECode) : (s.raiseError e).mem = s.mem := rfl
@[simp] theorem State.raiseError_cmdl (s : State) (e : ECode) : (s.raiseError e).cmdl = s.cmdl := rfl
@[simp] theorem State.raiseError_seq (s : State) (e : ECode) : (s.raiseError e).seq = Seq.start .idle := rfl
@[simp] theorem State.raiseError_entropy (s : State) (e : ECode) : (s.raiseError e).entropy = s.entropy := rfl
@[simp] theorem State.raiseError_schedule (s : State) (e : ECode) : (s.raiseError e).schedule = s.schedule := rfl
@[simp] theorem State.raiseError_rdata (s : State) (e : ECode) : (s.raiseError e).rdata = s.rdata := rfl
@[simp] theorem State.raiseError_epoch (s : State) (e : ECode) : (s.raiseError e).epoch = s.epoch := rfl
@[simp] theorem State.raiseError_residue (s : State) (e : ECode) : (s.raiseError e).residue = s.residue := rfl

/-! ### raiseFatal -/

@[simp] theorem State.raiseFatal_cfg (s : State) : s.raiseFatal.cfg = s.cfg := rfl
@[simp] theorem State.raiseFatal_busy (s : State) : s.raiseFatal.busy = false := rfl
@[simp] theorem State.raiseFatal_done (s : State) : s.raiseFatal.done = s.done := rfl
@[simp] theorem State.raiseFatal_fatal (s : State) : s.raiseFatal.fatal = true := rfl
@[simp] theorem State.raiseFatal_herr (s : State) : s.raiseFatal.herr = s.herr := rfl
@[simp] theorem State.raiseFatal_ecode (s : State) : s.raiseFatal.ecode = s.ecode := rfl
@[simp] theorem State.raiseFatal_fcode (s : State) : s.raiseFatal.fcode = .divideByZero := rfl
@[simp] theorem State.raiseFatal_ie (s : State) : s.raiseFatal.ie = s.ie := rfl
@[simp] theorem State.raiseFatal_result (s : State) : s.raiseFatal.result = s.result := rfl
@[simp] theorem State.raiseFatal_len (s : State) : s.raiseFatal.len = s.len := rfl
@[simp] theorem State.raiseFatal_shlen (s : State) : s.raiseFatal.shlen = s.shlen := rfl
@[simp] theorem State.raiseFatal_xc (s : State) : s.raiseFatal.xc = s.xc := rfl
@[simp] theorem State.raiseFatal_coef (s : State) : s.raiseFatal.coef = s.coef := rfl
@[simp] theorem State.raiseFatal_py (s : State) : s.raiseFatal.py = s.py := rfl
@[simp] theorem State.raiseFatal_mem (s : State) : s.raiseFatal.mem = s.mem := rfl
@[simp] theorem State.raiseFatal_cmdl (s : State) : s.raiseFatal.cmdl = s.cmdl := rfl
@[simp] theorem State.raiseFatal_seq (s : State) : s.raiseFatal.seq = Seq.start .halt := rfl
@[simp] theorem State.raiseFatal_entropy (s : State) : s.raiseFatal.entropy = s.entropy := rfl
@[simp] theorem State.raiseFatal_schedule (s : State) : s.raiseFatal.schedule = s.schedule := rfl
@[simp] theorem State.raiseFatal_rdata (s : State) : s.raiseFatal.rdata = s.rdata := rfl
@[simp] theorem State.raiseFatal_epoch (s : State) : s.raiseFatal.epoch = s.epoch := rfl
@[simp] theorem State.raiseFatal_residue (s : State) : s.raiseFatal.residue = s.residue := rfl

/-! ### writeStatus -/

@[simp] theorem State.writeStatus_cfg (s : State) (v : Word) : (s.writeStatus v).cfg = s.cfg := rfl
@[simp] theorem State.writeStatus_busy (s : State) (v : Word) : (s.writeStatus v).busy = s.busy := rfl
@[simp] theorem State.writeStatus_done (s : State) (v : Word) : (s.writeStatus v).done = (s.done && !v.getLsbD 1) := rfl
@[simp] theorem State.writeStatus_fatal (s : State) (v : Word) : (s.writeStatus v).fatal = s.fatal := rfl
@[simp] theorem State.writeStatus_herr (s : State) (v : Word) : (s.writeStatus v).herr = (s.herr && !v.getLsbD 3) := rfl
@[simp] theorem State.writeStatus_ecode (s : State) (v : Word) : (s.writeStatus v).ecode = s.ecode := rfl
@[simp] theorem State.writeStatus_fcode (s : State) (v : Word) : (s.writeStatus v).fcode = s.fcode := rfl
@[simp] theorem State.writeStatus_ie (s : State) (v : Word) : (s.writeStatus v).ie = s.ie := rfl
@[simp] theorem State.writeStatus_result (s : State) (v : Word) : (s.writeStatus v).result = s.result := rfl
@[simp] theorem State.writeStatus_len (s : State) (v : Word) : (s.writeStatus v).len = s.len := rfl
@[simp] theorem State.writeStatus_shlen (s : State) (v : Word) : (s.writeStatus v).shlen = s.shlen := rfl
@[simp] theorem State.writeStatus_xc (s : State) (v : Word) : (s.writeStatus v).xc = s.xc := rfl
@[simp] theorem State.writeStatus_coef (s : State) (v : Word) : (s.writeStatus v).coef = s.coef := rfl
@[simp] theorem State.writeStatus_py (s : State) (v : Word) : (s.writeStatus v).py = s.py := rfl
@[simp] theorem State.writeStatus_mem (s : State) (v : Word) : (s.writeStatus v).mem = s.mem := rfl
@[simp] theorem State.writeStatus_cmdl (s : State) (v : Word) : (s.writeStatus v).cmdl = s.cmdl := rfl
@[simp] theorem State.writeStatus_seq (s : State) (v : Word) : (s.writeStatus v).seq = s.seq := rfl
@[simp] theorem State.writeStatus_entropy (s : State) (v : Word) : (s.writeStatus v).entropy = s.entropy := rfl
@[simp] theorem State.writeStatus_schedule (s : State) (v : Word) : (s.writeStatus v).schedule = s.schedule := rfl
@[simp] theorem State.writeStatus_rdata (s : State) (v : Word) : (s.writeStatus v).rdata = s.rdata := rfl
@[simp] theorem State.writeStatus_epoch (s : State) (v : Word) : (s.writeStatus v).epoch = s.epoch := rfl
@[simp] theorem State.writeStatus_residue (s : State) (v : Word) : (s.writeStatus v).residue = s.residue := rfl

/-! ### writeCtrl -/

@[simp] theorem State.writeCtrl_cfg (s : State) (v : Word) : (s.writeCtrl v).cfg = s.cfg := rfl
@[simp] theorem State.writeCtrl_busy (s : State) (v : Word) : (s.writeCtrl v).busy = s.busy := rfl
@[simp] theorem State.writeCtrl_done (s : State) (v : Word) : (s.writeCtrl v).done = s.done := rfl
@[simp] theorem State.writeCtrl_fatal (s : State) (v : Word) : (s.writeCtrl v).fatal = s.fatal := rfl
@[simp] theorem State.writeCtrl_herr (s : State) (v : Word) : (s.writeCtrl v).herr = s.herr := rfl
@[simp] theorem State.writeCtrl_ecode (s : State) (v : Word) : (s.writeCtrl v).ecode = s.ecode := rfl
@[simp] theorem State.writeCtrl_fcode (s : State) (v : Word) : (s.writeCtrl v).fcode = s.fcode := rfl
@[simp] theorem State.writeCtrl_ie (s : State) (v : Word) : (s.writeCtrl v).ie = v.getLsbD 0 := rfl
@[simp] theorem State.writeCtrl_result (s : State) (v : Word) : (s.writeCtrl v).result = s.result := rfl
@[simp] theorem State.writeCtrl_len (s : State) (v : Word) : (s.writeCtrl v).len = s.len := rfl
@[simp] theorem State.writeCtrl_shlen (s : State) (v : Word) : (s.writeCtrl v).shlen = s.shlen := rfl
@[simp] theorem State.writeCtrl_xc (s : State) (v : Word) : (s.writeCtrl v).xc = s.xc := rfl
@[simp] theorem State.writeCtrl_coef (s : State) (v : Word) : (s.writeCtrl v).coef = s.coef := rfl
@[simp] theorem State.writeCtrl_py (s : State) (v : Word) : (s.writeCtrl v).py = s.py := rfl
@[simp] theorem State.writeCtrl_mem (s : State) (v : Word) : (s.writeCtrl v).mem = s.mem := rfl
@[simp] theorem State.writeCtrl_cmdl (s : State) (v : Word) : (s.writeCtrl v).cmdl = s.cmdl := rfl
@[simp] theorem State.writeCtrl_seq (s : State) (v : Word) : (s.writeCtrl v).seq = s.seq := rfl
@[simp] theorem State.writeCtrl_entropy (s : State) (v : Word) : (s.writeCtrl v).entropy = s.entropy := rfl
@[simp] theorem State.writeCtrl_schedule (s : State) (v : Word) : (s.writeCtrl v).schedule = s.schedule := rfl
@[simp] theorem State.writeCtrl_rdata (s : State) (v : Word) : (s.writeCtrl v).rdata = s.rdata := rfl
@[simp] theorem State.writeCtrl_epoch (s : State) (v : Word) : (s.writeCtrl v).epoch = s.epoch := rfl
@[simp] theorem State.writeCtrl_residue (s : State) (v : Word) : (s.writeCtrl v).residue = s.residue := rfl

/-! ### plan -/

@[simp] theorem State.plan_cfg (s : State) (events : List Event) : (s.plan events).cfg = s.cfg := rfl
@[simp] theorem State.plan_busy (s : State) (events : List Event) : (s.plan events).busy = s.busy := rfl
@[simp] theorem State.plan_done (s : State) (events : List Event) : (s.plan events).done = s.done := rfl
@[simp] theorem State.plan_fatal (s : State) (events : List Event) : (s.plan events).fatal = s.fatal := rfl
@[simp] theorem State.plan_herr (s : State) (events : List Event) : (s.plan events).herr = s.herr := rfl
@[simp] theorem State.plan_ecode (s : State) (events : List Event) : (s.plan events).ecode = s.ecode := rfl
@[simp] theorem State.plan_fcode (s : State) (events : List Event) : (s.plan events).fcode = s.fcode := rfl
@[simp] theorem State.plan_ie (s : State) (events : List Event) : (s.plan events).ie = s.ie := rfl
@[simp] theorem State.plan_result (s : State) (events : List Event) : (s.plan events).result = s.result := rfl
@[simp] theorem State.plan_len (s : State) (events : List Event) : (s.plan events).len = s.len := rfl
@[simp] theorem State.plan_shlen (s : State) (events : List Event) : (s.plan events).shlen = s.shlen := rfl
@[simp] theorem State.plan_xc (s : State) (events : List Event) : (s.plan events).xc = s.xc := rfl
@[simp] theorem State.plan_coef (s : State) (events : List Event) : (s.plan events).coef = s.coef := rfl
@[simp] theorem State.plan_py (s : State) (events : List Event) : (s.plan events).py = s.py := rfl
@[simp] theorem State.plan_mem (s : State) (events : List Event) : (s.plan events).mem = s.mem := rfl
@[simp] theorem State.plan_cmdl (s : State) (events : List Event) : (s.plan events).cmdl = s.cmdl := rfl
@[simp] theorem State.plan_seq (s : State) (events : List Event) : (s.plan events).seq = s.seq := rfl
@[simp] theorem State.plan_entropy (s : State) (events : List Event) : (s.plan events).entropy = s.entropy := rfl
@[simp] theorem State.plan_schedule (s : State) (events : List Event) : (s.plan events).schedule = events := rfl
@[simp] theorem State.plan_rdata (s : State) (events : List Event) : (s.plan events).rdata = s.rdata := rfl
@[simp] theorem State.plan_epoch (s : State) (events : List Event) : (s.plan events).epoch = s.epoch := rfl
@[simp] theorem State.plan_residue (s : State) (events : List Event) : (s.plan events).residue = s.residue := rfl

/-! ### goto -/

@[simp] theorem State.goto_cfg (s : State) (st : ST) : (s.goto st).cfg = s.cfg := rfl
@[simp] theorem State.goto_busy (s : State) (st : ST) : (s.goto st).busy = s.busy := rfl
@[simp] theorem State.goto_done (s : State) (st : ST) : (s.goto st).done = s.done := rfl
@[simp] theorem State.goto_fatal (s : State) (st : ST) : (s.goto st).fatal = s.fatal := rfl
@[simp] theorem State.goto_herr (s : State) (st : ST) : (s.goto st).herr = s.herr := rfl
@[simp] theorem State.goto_ecode (s : State) (st : ST) : (s.goto st).ecode = s.ecode := rfl
@[simp] theorem State.goto_fcode (s : State) (st : ST) : (s.goto st).fcode = s.fcode := rfl
@[simp] theorem State.goto_ie (s : State) (st : ST) : (s.goto st).ie = s.ie := rfl
@[simp] theorem State.goto_result (s : State) (st : ST) : (s.goto st).result = s.result := rfl
@[simp] theorem State.goto_len (s : State) (st : ST) : (s.goto st).len = s.len := rfl
@[simp] theorem State.goto_shlen (s : State) (st : ST) : (s.goto st).shlen = s.shlen := rfl
@[simp] theorem State.goto_xc (s : State) (st : ST) : (s.goto st).xc = s.xc := rfl
@[simp] theorem State.goto_coef (s : State) (st : ST) : (s.goto st).coef = s.coef := rfl
@[simp] theorem State.goto_py (s : State) (st : ST) : (s.goto st).py = s.py := rfl
@[simp] theorem State.goto_mem (s : State) (st : ST) : (s.goto st).mem = s.mem := rfl
@[simp] theorem State.goto_cmdl (s : State) (st : ST) : (s.goto st).cmdl = s.cmdl := rfl
@[simp] theorem State.goto_seq (s : State) (st : ST) : (s.goto st).seq = { s.seq with st := st } := rfl
@[simp] theorem State.goto_entropy (s : State) (st : ST) : (s.goto st).entropy = s.entropy := rfl
@[simp] theorem State.goto_schedule (s : State) (st : ST) : (s.goto st).schedule = s.schedule := rfl
@[simp] theorem State.goto_rdata (s : State) (st : ST) : (s.goto st).rdata = s.rdata := rfl
@[simp] theorem State.goto_epoch (s : State) (st : ST) : (s.goto st).epoch = s.epoch := rfl
@[simp] theorem State.goto_residue (s : State) (st : ST) : (s.goto st).residue = s.residue := rfl

/-! ### toFinish -/

@[simp] theorem State.toFinish_cfg (s : State) (e : ECode) : (s.toFinish e).cfg = s.cfg := rfl
@[simp] theorem State.toFinish_busy (s : State) (e : ECode) : (s.toFinish e).busy = s.busy := rfl
@[simp] theorem State.toFinish_done (s : State) (e : ECode) : (s.toFinish e).done = s.done := rfl
@[simp] theorem State.toFinish_fatal (s : State) (e : ECode) : (s.toFinish e).fatal = s.fatal := rfl
@[simp] theorem State.toFinish_herr (s : State) (e : ECode) : (s.toFinish e).herr = s.herr := rfl
@[simp] theorem State.toFinish_ecode (s : State) (e : ECode) : (s.toFinish e).ecode = s.ecode := rfl
@[simp] theorem State.toFinish_fcode (s : State) (e : ECode) : (s.toFinish e).fcode = s.fcode := rfl
@[simp] theorem State.toFinish_ie (s : State) (e : ECode) : (s.toFinish e).ie = s.ie := rfl
@[simp] theorem State.toFinish_result (s : State) (e : ECode) : (s.toFinish e).result = s.result := rfl
@[simp] theorem State.toFinish_len (s : State) (e : ECode) : (s.toFinish e).len = s.len := rfl
@[simp] theorem State.toFinish_shlen (s : State) (e : ECode) : (s.toFinish e).shlen = s.shlen := rfl
@[simp] theorem State.toFinish_xc (s : State) (e : ECode) : (s.toFinish e).xc = s.xc := rfl
@[simp] theorem State.toFinish_coef (s : State) (e : ECode) : (s.toFinish e).coef = s.coef := rfl
@[simp] theorem State.toFinish_py (s : State) (e : ECode) : (s.toFinish e).py = s.py := rfl
@[simp] theorem State.toFinish_mem (s : State) (e : ECode) : (s.toFinish e).mem = s.mem := rfl
@[simp] theorem State.toFinish_cmdl (s : State) (e : ECode) : (s.toFinish e).cmdl = s.cmdl := rfl
@[simp] theorem State.toFinish_seq (s : State) (e : ECode) : (s.toFinish e).seq = { s.seq with st := .finish, e := e } := rfl
@[simp] theorem State.toFinish_entropy (s : State) (e : ECode) : (s.toFinish e).entropy = s.entropy := rfl
@[simp] theorem State.toFinish_schedule (s : State) (e : ECode) : (s.toFinish e).schedule = s.schedule := rfl
@[simp] theorem State.toFinish_rdata (s : State) (e : ECode) : (s.toFinish e).rdata = s.rdata := rfl
@[simp] theorem State.toFinish_epoch (s : State) (e : ECode) : (s.toFinish e).epoch = s.epoch := rfl
@[simp] theorem State.toFinish_residue (s : State) (e : ECode) : (s.toFinish e).residue = s.residue := rfl

/-! ### toCoef -/

@[simp] theorem State.toCoef_cfg (s : State) (i : Nat) : (s.toCoef i).cfg = s.cfg := rfl
@[simp] theorem State.toCoef_busy (s : State) (i : Nat) : (s.toCoef i).busy = s.busy := rfl
@[simp] theorem State.toCoef_done (s : State) (i : Nat) : (s.toCoef i).done = s.done := rfl
@[simp] theorem State.toCoef_fatal (s : State) (i : Nat) : (s.toCoef i).fatal = s.fatal := rfl
@[simp] theorem State.toCoef_herr (s : State) (i : Nat) : (s.toCoef i).herr = s.herr := rfl
@[simp] theorem State.toCoef_ecode (s : State) (i : Nat) : (s.toCoef i).ecode = s.ecode := rfl
@[simp] theorem State.toCoef_fcode (s : State) (i : Nat) : (s.toCoef i).fcode = s.fcode := rfl
@[simp] theorem State.toCoef_ie (s : State) (i : Nat) : (s.toCoef i).ie = s.ie := rfl
@[simp] theorem State.toCoef_result (s : State) (i : Nat) : (s.toCoef i).result = s.result := rfl
@[simp] theorem State.toCoef_len (s : State) (i : Nat) : (s.toCoef i).len = s.len := rfl
@[simp] theorem State.toCoef_shlen (s : State) (i : Nat) : (s.toCoef i).shlen = s.shlen := rfl
@[simp] theorem State.toCoef_xc (s : State) (i : Nat) : (s.toCoef i).xc = s.xc := rfl
@[simp] theorem State.toCoef_coef (s : State) (i : Nat) : (s.toCoef i).coef = s.coef := rfl
@[simp] theorem State.toCoef_py (s : State) (i : Nat) : (s.toCoef i).py = s.py := rfl
@[simp] theorem State.toCoef_mem (s : State) (i : Nat) : (s.toCoef i).mem = s.mem := rfl
@[simp] theorem State.toCoef_cmdl (s : State) (i : Nat) : (s.toCoef i).cmdl = s.cmdl := rfl
@[simp] theorem State.toCoef_seq (s : State) (i : Nat) : (s.toCoef i).seq = { s.seq with st := .spCoef, i := i, c := 0 } := rfl
@[simp] theorem State.toCoef_entropy (s : State) (i : Nat) : (s.toCoef i).entropy = s.entropy := rfl
@[simp] theorem State.toCoef_schedule (s : State) (i : Nat) : (s.toCoef i).schedule = s.schedule := rfl
@[simp] theorem State.toCoef_rdata (s : State) (i : Nat) : (s.toCoef i).rdata = s.rdata := rfl
@[simp] theorem State.toCoef_epoch (s : State) (i : Nat) : (s.toCoef i).epoch = s.epoch := rfl
@[simp] theorem State.toCoef_residue (s : State) (i : Nat) : (s.toCoef i).residue = s.residue := rfl

/-! ### resetEvent -/

@[simp] theorem State.resetEvent_cfg (s : State) : s.resetEvent.cfg = s.cfg := rfl
@[simp] theorem State.resetEvent_busy (s : State) : s.resetEvent.busy = false := rfl
@[simp] theorem State.resetEvent_done (s : State) : s.resetEvent.done = false := rfl
@[simp] theorem State.resetEvent_fatal (s : State) : s.resetEvent.fatal = false := rfl
@[simp] theorem State.resetEvent_herr (s : State) : s.resetEvent.herr = false := rfl
@[simp] theorem State.resetEvent_ecode (s : State) : s.resetEvent.ecode = .ok := rfl
@[simp] theorem State.resetEvent_fcode (s : State) : s.resetEvent.fcode = .none := rfl
@[simp] theorem State.resetEvent_ie (s : State) : s.resetEvent.ie = false := rfl
@[simp] theorem State.resetEvent_result (s : State) : s.resetEvent.result = 0 := rfl
@[simp] theorem State.resetEvent_len (s : State) : s.resetEvent.len = 0 := rfl
@[simp] theorem State.resetEvent_shlen (s : State) : s.resetEvent.shlen = Vector.replicate Config.slotCount 0 := rfl
@[simp] theorem State.resetEvent_xc (s : State) : s.resetEvent.xc = unspecifiedArray (Config.residue s) 0x200 := rfl
@[simp] theorem State.resetEvent_coef (s : State) : s.resetEvent.coef = unspecifiedArray (Config.residue s) 0x300 := rfl
@[simp] theorem State.resetEvent_py (s : State) : s.resetEvent.py = unspecifiedArray (Config.residue s) 0x400 := rfl
@[simp] theorem State.resetEvent_mem (s : State) : s.resetEvent.mem = [] := rfl
@[simp] theorem State.resetEvent_cmdl (s : State) : s.resetEvent.cmdl = Config.unspecified (Config.residue s) 0 := rfl
@[simp] theorem State.resetEvent_seq (s : State) : s.resetEvent.seq = Seq.start .idle := rfl
@[simp] theorem State.resetEvent_entropy (s : State) : s.resetEvent.entropy = s.entropy := rfl
@[simp] theorem State.resetEvent_schedule (s : State) : s.resetEvent.schedule = s.schedule := rfl
@[simp] theorem State.resetEvent_rdata (s : State) : s.resetEvent.rdata = s.rdata := rfl
@[simp] theorem State.resetEvent_epoch (s : State) : s.resetEvent.epoch = s.epoch + 1 := rfl
@[simp] theorem State.resetEvent_residue (s : State) : s.resetEvent.residue = Config.residue s := rfl

end Sys2Proof.Machine
end

