-- ==== Sys2Proof/Laws/Memory.lean ====
section
/-! SUPPORT. Buffer memory and the register arrays: read after write, and that every write keeps the canonical form. -/

namespace Sys2Proof.Machine

/-! ### The list -/

/-- A write gives the written byte at its address and leaves every other address alone. -/
theorem Memory.lookup_store (m : Memory) (h : Memory.wf m) (a : Nat) (b : Byte) (x : Nat) :
    Memory.lookup (Memory.store m a b) x = if x = a then some b else Memory.lookup m x := by
  induction m with
  | nil => simp [Memory.store, Memory.lookup, eq_comm]
  | cons p m ih =>
    obtain ⟨k, v⟩ := p
    have hm : Memory.wf m := (List.pairwise_cons.mp h).2
    by_cases h1 : a < k
    · by_cases hx : x = a
      · simp [Memory.store, Memory.lookup, h1, hx]
      · simp [Memory.store, Memory.lookup, h1, hx, Ne.symm hx]
    · by_cases h2 : a = k
      · subst h2
        by_cases hx : x = a
        · simp [Memory.store, Memory.lookup, hx]
        · simp [Memory.store, Memory.lookup, hx, Ne.symm hx]
      · have hs : Memory.store ((k, v) :: m) a b = (k, v) :: Memory.store m a b := by simp [Memory.store, h1, h2]
        rw [hs]
        by_cases hk : k = x
        · have hx : x ≠ a := fun e => h2 (e.symm.trans hk.symm)
          simp [Memory.lookup, hk, hx]
        · simp [Memory.lookup, hk, ih hm]

/-- Which addresses a memory lists after a write. -/
theorem Memory.mem_store (m : Memory) (a : Nat) (b : Byte) (p : Host.Cell) (hp : p ∈ Memory.store m a b) :
    p = (a, b) ∨ p ∈ m := by
  induction m with
  | nil => exact .inl (List.mem_singleton.mp hp)
  | cons q m ih =>
    obtain ⟨k, v⟩ := q
    simp only [Memory.store] at hp
    split_ifs at hp with h1 h2
    · exact List.mem_cons.mp hp
    · rcases List.mem_cons.mp hp with h | h
      · exact .inl h
      · exact .inr (List.mem_cons_of_mem _ h)
    · rcases List.mem_cons.mp hp with h | h
      · exact .inr (h ▸ List.mem_cons_self)
      · exact (ih h).imp id (List.mem_cons_of_mem _)

/-- A write keeps the canonical form. -/
theorem Memory.wf_store (m : Memory) (h : Memory.wf m) (a : Nat) (b : Byte) : Memory.wf (Memory.store m a b) := by
  induction m with
  | nil => exact List.pairwise_singleton _ _
  | cons p m ih =>
    obtain ⟨k, v⟩ := p
    obtain ⟨hk, hm⟩ := List.pairwise_cons.mp h
    simp only [Memory.store]
    split_ifs with h1 h2
    · refine List.pairwise_cons.mpr ⟨fun q hq => ?_, h⟩
      rcases List.mem_cons.mp hq with rfl | hq
      · exact h1
      · exact Nat.lt_trans h1 (hk q hq)
    · subst h2
      exact List.pairwise_cons.mpr ⟨hk, hm⟩
    · refine List.pairwise_cons.mpr ⟨fun q hq => ?_, ih hm⟩
      rcases Memory.mem_store m a b q hq with rfl | hq
      · show k < a
        omega
      · exact hk q hq

/-- The memory right after reset is in canonical form. -/
theorem reset_wf : Memory.wf State.reset.mem := List.Pairwise.nil

/-! ### The state's memory -/

/-- `MemRead` after `MemWrite`: the written byte at its address, the old byte everywhere else. -/
theorem State.memRead_memWrite (s : State) (h : Memory.wf s.mem) (a : Nat) (v : Byte) (x : Nat) :
    (s.memWrite a v).memRead x = if x = a then v else s.memRead x := by
  unfold State.memRead
  rw [State.memWrite_mem, Memory.lookup_store s.mem h]
  split_ifs <;> rfl

/-- `MemWrite` keeps the canonical form. -/
theorem State.memWrite_wf (s : State) (h : Memory.wf s.mem) (a : Nat) (v : Byte) : Memory.wf (s.memWrite a v).mem :=
  Memory.wf_store s.mem h a v

/-- Share addresses are as different as their slots and offsets. -/
theorem shareAddr_inj {j o j' o' : Nat} (ho : o < 0x10000) (ho' : o' < 0x10000) :
    shareAddr j o = shareAddr j' o' ↔ j = j' ∧ o = o' := by
  unfold shareAddr
  omega

/-- No share cell is a secret cell. -/
theorem shareAddr_ne_secretAddr {j o : Nat} (hj : j < 256) (ho : o < 0x10000) (x : Nat) :
    shareAddr j o ≠ secretAddr x := by
  unfold shareAddr secretAddr
  omega

theorem secretAddr_inj {o o' : Nat} : secretAddr o = secretAddr o' ↔ o = o' := by
  unfold secretAddr
  omega

/-! ### Register arrays -/

theorem entry_setEntry {w : Nat} (v : Vector (BitVec w) Config.slotCount) (i : Nat) (x : BitVec w) (hi : i < 256) (j : Nat) :
    entry (setEntry v i x) j = if j = i then x else entry v j := by
  unfold entry setEntry
  rw [Vector.getElem?_setIfInBounds]
  by_cases h : i = j
  · simp [h, h ▸ hi]
  · simp [h, Ne.symm h]

@[simp] theorem entry_replicate_zero {w : Nat} (j : Nat) : entry (Vector.replicate Config.slotCount (0 : BitVec w)) j = 0 := by
  unfold entry
  by_cases h : j < 256
  · rw [Vector.getElem?_eq_getElem h]
    simp
  · rw [Vector.getElem?_eq_none (Nat.le_of_not_lt h)]
    rfl

/-- Two register arrays with the same entries are the same. -/
theorem entry_ext {w : Nat} {v v' : Vector (BitVec w) Config.slotCount} (h : ∀ i, i < 256 → entry v i = entry v' i) : v = v' := by
  apply Vector.ext
  intro i hi
  have := h i hi
  unfold entry at this
  simpa [Vector.getElem?_eq_getElem hi] using this

/-- An entry after a reset event is a free value. -/
theorem entry_unspecifiedArray (residue base i : Nat) (hi : i < 256) :
    entry (unspecifiedArray residue base) i = (Config.unspecified residue (base + i)).setWidth 8 := by
  unfold entry unspecifiedArray
  rw [Vector.getElem?_eq_getElem hi]
  simp

end Sys2Proof.Machine
end

