-- ==== Sys2Proof/Laws/Pseudocode.lean ====
section
/-! SUPPORT. What the pseudocode's glue can do: sequencing, loops, draws, and the end of a command. Proofs about a
command cite these lemmas instead of unfolding the glue. -/

namespace Sys2Proof.Machine

/-! ### Sequencing and loops -/

theorem Body.andThen_ok {p q : Body} {s t : State} (h : p s = (.ok, t)) : Body.andThen p q s = q t := by
  simp [Body.andThen, h]

theorem Body.andThen_stop {p q : Body} {s t : State} {x : Exit} (h : p s = (x, t)) (hx : x ≠ .ok) :
    Body.andThen p q s = (x, t) := by
  cases x <;> simp_all [Body.andThen]

/-- Everything `p; q` can do. -/
theorem Body.andThen_cases (p q : Body) (s : State) :
    (∃ t, p s = (.ok, t) ∧ Body.andThen p q s = q t) ∨ ((p s).1 ≠ .ok ∧ Body.andThen p q s = p s) := by
  by_cases h : (p s).1 = .ok
  · exact .inl ⟨(p s).2, Prod.ext h rfl, Body.andThen_ok (Prod.ext h rfl)⟩
  · exact .inr ⟨h, Body.andThen_stop rfl h⟩

@[simp] theorem forEach_nil (f : Nat → Body) (s : State) : forEach [] f s = (.ok, s) := rfl

@[simp] theorem forEach_cons (i : Nat) (is : List Nat) (f : Nat → Body) (s : State) :
    forEach (i :: is) f s = Body.andThen (f i) (forEach is f) s := rfl

/-- A loop over `is ++ js` is the loop over `is`, then the loop over `js`. -/
theorem forEach_append (is js : List Nat) (f : Nat → Body) (s : State) :
    forEach (is ++ js) f s = Body.andThen (forEach is f) (forEach js f) s := by
  induction is generalizing s with
  | nil => rfl
  | cons i is ih =>
    rw [List.cons_append, forEach_cons]
    rcases Body.andThen_cases (f i) (forEach (is ++ js) f) s with ⟨t, ht, h⟩ | ⟨hx, h⟩
    · rw [h, ih t]
      simp [Body.andThen, ht]
    · have h2 : forEach (i :: is) f s = f i s := by
        rcases Body.andThen_cases (f i) (forEach is f) s with ⟨t, ht, _⟩ | ⟨_, h2⟩
        · simp [ht] at hx
        · exact h2
      rw [h, ← h2]
      rcases Body.andThen_cases (forEach (i :: is) f) (forEach js f) s with ⟨t, ht, _⟩ | ⟨_, h3⟩
      · rw [h2] at ht
        simp [ht] at hx
      · exact h3.symm

/-- A relation that every pass of a loop keeps, and that composes, holds between the start and the end of the loop,
however it leaves off. -/
theorem forEach_rel {R : State → State → Prop} (refl : ∀ s, R s s) (trans : ∀ {a b c}, R a b → R b c → R a c)
    (is : List Nat) (f : Nat → Body) (hf : ∀ i ∈ is, ∀ s, R s (f i s).2) (s : State) : R s (forEach is f s).2 := by
  induction is generalizing s with
  | nil => exact refl s
  | cons i is ih =>
    have hi := hf i List.mem_cons_self
    have ih' := fun t => ih (fun j hj => hf j (List.mem_cons_of_mem _ hj)) t
    rw [forEach_cons]
    rcases Body.andThen_cases (f i) (forEach is f) s with ⟨t, ht, h⟩ | ⟨_, h⟩
    · rw [h]
      have h1 := hi s
      rw [ht] at h1
      exact trans h1 (ih' t)
    · rw [h]
      exact hi s

/-- A property that every pass of a loop keeps holds at the end of the loop, however it leaves off. -/
theorem forEach_inv {P : State → Prop} (is : List Nat) (f : Nat → Body) (hf : ∀ i ∈ is, ∀ s, P s → P (f i s).2)
    (s : State) (hs : P s) : P (forEach is f s).2 := by
  induction is generalizing s with
  | nil => exact hs
  | cons i is ih =>
    have ih' := fun t => ih (fun j hj => hf j (List.mem_cons_of_mem _ hj)) t
    rw [forEach_cons]
    rcases Body.andThen_cases (f i) (forEach is f) s with ⟨t, ht, h⟩ | ⟨_, h⟩
    · rw [h]
      have h1 := hf i List.mem_cons_self s hs
      rw [ht] at h1
      exact ih' t h1
    · rw [h]
      exact hf i List.mem_cons_self s hs

/-- A property that every pass of a silent loop keeps holds at its end. -/
theorem foldl_inv {P : State → Prop} (js : List Nat) (g : State → Nat → State) (hg : ∀ j ∈ js, ∀ s, P s → P (g s j))
    (s : State) (hs : P s) : P (js.foldl g s) := by
  induction js generalizing s with
  | nil => exact hs
  | cons j js ih =>
    exact ih (fun i hi => hg i (List.mem_cons_of_mem _ hi)) (g s j) (hg j List.mem_cons_self s hs)

theorem mem_downFrom {n t : Nat} : t ∈ downFrom n ↔ 1 ≤ t ∧ t ≤ n := by
  induction n with
  | zero => simp [downFrom]; omega
  | succ n ih =>
    rw [downFrom, List.mem_cons, ih]
    omega

theorem getElem?_downFrom (n q : Nat) (h : q < n) : (downFrom n)[q]? = some (n - q) := by
  induction n generalizing q with
  | zero => omega
  | succ n ih =>
    cases q with
    | zero => rfl
    | succ q =>
      rw [downFrom, List.getElem?_cons_succ, ih q (by omega)]
      congr 1
      omega

theorem length_downFrom (n : Nat) : (downFrom n).length = n := by
  induction n with
  | zero => rfl
  | succ n ih => rw [downFrom, List.length_cons, ih]

/-! ### Draws -/

/-- Everything a draw can do: it consumes at most the first answer, and changes nothing else. -/
theorem State.rngDraw_cases (s : State) :
    (s.entropy = [] ∧ s.rngDraw = .waiting) ∨
    (∃ rest, s.entropy = .fail :: rest ∧ s.rngDraw = .fail { s with entropy := rest }) ∨
    (∃ b rest, s.entropy = .ok b :: rest ∧ s.rngDraw = .byte b { s with entropy := rest }) := by
  unfold State.rngDraw
  rcases h : s.entropy with _ | ⟨_ | _, rest⟩
  · exact .inl ⟨rfl, rfl⟩
  · exact .inr (.inr ⟨_, rest, rfl, rfl⟩)
  · exact .inr (.inl ⟨rest, rfl, rfl⟩)

/-- Everything one coefficient draw can do (R150). -/
theorem drawCoef_cases (c : Nat) (s : State) :
    (s.entropy = [] ∧ drawCoef c s = (.waiting, s)) ∨
    (∃ rest, s.entropy = .fail :: rest ∧ drawCoef c s = (.error .randomnessFailure, { s with entropy := rest })) ∨
    (∃ b rest, s.entropy = .ok b :: rest ∧
      drawCoef c s = (.ok, { s with entropy := rest, coef := setEntry s.coef c b })) := by
  unfold drawCoef
  rcases s.rngDraw_cases with ⟨h, hd⟩ | ⟨rest, h, hd⟩ | ⟨b, rest, h, hd⟩
  · exact .inl ⟨h, by rw [hd]⟩
  · exact .inr (.inl ⟨rest, h, by rw [hd]⟩)
  · exact .inr (.inr ⟨b, rest, h, by rw [hd]; rfl⟩)

/-- Everything an index draw can do (R199): it changes the entropy alone; an accepted index is at most `t`; it takes
between one and `tries` answers when it gives an index, and at most `tries` when it fails. -/
theorem drawIndex_cases (t tries : Nat) (s : State) :
    (drawIndex t tries s = .waiting ∧ s.entropy.length < tries) ∨
    (∃ taken rest, s.entropy = taken ++ rest ∧ taken.length ≤ tries ∧
      drawIndex t tries s = .fail { s with entropy := rest }) ∨
    (∃ taken rest r, s.entropy = taken ++ rest ∧ 1 ≤ taken.length ∧ taken.length ≤ tries ∧ r.toNat ≤ t ∧
      drawIndex t tries s = .byte r { s with entropy := rest }) := by
  induction tries generalizing s with
  | zero => exact .inr (.inl ⟨[], s.entropy, rfl, Nat.le_refl _, rfl⟩)
  | succ tries ih =>
    rcases s.rngDraw_cases with ⟨h, hd⟩ | ⟨rest, h, hd⟩ | ⟨b, rest, h, hd⟩
    · exact .inl ⟨by simp [drawIndex, hd], by simp [h]⟩
    · exact .inr (.inl ⟨[.fail], rest, by simp [h], by simp, by simp [drawIndex, hd]⟩)
    · by_cases hb : drawnIndex t b ≤ t
      · exact .inr (.inr ⟨[.ok b], rest, b &&& drawMask t, by simp [h], by simp, by simp, hb, by simp [drawIndex, hd, hb]⟩)
      · have hrec : drawIndex t (tries + 1) s = drawIndex t tries { s with entropy := rest } := by
          simp [drawIndex, hd, hb]
        rw [hrec]
        rcases ih { s with entropy := rest } with ⟨h1, h2⟩ | ⟨taken, r', h1, h2, h3⟩ | ⟨taken, r', r, h1, h2, h3, h4, h5⟩
        · exact .inl ⟨h1, by simp only [h, List.length_cons]; exact Nat.succ_lt_succ h2⟩
        · exact .inr (.inl ⟨.ok b :: taken, r', by rw [h]; simp only [List.cons_append, ← h1], by simp; omega, h3⟩)
        · exact .inr (.inr ⟨.ok b :: taken, r', r, by rw [h]; simp only [List.cons_append, ← h1], by simp, by simp; omega, h4, h5⟩)

/-! ### The end of a command -/

/-- Everything a command can answer: one of the three ends, or the same state while a draw is unanswered. It never
faults and never refuses. -/
theorem runCommand_cases (body : Body) (s : State) :
    (∃ t, body s = (.ok, t) ∧ runCommand body s = .next t.endOk) ∨
    (∃ e t, body s = (.error e, t) ∧ runCommand body s = .next (t.raiseError e)) ∨
    (∃ t, body s = (.fatal, t) ∧ runCommand body s = .next t.raiseFatal) ∨
    (∃ t, body s = (.waiting, t) ∧ runCommand body s = .next s) := by
  unfold runCommand
  rcases h : body s with ⟨_ | e | _ | _, t⟩
  · exact .inl ⟨t, rfl, rfl⟩
  · exact .inr (.inl ⟨e, t, rfl, rfl⟩)
  · exact .inr (.inr (.inl ⟨t, rfl, rfl⟩))
  · exact .inr (.inr (.inr ⟨t, rfl, rfl⟩))

theorem runCommand_ok {body : Body} {s t : State} (h : body s = (.ok, t)) : runCommand body s = .next t.endOk := by
  simp [runCommand, h]

theorem runCommand_error {body : Body} {s t : State} {e : ECode} (h : body s = (.error e, t)) :
    runCommand body s = .next (t.raiseError e) := by
  simp [runCommand, h]

theorem runCommand_fatal {body : Body} {s t : State} (h : body s = (.fatal, t)) :
    runCommand body s = .next t.raiseFatal := by
  simp [runCommand, h]

theorem runCommand_waiting {body : Body} {s t : State} (h : body s = (.waiting, t)) : runCommand body s = .next s := by
  simp [runCommand, h]

/-! ### Results -/

@[simp] theorem putResult_none (s : State) : putResult none s = (.fatal, s) := rfl

@[simp] theorem putResult_some (r : Byte) (s : State) : putResult (some r) s = (.ok, s.setResult r) := rfl

theorem withCount_legal {cnt : BitVec 12} (h : countLegal cnt = true) (body : Body) (s : State) :
    withCount cnt body s = body s := by
  simp [withCount, h]

theorem withCount_illegal {cnt : BitVec 12} (h : countLegal cnt = false) (body : Body) (s : State) :
    withCount cnt body s = (.error .illegalCommand, s) := by
  simp [withCount, h]

theorem countLegal_iff (cnt : BitVec 12) : countLegal cnt = true ↔ 1 ≤ cnt.toNat ∧ cnt.toNat ≤ 256 := by
  simp [countLegal]
  omega

theorem gfInv_eq_none (poly : BitVec 9) (a : Byte) : gfInv poly a = none ↔ a = 0 := by
  unfold gfInv
  by_cases h : a = 0 <;> simp_all

theorem gfDiv_eq_none (poly : BitVec 9) (a b : Byte) : gfDiv poly a b = none ↔ b = 0 := by
  unfold gfDiv
  rcases h : gfInv poly b with _ | r
  · simpa using (gfInv_eq_none poly b).mp h
  · simpa using fun hb : b = 0 => by simp [(gfInv_eq_none poly b).mpr hb] at h

end Sys2Proof.Machine
end

