-- ==== Sys2Proof/Laws/Commands.lean ====
section
/-! SUPPORT. What the pieces of the commands do: one lemma for the part of the state each writes, and one for what it
writes there. -/

namespace Sys2Proof.Machine

/-! ### Generate -/

/-- `Generate` over answers that do not fail: it writes them in order and touches nothing else (R150). -/
theorem drawCoefs_ok (start : Nat) (bytes : List Byte) (rest : List Answer) (s : State)
    (h : s.entropy = bytes.map .ok ++ rest) :
    forEach (List.range' start bytes.length) drawCoef s =
      (.ok, { s with entropy := rest, coef := (bytes.zipIdx start).foldl (fun v p => setEntry v p.2 p.1) s.coef }) := by
  induction bytes generalizing start s with
  | nil =>
    simp only [List.map_nil, List.nil_append] at h
    simp [h.symm]
  | cons b bytes ih =>
    have hd : drawCoef start s = (.ok, { s with entropy := bytes.map .ok ++ rest, coef := setEntry s.coef start b }) := by
      rcases drawCoef_cases start s with ⟨h', _⟩ | ⟨_, h', _⟩ | ⟨b', r', h', hd⟩
      · simp [h] at h'
      · simp [h] at h'
      · rw [h] at h'
        simp only [List.map_cons, List.cons_append, List.cons.injEq, Answer.ok.injEq] at h'
        rw [hd, ← h'.1, ← h'.2]
    rw [List.length_cons, List.range'_succ, forEach_cons, Body.andThen_ok hd, ih (start + 1) _ rfl]
    simp

/-- The entries that a run of writes with rising indices leaves. -/
theorem entry_writes (start : Nat) (bytes : List Byte) (v : Vector Byte Config.slotCount) (hlen : start + bytes.length ≤ 256) (c : Nat) :
    entry ((bytes.zipIdx start).foldl (fun v p => setEntry v p.2 p.1) v) c =
      if start ≤ c ∧ c < start + bytes.length then bytes.getD (c - start) 0 else entry v c := by
  induction bytes generalizing start v with
  | nil => simp
  | cons b bytes ih =>
    simp only [List.length_cons] at hlen ⊢
    rw [List.zipIdx_cons, List.foldl_cons, ih (start + 1) _ (by omega), entry_setEntry _ _ _ (by omega)]
    by_cases hc : c = start
    · subst hc
      simp
    · by_cases h1 : start + 1 ≤ c ∧ c < start + 1 + bytes.length
      · have h2 : start ≤ c ∧ c < start + (bytes.length + 1) := by omega
        have h3 : c - start = (c - (start + 1)) + 1 := by omega
        rw [if_pos h1, if_pos h2, h3, List.getD_cons_succ]
      · have h2 : ¬(start ≤ c ∧ c < start + (bytes.length + 1)) := by omega
        rw [if_neg h1, if_neg h2, if_neg hc]

/-- However `Generate` leaves off, it writes `COEF` and consumes answers, and nothing else. -/
theorem generate_frame (cnt : Nat) (c0 : Byte) (s : State) :
    (generate cnt c0 s).2 = { s with coef := (generate cnt c0 s).2.coef, entropy := (generate cnt c0 s).2.entropy } := by
  unfold generate
  have key := forEach_rel (R := fun a b : State => b = { a with coef := b.coef, entropy := b.entropy })
    (fun _ => rfl) (fun {a b c} hab hbc => by rw [hbc, hab]) (List.range' 1 (cnt - 1)) drawCoef
    (fun c _ t => by
      rcases drawCoef_cases c t with ⟨_, hd⟩ | ⟨_, _, hd⟩ | ⟨_, _, _, hd⟩ <;> rw [hd])
    (s.setCoef 0 c0)
  exact key

/-! ### SPLIT -/

theorem identityXc_frame (s : State) : identityXc s = { s with xc := (identityXc s).xc } :=
  foldl_inv (P := fun t => t = { s with xc := t.xc }) _ _ (fun j _ t ht => by rw [ht]; rfl) s rfl

theorem evalShares_frame (n k i : Nat) (s : State) : evalShares n k i s = { s with mem := (evalShares n k i s).mem } :=
  foldl_inv (P := fun t => t = { s with mem := t.mem }) _ _ (fun j _ t ht => by rw [ht]; rfl) s rfl

theorem tailShares_frame (n : Nat) (s : State) : tailShares n s = { s with mem := (tailShares n s).mem } :=
  foldl_inv (P := fun t => t = { s with mem := t.mem }) _ _ (fun j _ t ht => by rw [ht]; rfl) s rfl

theorem markShares_frame (n : Nat) (s : State) : markShares n s = { s with shlen := (markShares n s).shlen } :=
  foldl_inv (P := fun t => t = { s with shlen := t.shlen }) _ _ (fun j _ t ht => by rw [ht]; rfl) s rfl

/-- The identity arrangement of R197: `XC[t] = t + 1` below 255, and `XC[255]` as it was. -/
theorem identityXc_entry (s : State) (j : Nat) :
    entry (identityXc s).xc j = if j < 255 then BitVec.ofNat 8 (j + 1) else entry s.xc j := by
  have key : ∀ n, n ≤ 255 → ∀ j, entry ((List.range n).foldl (fun s t => s.setXc t (BitVec.ofNat 8 (t + 1))) s).xc j =
      if j < n then BitVec.ofNat 8 (j + 1) else entry s.xc j := by
    intro n
    induction n with
    | zero => intro _ j; simp
    | succ n ih =>
      intro hn j
      rw [List.range_succ, List.foldl_append, List.foldl_cons, List.foldl_nil, State.setXc_xc,
        entry_setEntry _ _ _ (by omega), ih (by omega) j]
      by_cases h : j = n
      · simp [h]
      · by_cases h2 : j < n
        · simp [h, h2, Nat.lt_succ_of_lt h2]
        · have h3 : ¬ j < n + 1 := by omega
          simp [h, h2, h3]
  exact key 255 (Nat.le_refl _) j

/-- The exchange of R198: the two entries change places, and no other changes. -/
theorem exchangeXc_entry (t r : Nat) (ht : t < 256) (hr : r < 256) (s : State) (j : Nat) :
    entry (exchangeXc t r s).xc j = if j = r then entry s.xc t else if j = t then entry s.xc r else entry s.xc j := by
  unfold exchangeXc
  rw [State.setXc_xc, entry_setEntry _ _ _ hr, State.setXc_xc, entry_setEntry _ _ _ ht]

theorem exchangeXc_frame (t r : Nat) (s : State) : exchangeXc t r s = { s with xc := (exchangeXc t r s).xc } := rfl

/-- Everything one `t` of the shuffle can do: it waits, fails with answers consumed and nothing else changed, or
consumes answers and exchanges `XC[t]` with some `XC[r]`, `r ≤ t`. -/
theorem shuffleAt_cases (t : Nat) (s : State) :
    (shuffleAt t s = (.waiting, s)) ∨
    (∃ rest, shuffleAt t s = (.error .randomnessFailure, { s with entropy := rest })) ∨
    (∃ r rest, r ≤ t ∧ shuffleAt t s = (.ok, exchangeXc t r { s with entropy := rest })) := by
  unfold shuffleAt
  rcases drawIndex_cases t s.cfg.rejLimit s with ⟨h, _⟩ | ⟨_, rest, _, _, h⟩ | ⟨_, rest, r, _, _, _, hr, h⟩
  · exact .inl (by rw [h])
  · exact .inr (.inl ⟨rest, by rw [h]⟩)
  · exact .inr (.inr ⟨r.toNat, rest, hr, by rw [h]⟩)

/-- However the shuffle leaves off, it permutes `XC` and consumes answers, and nothing else. -/
theorem shuffle_frame (s : State) :
    (shuffle s).2 = { s with xc := (shuffle s).2.xc, entropy := (shuffle s).2.entropy } := by
  unfold shuffle
  exact forEach_rel (R := fun a b : State => b = { a with xc := b.xc, entropy := b.entropy })
    (fun _ => rfl) (fun {a b c} hab hbc => by rw [hbc, hab]) (downFrom 254) shuffleAt
    (fun t _ u => by
      rcases shuffleAt_cases t u with h | ⟨_, h⟩ | ⟨r, rest, _, h⟩ <;> rw [h]
      exact exchangeXc_frame t r { u with entropy := rest }) s

/-! ### COMBINE -/

theorem loadX_frame (m : Nat) (s : State) : loadX m s = { s with xc := (loadX m s).xc } :=
  foldl_inv (P := fun t => t = { s with xc := t.xc }) _ _ (fun j _ t ht => by rw [ht]; rfl) s rfl

theorem loadY_frame (m i : Nat) (s : State) : loadY m i s = { s with py := (loadY m i s).py } :=
  foldl_inv (P := fun t => t = { s with py := t.py }) _ _ (fun j _ t ht => by rw [ht]; rfl) s rfl

/-- `XC[j] = SHARE[j][Lc]` below `m`, and as it was from `m` on (R214). -/
theorem loadX_entry (m : Nat) (hm : m ≤ 256) (s : State) (j : Nat) :
    entry (loadX m s).xc j = if j < m then s.share j s.combinedLen else entry s.xc j := by
  have key : ∀ n, n ≤ m → ∃ v, (List.range n).foldl (fun s j => s.setXc j (s.share j s.combinedLen)) s = { s with xc := v } ∧
      ∀ j, entry v j = if j < n then s.share j s.combinedLen else entry s.xc j := by
    intro n
    induction n with
    | zero => intro _; exact ⟨s.xc, rfl, by simp⟩
    | succ n ih =>
      intro hn
      obtain ⟨v, hv, hj⟩ := ih (by omega)
      refine ⟨setEntry v n (s.share n s.combinedLen), ?_, fun j => ?_⟩
      · rw [List.range_succ, List.foldl_append, List.foldl_cons, List.foldl_nil, hv]
        rfl
      · rw [entry_setEntry _ _ _ (by omega), hj]
        by_cases h : j = n
        · simp [h]
        · by_cases h2 : j < n
          · simp [h, h2, Nat.lt_succ_of_lt h2]
          · have h3 : ¬ j < n + 1 := by omega
            simp [h, h2, h3]
  obtain ⟨v, hv, hj⟩ := key m (Nat.le_refl _)
  unfold loadX
  rw [hv]
  exact hj j

/-- `PY[j] = SHARE[j][i]` below `m`, and as it was from `m` on (R215). -/
theorem loadY_entry (m i : Nat) (hm : m ≤ 256) (s : State) (j : Nat) :
    entry (loadY m i s).py j = if j < m then s.share j i else entry s.py j := by
  have key : ∀ n, n ≤ m → ∃ v, (List.range n).foldl (fun s j => s.setPy j (s.share j i)) s = { s with py := v } ∧
      ∀ j, entry v j = if j < n then s.share j i else entry s.py j := by
    intro n
    induction n with
    | zero => intro _; exact ⟨s.py, rfl, by simp⟩
    | succ n ih =>
      intro hn
      obtain ⟨v, hv, hj⟩ := ih (by omega)
      refine ⟨setEntry v n (s.share n i), ?_, fun j => ?_⟩
      · rw [List.range_succ, List.foldl_append, List.foldl_cons, List.foldl_nil, hv]
        rfl
      · rw [entry_setEntry _ _ _ (by omega), hj]
        by_cases h : j = n
        · simp [h]
        · by_cases h2 : j < n
          · simp [h, h2, Nat.lt_succ_of_lt h2]
          · have h3 : ¬ j < n + 1 := by omega
            simp [h, h2, h3]
  obtain ⟨v, hv, hj⟩ := key m (Nat.le_refl _)
  unfold loadY
  rw [hv]
  exact hj j

/-! ### Successful draws -/

/-- `Generate` over as many answers as it draws, none failing (R150, R151). -/
theorem generate_ok {cnt : Nat} {c0 : Byte} {bytes : List Byte} {rest : List Answer} {s : State}
    (hlen : bytes.length = cnt - 1) (h : s.entropy = bytes.map .ok ++ rest) :
    generate cnt c0 s = (.ok, { s with
      entropy := rest, coef := (bytes.zipIdx 1).foldl (fun v p => setEntry v p.2 p.1) (setEntry s.coef 0 c0) }) := by
  unfold generate
  rw [← hlen, drawCoefs_ok 1 bytes rest (s.setCoef 0 c0) h]
  rfl

/-- One byte whose index is in range is accepted at once (R199). -/
theorem shuffleAt_ok {t : Nat} {b : Byte} {rest : List Answer} {s : State} (htries : 1 ≤ s.cfg.rejLimit)
    (hb : drawnIndex t b ≤ t) (h : s.entropy = .ok b :: rest) :
    shuffleAt t s = (.ok, exchangeXc t (drawnIndex t b) { s with entropy := rest }) := by
  obtain ⟨n, hn⟩ : ∃ n, s.cfg.rejLimit = n + 1 := ⟨s.cfg.rejLimit - 1, by omega⟩
  have hd : drawIndex t (n + 1) s = .byte (b &&& drawMask t) { s with entropy := rest } := by
    simp only [drawIndex, State.rngDraw, h, if_pos hb]
  unfold shuffleAt
  rw [hn, hd]
  rfl

/-- A shuffle over accepted bytes consumes exactly them and permutes `XC` (R198). -/
theorem shuffleFrom_ok (n : Nat) (bytes : List Byte) (rest : List Answer) (s : State) (htries : 1 ≤ s.cfg.rejLimit)
    (hlen : bytes.length = n) (hb : ∀ q, q < n → drawnIndex (n - q) (bytes.getD q 0) ≤ n - q)
    (h : s.entropy = bytes.map .ok ++ rest) :
    ∃ v, forEach (downFrom n) shuffleAt s = (.ok, { s with entropy := rest, xc := v }) := by
  induction n generalizing bytes s with
  | zero =>
    obtain rfl := List.eq_nil_of_length_eq_zero hlen
    exact ⟨s.xc, by rw [show rest = s.entropy from h.symm]; rfl⟩
  | succ n ih =>
    rcases bytes with _ | ⟨b, bytes⟩
    · simp at hlen
    have h0 := hb 0 (Nat.succ_pos n)
    simp only [Nat.sub_zero, List.getD_cons_zero] at h0
    rw [downFrom, forEach_cons, Body.andThen_ok (shuffleAt_ok htries h0 h)]
    obtain ⟨v, hv⟩ := ih bytes (exchangeXc (n + 1) (drawnIndex (n + 1) b) { s with entropy := bytes.map .ok ++ rest })
      htries (by simpa using hlen)
      (fun q hq => by simpa using hb (q + 1) (Nat.succ_lt_succ hq)) rfl
    exact ⟨v, hv⟩

/-- The polynomials and evaluations of some byte positions, over the draws they need, none failing (R200). -/
theorem splitBytes_ok (n k : Nat) (is : List Nat) (bytes : List Byte) (rest : List Answer) (s : State)
    (hlen : bytes.length = is.length * (k - 1)) (h : s.entropy = bytes.map .ok ++ rest) :
    ∃ v m, forEach is (splitByte n k) s = (.ok, { s with entropy := rest, coef := v, mem := m }) := by
  induction is generalizing bytes s with
  | nil =>
    obtain rfl := List.eq_nil_of_length_eq_zero (by simpa using hlen)
    exact ⟨s.coef, s.mem, by rw [show rest = s.entropy from h.symm]; rfl⟩
  | cons i is ih =>
    have hk : k - 1 ≤ bytes.length := by
      rw [hlen, List.length_cons, Nat.succ_mul]
      omega
    have hg := generate_ok (cnt := k) (c0 := s.secret i) (bytes := bytes.take (k - 1))
      (rest := (bytes.drop (k - 1)).map .ok ++ rest) (s := s) (by simp [hk])
      (by rw [h, ← List.append_assoc, ← List.map_append, List.take_append_drop])
    have hbyte : ∃ v m, splitByte n k i s =
        (.ok, { s with entropy := (bytes.drop (k - 1)).map .ok ++ rest, coef := v, mem := m }) := by
      have he := (Body.andThen_ok (q := fun s => (.ok, evalShares n k i s)) hg).trans
        (congrArg (Prod.mk Exit.ok) (evalShares_frame n k i _))
      exact ⟨_, _, he⟩
    obtain ⟨v, m, hvm⟩ := hbyte
    rw [forEach_cons, Body.andThen_ok hvm]
    obtain ⟨v', m', h'⟩ := ih (bytes.drop (k - 1))
      { s with entropy := (bytes.drop (k - 1)).map .ok ++ rest, coef := v, mem := m }
      (by rw [List.length_drop, hlen, List.length_cons, Nat.succ_mul]; omega) rfl
    exact ⟨v', m', h'⟩

theorem identityXc_entropy (s : State) : (identityXc s).entropy = s.entropy := by
  have h := identityXc_frame s
  generalize identityXc s = u at h
  rw [h]

theorem identityXc_cfg (s : State) : (identityXc s).cfg = s.cfg := by
  have h := identityXc_frame s
  generalize identityXc s = u at h
  rw [h]

theorem identityXc_len (s : State) : (identityXc s).len = s.len := by
  have h := identityXc_frame s
  generalize identityXc s = u at h
  rw [h]

theorem identityXc_mem (s : State) : (identityXc s).mem = s.mem := by
  have h := identityXc_frame s
  generalize identityXc s = u at h
  rw [h]

/-- Checks passed, `SPLIT` goes on with the shuffle of the identity arrangement. -/
theorem splitBody_go {n k : BitVec 12} {s : State} (h : splitError n k s = none) :
    splitBody n k s = Body.andThen shuffle
      (Body.andThen (forEach (List.range s.len.toNat) (splitByte n.toNat k.toNat))
        (fun s => (.ok, markShares n.toNat (tailShares n.toNat s)))) (identityXc (clearShlen s)) := by
  unfold splitBody
  rw [h]

theorem splitBody_stop {n k : BitVec 12} {s : State} {e : ECode} (h : splitError n k s = some e) :
    splitBody n k s = (.error e, s) := by
  unfold splitBody
  rw [h]

theorem splitTail_frame (n : Nat) (s : State) : markShares n (tailShares n s) =
    { s with mem := (markShares n (tailShares n s)).mem, shlen := (markShares n (tailShares n s)).shlen } := by
  have h1 := markShares_frame n (tailShares n s)
  have h2 := tailShares_frame n s
  generalize tailShares n s = u at h1 h2
  generalize markShares n u = v at h1
  rw [h1, h2]

/-- A `SPLIT` that passes its checks and draws no failure and no rejected byte ends successfully (R190, R204). -/
theorem splitBody_ok {n k : BitVec 12} {s : State} {idx co : List Byte} {rest : List Answer}
    (hargs : splitError n k s = none) (htries : 1 ≤ s.cfg.rejLimit) (hidx : idx.length = 254)
    (hacc : ∀ q, q < 254 → drawnIndex (254 - q) (idx.getD q 0) ≤ 254 - q)
    (hco : co.length = s.len.toNat * (k.toNat - 1)) (h : s.entropy = idx.map .ok ++ co.map .ok ++ rest) :
    ∃ t : State, splitBody n k s = (.ok, t) ∧
      t = { s with entropy := rest, shlen := t.shlen, xc := t.xc, coef := t.coef, mem := t.mem } := by
  rw [splitBody_go hargs]
  have hframe := identityXc_frame (clearShlen s)
  generalize identityXc (clearShlen s) = u at hframe
  obtain ⟨x, hx⟩ := shuffleFrom_ok 254 idx (co.map .ok ++ rest) u (by rw [hframe]; exact htries) hidx hacc
    (by rw [hframe, ← List.append_assoc]; exact h)
  obtain ⟨v, m, hvm⟩ := splitBytes_ok n.toNat k.toNat (List.range s.len.toNat) co rest
    { u with entropy := co.map .ok ++ rest, xc := x } (by simpa using hco) rfl
  have htail := splitTail_frame n.toNat { u with entropy := rest, xc := x, coef := v, mem := m }
  refine ⟨markShares n.toNat (tailShares n.toNat { u with entropy := rest, xc := x, coef := v, mem := m }),
    (Body.andThen_ok hx).trans (Body.andThen_ok hvm), ?_⟩
  generalize markShares n.toNat (tailShares n.toNat { u with entropy := rest, xc := x, coef := v, mem := m }) = z at htail
  rw [htail, hframe]
  rfl

/-- A `SPLIT` that passes its checks and draws no failure and no rejected byte answers a state of a successful end. -/
theorem exec_split_ok {n k : BitVec 12} {s : State} {idx co : List Byte} {rest : List Answer}
    (hargs : splitError n k s = none) (htries : 1 ≤ s.cfg.rejLimit) (hidx : idx.length = 254)
    (hacc : ∀ q, q < 254 → drawnIndex (254 - q) (idx.getD q 0) ≤ 254 - q)
    (hco : co.length = s.len.toNat * (k.toNat - 1)) (h : s.entropy = idx.map .ok ++ co.map .ok ++ rest) :
    ∃ t, exec (.split n k) s = .next t ∧ t.busy = false ∧ t.ecode = .ok ∧ t.cfg = s.cfg := by
  obtain ⟨t, ht, hf⟩ := splitBody_ok hargs htries hidx hacc hco h
  refine ⟨t.endOk, runCommand_ok ht, rfl, rfl, ?_⟩
  rw [hf]
  rfl

/-! ### The memory keeps its canonical form -/

theorem evalShares_wf (n k i : Nat) (s : State) (h : Memory.wf s.mem) : Memory.wf (evalShares n k i s).mem :=
  foldl_inv (P := fun t => Memory.wf t.mem) _ _ (fun _ _ t ht => Memory.wf_store t.mem ht _ _) s h

theorem tailShares_wf (n : Nat) (s : State) (h : Memory.wf s.mem) : Memory.wf (tailShares n s).mem :=
  foldl_inv (P := fun t => Memory.wf t.mem) _ _ (fun _ _ t ht => Memory.wf_store t.mem ht _ _) s h

theorem generate_mem (cnt : Nat) (c0 : Byte) (s : State) : (generate cnt c0 s).2.mem = s.mem :=
  (congrArg State.mem (generate_frame cnt c0 s) :)

theorem shuffle_mem (s : State) : (shuffle s).2.mem = s.mem := by
  have h := shuffle_frame s
  generalize (shuffle s).2 = u at h
  rw [h]

theorem splitByte_wf (n k i : Nat) (s : State) (h : Memory.wf s.mem) : Memory.wf (splitByte n k i s).2.mem := by
  unfold splitByte
  rcases Body.andThen_cases (fun s => generate k (s.secret i) s) (fun s => (.ok, evalShares n k i s)) s with
    ⟨t, ht, hs⟩ | ⟨_, hs⟩
  · have hm : t.mem = s.mem := by
      have hg := generate_mem k (s.secret i) s
      rw [show generate k (s.secret i) s = (.ok, t) from ht] at hg
      exact hg
    rw [hs]
    exact evalShares_wf n k i t (hm ▸ h)
  · rw [hs]
    exact (generate_mem k (s.secret i) s).symm ▸ h

theorem splitBody_wf (n k : BitVec 12) (s : State) (h : Memory.wf s.mem) : Memory.wf (splitBody n k s).2.mem := by
  rcases he : splitError n k s with _ | e
  · rw [splitBody_go he]
    have hu : Memory.wf (identityXc (clearShlen s)).mem := (identityXc_mem (clearShlen s)).symm ▸ h
    generalize identityXc (clearShlen s) = w at hu
    have hsh := shuffle_mem w
    rcases Body.andThen_cases shuffle (Body.andThen (forEach (List.range s.len.toNat) (splitByte n.toNat k.toNat))
      (fun s => (.ok, markShares n.toNat (tailShares n.toNat s)))) w with ⟨t, ht, hs⟩ | ⟨_, hs⟩
    · rw [ht] at hsh
      have hf := forEach_inv (P := fun t => Memory.wf t.mem) (List.range s.len.toNat) (splitByte n.toNat k.toNat)
        (fun i _ u hu => splitByte_wf _ _ i u hu) t (hsh ▸ hu)
      rw [hs]
      rcases Body.andThen_cases (forEach (List.range s.len.toNat) (splitByte n.toNat k.toNat))
        (fun s => (.ok, markShares n.toNat (tailShares n.toNat s))) t with ⟨u, hu', hs'⟩ | ⟨_, hs'⟩
      · rw [hs']
        rw [hu'] at hf
        exact (congrArg State.mem (markShares_frame n.toNat (tailShares n.toNat u))).symm ▸ tailShares_wf n.toNat u hf
      · rw [hs']
        exact hf
    · rw [hs]
      exact hsh.symm ▸ hu
  · rw [splitBody_stop he]
    exact h

theorem loadX_mem (m : Nat) (s : State) : (loadX m s).mem = s.mem :=
  (congrArg State.mem (loadX_frame m s) :)

theorem loadY_mem (m i : Nat) (s : State) : (loadY m i s).mem = s.mem :=
  (congrArg State.mem (loadY_frame m i s) :)

theorem combineByte_wf (m i : Nat) (s : State) (h : Memory.wf s.mem) : Memory.wf (combineByte m i s).2.mem := by
  have hl : Memory.wf (loadY m i s).mem := (loadY_mem m i s).symm ▸ h
  unfold combineByte
  generalize loadY m i s = u at hl
  unfold interpolateByte
  split
  · exact hl
  · exact Memory.wf_store _ hl _ _

theorem combineBody_wf (m : BitVec 12) (s : State) (h : Memory.wf s.mem) : Memory.wf (combineBody m s).2.mem := by
  unfold combineBody
  split
  · exact h
  have hl : Memory.wf (loadX m.toNat s).mem := (loadX_mem m.toNat s).symm ▸ h
  generalize loadX m.toNat s = w at hl
  have hf := forEach_inv (P := fun t => Memory.wf t.mem) (List.range s.combinedLen) (combineByte m.toNat)
    (fun i _ u hu => combineByte_wf _ i u hu) w hl
  rcases Body.andThen_cases (forEach (List.range s.combinedLen) (combineByte m.toNat))
    (fun s => (.ok, setCombinedLen s)) w with ⟨u, hu, hs⟩ | ⟨_, hs⟩
  · rw [hs]
    rw [hu] at hf
    exact hf
  · rw [hs]
    exact hf

/-- The end of a command leaves the memory as the pseudocode left it, or, while the block waits, as it was. -/
theorem runCommand_wf {body : Body} {s t : State} (h : Memory.wf s.mem) (hb : Memory.wf (body s).2.mem)
    (ht : runCommand body s = .next t) : Memory.wf t.mem := by
  rcases runCommand_cases body s with ⟨u, hu, hr⟩ | ⟨e, u, hu, hr⟩ | ⟨u, hu, hr⟩ | ⟨u, hu, hr⟩ <;>
    (rw [hr] at ht; cases ht; rw [hu] at hb) <;> first | exact hb | exact h

/-- No command breaks the canonical form of the memory. -/
theorem exec_wf (i : Instr) {s t : State} (h : Memory.wf s.mem) (ht : exec i s = .next t) : Memory.wf t.mem := by
  cases i with
  | gfadd a b => exact runCommand_wf (body := gfaddBody a b) h h ht
  | gfmul a b => exact runCommand_wf (body := gfmulBody a b) h h ht
  | gfinv a =>
    refine runCommand_wf (body := gfinvBody a) h ?_ ht
    unfold gfinvBody putResult
    split <;> exact h
  | gfdiv a b =>
    refine runCommand_wf (body := gfdivBody a b) h ?_ ht
    unfold gfdivBody putResult
    split <;> exact h
  | pgen cnt c0 =>
    refine runCommand_wf (body := pgenBody cnt c0) h ?_ ht
    unfold pgenBody withCount
    split
    · exact (generate_mem cnt.toNat c0 s).symm ▸ h
    · exact h
  | peval cnt x =>
    refine runCommand_wf (body := pevalBody cnt x) h ?_ ht
    unfold pevalBody withCount
    split <;> exact h
  | linterp cnt x =>
    refine runCommand_wf (body := linterpBody cnt x) h ?_ ht
    unfold linterpBody withCount
    split
    · show Memory.wf (putResult (s.lagrange cnt.toNat x) s).2.mem
      unfold putResult
      split <;> exact h
    · exact h
  | split n k => exact runCommand_wf (body := splitBody n k) h (splitBody_wf n k s h) ht
  | combine m => exact runCommand_wf (body := combineBody m) h (combineBody_wf m s h) ht

end Sys2Proof.Machine
end

