-- ==== Sys2Proof/Laws/HostPort.lean ====
section
/-! SUPPORT. What the host port can do. -/

namespace Sys2Proof.Machine

/-- Everything a host read can do: it changes `HERR` and the returned word alone (R65, R69). -/
theorem State.hostRead_cases (s : State) (ha : Word) :
    (s.readRefused ha = true ∧ s.hostRead ha = { s with herr := true, rdata := 0 }) ∨
    (s.readRefused ha = false ∧ s.hostRead ha = { s with rdata := s.readLoc (s.locOf ha) }) := by
  unfold State.hostRead
  cases h : s.readRefused ha <;> simp

/-- Everything a host write can do: a refused one sets `HERR` alone (R65). -/
theorem State.hostWrite_cases (s : State) (ha d : Word) :
    (s.writeRefused ha = true ∧ s.hostWrite ha d = { s with herr := true }) ∨
    (s.writeRefused ha = false ∧ s.hostWrite ha d = s.writeLoc d (s.locOf ha)) := by
  unfold State.hostWrite
  cases h : s.writeRefused ha <;> simp

/-- A host write keeps the memory in canonical form. -/
theorem State.hostWrite_wf (s : State) (h : Memory.wf s.mem) (ha d : Word) : Memory.wf (s.hostWrite ha d).mem := by
  rcases s.hostWrite_cases ha d with ⟨_, hw⟩ | ⟨_, hw⟩
  · rw [hw]
    exact h
  · rw [hw]
    unfold State.writeLoc
    split <;> first | exact h | exact Memory.wf_store _ h _ _

theorem registerLoc_ne_buffer (a : Nat) : (∀ j o, registerLoc a ≠ .share j o) ∧ (∀ o, registerLoc a ≠ .secret o) := by
  unfold registerLoc
  split <;> simp

theorem arrayLoc_ne_buffer (page : Nat) (i : Byte) :
    (∀ j o, arrayLoc page i ≠ .share j o) ∧ (∀ o, arrayLoc page i ≠ .secret o) := by
  unfold arrayLoc
  split <;> simp

/-- A share location of the map is one with a slot below 256 and an offset up to `LMAX` (R62). -/
theorem locOf_share {lmax : Nat} {ha : Word} {j : Byte} {o : BitVec 16} (h : locOf lmax ha = .share j o) :
    o.toNat ≤ lmax ∧ j.toNat < 256 := by
  refine ⟨?_, j.isLt⟩
  unfold locOf at h
  split at h
  · exact absurd h ((registerLoc_ne_buffer _).1 j o)
  split at h
  · exact absurd h ((arrayLoc_ne_buffer _ _).1 j o)
  unfold bufferLoc at h
  split at h
  · split at h <;> cases h
    assumption
  · split at h
    · split at h <;> cases h
    · cases h

/-- A secret location of the map is one with an offset below `LMAX` (R62). -/
theorem locOf_secret {lmax : Nat} {ha : Word} {o : BitVec 16} (h : locOf lmax ha = .secret o) : o.toNat < lmax := by
  unfold locOf at h
  split at h
  · exact absurd h ((registerLoc_ne_buffer _).2 o)
  split at h
  · exact absurd h ((arrayLoc_ne_buffer _ _).2 o)
  unfold bufferLoc at h
  split at h
  · split at h <;> cases h
  · split at h
    · split at h <;> cases h
      assumption
    · cases h

end Sys2Proof.Machine
end

