-- ==== Sys2Proof/Laws/PerInstr.lean ====
section
/-! SUPPORT. Statements made for every command, one lemma per constructor of Instr. -/

/-- The opcode byte of a command's word is the opcode that R90 gives the command. -/
def Sys2Proof.Laws.OpcodeByte.Statement (i : Sys2Proof.Instr) : Prop :=
  Sys2Proof.fieldOp (Sys2Proof.encode i) =
    match i with
    | .gfadd _ _ => 0x01
    | .gfmul _ _ => 0x02
    | .gfinv _ => 0x03
    | .gfdiv _ _ => 0x04
    | .pgen _ _ => 0x10
    | .peval _ _ => 0x11
    | .linterp _ _ => 0x12
    | .split _ _ => 0x20
    | .combine _ => 0x21

theorem Sys2Proof.Laws.fieldOp_encodeS (op a b : Sys2Proof.Byte) : Sys2Proof.fieldOp (Sys2Proof.encodeS op a b) = op := by
  unfold Sys2Proof.fieldOp Sys2Proof.encodeS
  ext i hi
  rw [BitVec.getElem_extractLsb']
  simp only [BitVec.getLsbD_append, show ¬ 24 + i < 8 by omega, show ¬ 24 + i - 8 < 8 by omega,
    show ¬ 24 + i - 8 - 8 < 8 by omega, show 24 + i - 8 - 8 - 8 = i by omega, if_false,
    BitVec.getLsbD_eq_getElem hi]

theorem Sys2Proof.Laws.fieldOp_encodeV (op : Sys2Proof.Byte) (cnt : BitVec 12) (x : Sys2Proof.Byte) :
    Sys2Proof.fieldOp (Sys2Proof.encodeV op cnt x) = op := by
  unfold Sys2Proof.fieldOp Sys2Proof.encodeV
  ext i hi
  rw [BitVec.getElem_extractLsb']
  simp only [BitVec.getLsbD_append, show ¬ 24 + i < 8 by omega, show ¬ 24 + i - 8 < 4 by omega,
    show ¬ 24 + i - 8 - 4 < 12 by omega, show 24 + i - 8 - 4 - 12 = i by omega, if_false,
    BitVec.getLsbD_eq_getElem hi]

theorem Sys2Proof.Laws.fieldOp_encodeO (op : Sys2Proof.Byte) (n k : BitVec 12) :
    Sys2Proof.fieldOp (Sys2Proof.encodeO op n k) = op := by
  unfold Sys2Proof.fieldOp Sys2Proof.encodeO
  ext i hi
  rw [BitVec.getElem_extractLsb']
  simp only [BitVec.getLsbD_append, show ¬ 24 + i < 12 by omega, show ¬ 24 + i - 12 < 12 by omega,
    show 24 + i - 12 - 12 = i by omega, if_false, BitVec.getLsbD_eq_getElem hi]

theorem Sys2Proof.Laws.OpcodeByte.gfadd (a b : Sys2Proof.Byte) : Statement (.gfadd a b) := fieldOp_encodeS _ _ _

theorem Sys2Proof.Laws.OpcodeByte.gfmul (a b : Sys2Proof.Byte) : Statement (.gfmul a b) := fieldOp_encodeS _ _ _

theorem Sys2Proof.Laws.OpcodeByte.gfinv (a : Sys2Proof.Byte) : Statement (.gfinv a) := fieldOp_encodeS _ _ _

theorem Sys2Proof.Laws.OpcodeByte.gfdiv (a b : Sys2Proof.Byte) : Statement (.gfdiv a b) := fieldOp_encodeS _ _ _

theorem Sys2Proof.Laws.OpcodeByte.pgen (cnt : BitVec 12) (c0 : Sys2Proof.Byte) : Statement (.pgen cnt c0) :=
  fieldOp_encodeV _ _ _

theorem Sys2Proof.Laws.OpcodeByte.peval (cnt : BitVec 12) (x : Sys2Proof.Byte) : Statement (.peval cnt x) :=
  fieldOp_encodeV _ _ _

theorem Sys2Proof.Laws.OpcodeByte.linterp (cnt : BitVec 12) (x : Sys2Proof.Byte) : Statement (.linterp cnt x) :=
  fieldOp_encodeV _ _ _

theorem Sys2Proof.Laws.OpcodeByte.split (n k : BitVec 12) : Statement (.split n k) := fieldOp_encodeO _ _ _

theorem Sys2Proof.Laws.OpcodeByte.combine (m : BitVec 12) : Statement (.combine m) := fieldOp_encodeO _ _ _
end

