-- ==== Sys2Proof/Laws/Step.lean ====
section
/-! SUPPORT. What one step can do. -/

namespace Sys2Proof.Machine

theorem step_event {s : State} {e : Event} {rest : List Event} (h : s.schedule = e :: rest) :
    step s = .next (State.serve { s with schedule := rest } e) := by
  simp [step, h]

theorem step_core {s : State} (h : s.schedule = []) : step s = coreStep s := by
  simp [step, h]

/-- No command's meaning faults or refuses: every command answers a next state in every state. -/
theorem exec_next (i : Instr) (s : State) : ∃ t, exec i s = .next t := by
  have run (body : Body) : ∃ t, runCommand body s = .next t := by
    rcases runCommand_cases body s with ⟨t, _, h⟩ | ⟨_, t, _, h⟩ | ⟨t, _, h⟩ | ⟨_, _, h⟩ <;> exact ⟨_, h⟩
  cases i with
  | gfadd a b => exact run (gfaddBody a b)
  | gfmul a b => exact run (gfmulBody a b)
  | gfinv a => exact run (gfinvBody a)
  | gfdiv a b => exact run (gfdivBody a b)
  | pgen cnt c0 => exact run (pgenBody cnt c0)
  | peval cnt x => exact run (pevalBody cnt x)
  | linterp cnt x => exact run (linterpBody cnt x)
  | split n k => exact run (splitBody n k)
  | combine m => exact run (combineBody m)

/-- Everything a step can answer: it serves the first event, or the core runs a command, ends an illegal word, makes a
transition of a command under way, or stands halted. -/
theorem step_cases (s : State) :
    (∃ e rest, s.schedule = e :: rest ∧ step s = .next (State.serve { s with schedule := rest } e)) ∨
    (s.schedule = [] ∧ ((∃ i, s.seq.st = .decode ∧ decode s.cmdl = .ok i ∧ step s = exec i s) ∨
      (∃ why, s.seq.st = .decode ∧ decode s.cmdl = .illegal why ∧ step s = .next (s.raiseError .illegalCommand)) ∨
      (s.seq.st = .halt ∧ step s = .fault .haltedAfterDivideByZero) ∨
      (s.seq.st ≠ .decode ∧ s.seq.st ≠ .halt ∧ step s = .next (coreTransition s)))) := by
  rcases h : s.schedule with _ | ⟨e, rest⟩
  · refine .inr ⟨rfl, ?_⟩
    rw [step_core h]
    unfold coreStep
    rcases hst : s.seq.st with _ | _ | _ | _ | _ | _ | _ | _ | _ | _ | _ | _ | _ | _ | _ | _ | _ | _ | _
    case decode =>
      rcases hd : decode s.cmdl with i | why
      · exact .inl ⟨i, rfl, rfl, rfl⟩
      · exact .inr (.inl ⟨why, rfl, rfl, rfl⟩)
    case halt => exact .inr (.inr (.inl ⟨rfl, rfl⟩))
    all_goals exact .inr (.inr (.inr ⟨by simp, by simp, rfl⟩))
  · exact .inl ⟨e, rest, rfl, step_event h⟩

end Sys2Proof.Machine
end

