-- ==== Sys2Proof/Laws/Run.lean ====
section
/-! SUPPORT. What the moves of a run can do, so that no proof about runs unfolds them. -/

namespace Sys2Proof.Machine

/-- An event always has a next state: it is served. -/
theorem State.after_event (s : State) (e : Event) : s.after [e] = some (State.serve (s.plan []) e) := by
  unfold State.after
  rw [step_event (s := s.plan [e]) rfl]
  rfl

/-- A next state of the core left to itself is what `step` answers with nothing scheduled. -/
theorem State.after_core {s t : State} : s.after [] = some t ↔ step (s.plan []) = .next t := by
  unfold State.after
  cases step (s.plan []) <;> simp

/-- A move of the core takes the state over, and records the command in flight when that has ended. -/
theorem Run.coreMoved_cases (r : Run) (t : State) :
    (r.flight = none ∧ r.coreMoved t = { r with state := t }) ∨
    (∃ meant, r.flight = some meant ∧ t.busy = true ∧ r.coreMoved t = { r with state := t }) ∨
    (∃ meant, r.flight = some meant ∧ t.busy = false ∧
      r.coreMoved t = { r with state := t, flight := none, left := r.left ++ [(meant, t.verdict)] }) := by
  unfold Run.coreMoved
  rcases h : r.flight with _ | meant
  · exact .inl ⟨rfl, rfl⟩
  · cases hb : t.busy
    · exact .inr (.inr ⟨meant, rfl, rfl, by simp⟩)
    · exact .inr (.inl ⟨meant, rfl, rfl, by simp⟩)

/-- A word written to `CMD` is in flight, or is recorded as dropped. -/
theorem Run.issued_cases (r : Run) (meant : Bool) (rest : List Line) (t : State) :
    (r.state.writeRefused 0 = true ∧
      r.issued meant rest t = { r with state := t, script := rest, left := r.left ++ [(meant, none)] }) ∨
    (r.state.writeRefused 0 = false ∧ r.issued meant rest t = { r with state := t, script := rest, flight := some meant }) := by
  unfold Run.issued
  cases h : r.state.writeRefused 0 <;> simp

/-- A write to `CMD` is refused exactly while the guard is closed (R37). -/
theorem State.writeRefused_cmd (s : State) : s.writeRefused 0 = s.guardClosed := rfl

/-- A reset records a command in flight as abandoned. -/
theorem Run.wasReset_cases (r : Run) (rest : List Line) (t : State) :
    (r.flight = none ∧ r.wasReset rest t = { r with state := t, script := rest }) ∨
    (∃ meant, r.flight = some meant ∧
      r.wasReset rest t = { r with state := t, script := rest, flight := none, left := r.left ++ [(meant, none)] }) := by
  unfold Run.wasReset
  rcases h : r.flight with _ | meant
  · exact .inl ⟨rfl, rfl⟩
  · exact .inr ⟨meant, rfl, rfl⟩

/-- Everything a move of a run can do. -/
theorem Run.move_cases {r r' : Run} {m : Mover} (h : r.move m = some r') :
    (m ≠ .host ∧ ∃ t, (r.state.after [] = some t ∨ r.state.after [.coreMove] = some t) ∧ r' = r.coreMoved t) ∨
    (m = .host ∧ ∃ rest,
      (∃ w meant, (r.script = .command w meant :: rest ∨ r.script = .write 0 w :: rest ∧ meant = false) ∧
        r' = r.issued meant rest (State.serve (r.state.plan []) (.hostWrite 0 w))) ∨
      (∃ ha d, ha ≠ 0 ∧ r.script = .write ha d :: rest ∧
        r' = r.served rest (State.serve (r.state.plan []) (.hostWrite ha d))) ∨
      (∃ ha, r.script = .read ha :: rest ∧
        r' = r.served rest (State.serve (r.state.plan []) (.hostRead ha))) ∨
      (∃ rest', r.script = .wait :: rest ∧ (rest' = rest ∨ rest' = .wait :: rest) ∧
        r' = r.served rest' (State.serve (r.state.plan []) (.hostRead 1))) ∨
      (r.script = .reset :: rest ∧ r' = r.wasReset rest (State.serve (r.state.plan []) .reset)) ∨
      (∃ answers, r.script = .rng answers :: rest ∧
        r' = r.served rest { r.state with entropy := r.state.entropy ++ answers })) := by
  cases m with
  | core =>
    have h : (r.state.after []).map r.coreMoved = some r' := h
    obtain ⟨t, ht, rfl⟩ := Option.map_eq_some_iff.mp h
    exact .inl ⟨by decide, t, .inl ht, rfl⟩
  | transition =>
    have h : (r.state.after [.coreMove]).map r.coreMoved = some r' := h
    obtain ⟨t, ht, rfl⟩ := Option.map_eq_some_iff.mp h
    exact .inl ⟨by decide, t, .inr ht, rfl⟩
  | host =>
    refine .inr ⟨rfl, ?_⟩
    have h : r.hostMove = some r' := h
    unfold Run.hostMove at h
    rcases hs : r.script with _ | ⟨line, rest⟩
    · simp [hs] at h
    refine ⟨rest, ?_⟩
    rw [hs] at h
    cases line with
    | write ha d =>
      by_cases h0 : ha = 0
      · subst h0
        simp only [if_pos, State.after_event, Option.map_some, Option.some.injEq] at h
        exact .inl ⟨d, false, .inr ⟨rfl, rfl⟩, h.symm⟩
      · simp only [if_neg h0, State.after_event, Option.map_some, Option.some.injEq] at h
        exact .inr (.inl ⟨ha, d, h0, rfl, h.symm⟩)
    | read ha =>
      simp only [State.after_event, Option.map_some, Option.some.injEq] at h
      exact .inr (.inr (.inl ⟨ha, rfl, h.symm⟩))
    | command w meant =>
      simp only [State.after_event, Option.map_some, Option.some.injEq] at h
      exact .inl ⟨w, meant, .inl rfl, h.symm⟩
    | wait =>
      simp only [State.after_event, Option.map_some, Option.some.injEq] at h
      refine .inr (.inr (.inr (.inl ⟨_, rfl, ?_, h.symm⟩)))
      split
      · exact .inr rfl
      · exact .inl rfl
    | reset =>
      simp only [State.after_event, Option.map_some, Option.some.injEq] at h
      exact .inr (.inr (.inr (.inr (.inl ⟨rfl, h.symm⟩))))
    | rng answers => exact .inr (.inr (.inr (.inr (.inr ⟨answers, rfl, (Option.some.inj h).symm⟩))))

/-- Every move of a run keeps the record of the commands that were over before it. -/
theorem Run.move_left {r r' : Run} {m : Mover} (h : r.move m = some r') : r.left <+: r'.left := by
  rcases Run.move_cases h with ⟨_, t, _, rfl⟩ | ⟨_, rest, h⟩
  · rcases r.coreMoved_cases t with ⟨_, h⟩ | ⟨_, _, _, h⟩ | ⟨_, _, _, h⟩ <;> rw [h]
    exact List.prefix_append ..
  · rcases h with ⟨w, meant, _, rfl⟩ | ⟨_, _, _, _, rfl⟩ | ⟨_, _, rfl⟩ | ⟨_, _, _, rfl⟩ | ⟨_, rfl⟩ | ⟨_, _, rfl⟩
    · rcases r.issued_cases meant rest (State.serve (r.state.plan []) (.hostWrite 0 w)) with
        ⟨_, h⟩ | ⟨_, h⟩ <;> rw [h]
      exact List.prefix_append ..
    · exact List.prefix_refl _
    · exact List.prefix_refl _
    · exact List.prefix_refl _
    · rcases r.wasReset_cases rest (State.serve (r.state.plan []) .reset) with ⟨_, h⟩ | ⟨_, _, h⟩ <;> rw [h]
      exact List.prefix_append ..
    · exact List.prefix_refl _

end Sys2Proof.Machine
end

