-- ==== Sys2Proof/Tests/Slice0.lean ====
section
/-! SUPPORT. Small tests with expected results from 95_test_vectors.md, and witnesses that the statements' hypotheses can
be met. -/

namespace Sys2Proof.Tests

open Sys2Proof.Machine Sys2Proof.Safety

/-! ### Helpers -/

/-- The state an outcome answers (the reset state for a fault or a refusal). -/
def after : Host.Outcome State Fault Refusal → State
  | .next t => t
  | .fault _ => State.reset
  | .refused _ => State.reset

/-- A state of a command just accepted, the word `w`, from `s`. -/
def latched (s : State) (w : Nat) : State := s.withFetchWord 32 w


/-- One step of the command word `w` from the reset state. -/
def ran (w : Nat) : State := after (step (latched State.reset w))

/-- The reset state with the arrays and the source set. -/
def loaded (xc py coef : List Byte) (entropy : List Answer) : State :=
  { State.reset with
    xc := (xc.zipIdx).foldl (fun v p => setEntry v p.2 p.1) State.reset.xc,
    py := (py.zipIdx).foldl (fun v p => setEntry v p.2 p.1) State.reset.py,
    coef := (coef.zipIdx).foldl (fun v p => setEntry v p.2 p.1) State.reset.coef,
    entropy := entropy }

/-- The answers that leave the permutation at the identity (V-SP1). -/
def identityDraws : List Byte := (downFrom 254).map (BitVec.ofNat 8)

/-- The block with a secret, its length, and the source's answers. -/
def secretState (secret : List Byte) (entropy : List Answer) : State :=
  { (secret.zipIdx).foldl (fun s p => s.setSecret p.2 p.1) State.reset with
    len := BitVec.ofNat 16 secret.length, entropy := entropy }

/-- The block with shares in its slots. -/
def sharesState (shares : List (List Byte)) : State :=
  (shares.zipIdx).foldl
    (fun s p => (p.1.zipIdx).foldl (fun s q => s.setShare p.2 q.2 q.1) (s.setShlen p.2 (BitVec.ofNat 16 p.1.length)))
    State.reset

/-! ### Well-formedness: each check refuses an ill-formed term (R93, R95) -/

theorem test_wf_pgen_refuses_zero : Instr.wf (.pgen 0 0x65) = false := by decide
theorem test_wf_peval_refuses_257 : Instr.wf (.peval 257 0x02) = false := by decide
theorem test_wf_linterp_refuses_4095 : Instr.wf (.linterp 4095 0x00) = false := by decide
theorem test_wf_accepts_256 : Instr.wf (.linterp 256 0x00) = true := by decide

/-! ### Decoding: words written out from R91 and R97 -/

theorem test_decode_gfadd : decode 0b00000001_01010111_10000011_00000000 = .ok (.gfadd 0x57 0x83) := by decide
theorem test_decode_gfmul : decode 0b00000010_01010111_10000011_00000000 = .ok (.gfmul 0x57 0x83) := by decide
theorem test_decode_gfinv : decode 0b00000011_01010011_00000000_00000000 = .ok (.gfinv 0x53) := by decide
theorem test_decode_gfdiv : decode 0b00000100_11000001_10000011_00000000 = .ok (.gfdiv 0xC1 0x83) := by decide
theorem test_decode_pgen : decode 0b00010000_000000000011_0000_01100101 = .ok (.pgen 3 0x65) := by decide
theorem test_decode_peval : decode 0b00010001_000000000011_0000_00000010 = .ok (.peval 3 0x02) := by decide
theorem test_decode_linterp : decode 0b00010010_000100000000_0000_00000000 = .ok (.linterp 256 0x00) := by decide
theorem test_decode_split : decode 0b00100000_000100101100_000000000011 = .ok (.split 300 3) := by decide
theorem test_decode_combine : decode 0b00100001_000000000011_000000000000 = .ok (.combine 3) := by decide

/-- V-E, the illegal words. -/
theorem test_decode_illegal_words :
    ([0x00000000, 0xFFFFFFFF, 0x05000000, 0x13001000, 0x22002002, 0x01578301, 0x03530100, 0x03000001, 0x04570001,
      0x11000002, 0x11101002, 0x11FFF002, 0x11003102, 0x10000065, 0x12101000, 0x21003001] : List Nat).all
      (fun w => (decodeTableWord 32 w).isNone) = true := by decide

theorem test_encode_examples :
    encode (.gfadd 0x57 0x83) = 0x01578300 ∧ encode (.gfinv 0x53) = 0x03530000 ∧ encode (.pgen 3 0x65) = 0x10003065 ∧
    encode (.split 255 255) = 0x200FF0FF ∧ encode (.combine 256) = 0x21100000 := by decide

/-! ### The field commands (V-F) -/

theorem test_gfadd : (ran 0x01578300).result = 0xD4 ∧ (ran 0x01578300).statusWord = 0x00000002 := by decide +kernel
theorem test_gfmul : (ran 0x02578300).result = 0xC1 ∧ (ran 0x02800200).result = 0x1B := by decide +kernel
theorem test_gfinv : (ran 0x03530000).result = 0xCA ∧ (ran 0x03FF0000).result = 0x1C := by decide +kernel
theorem test_gfdiv : (ran 0x04C18300).result = 0x57 ∧ (ran 0x04005300).result = 0x00 := by decide +kernel
theorem test_fatal_status : (ran 0x03000000).statusWord = 0x00001004 ∧ (ran 0x04570000).statusWord = 0x00001004 := by
  decide +kernel
theorem test_illegal_before_fatal : (ran 0x03000001).statusWord = 0x00000602 := by decide +kernel

/-! ### The polynomial and interpolation commands (V-P, V-L) -/

theorem test_pgen_partial :
    let t := after (step (latched (loaded [] [] [0x00, 0x00, 0x77, 0x78] [.ok 0x0B, .fail]) 0x10004065))
    [entry t.coef 0, entry t.coef 1, entry t.coef 2, entry t.coef 3] = [0x65, 0x0B, 0x77, 0x78] ∧
      t.statusWord = 0x00000402 := by decide +kernel

theorem test_pgen : (entry (after (step (latched (loaded [] [] [] [.ok 0x0B, .ok 0x8C]) 0x10003065))).coef 2) = 0x8C := by
  decide +kernel

theorem test_peval : (after (step (latched (loaded [] [] [0x65, 0x0B, 0x8C] []) 0x11003002))).result = 0x75 := by
  decide +kernel

theorem test_linterp :
    (after (step (latched (loaded [0x05, 0x09, 0x53] [0xD6, 0xDA, 0x5C] [] []) 0x12003077))).result = 0x49 := by
  decide +kernel

theorem test_linterp_duplicate_is_fatal :
    (after (step (latched (loaded [0x05, 0x05, 0x53] [0xD6, 0xDA, 0x5C] [] []) 0x12003000))).statusWord = 0x00001004 := by
  decide +kernel

/-! ### SPLIT and COMBINE (V-SP, V-CB) -/

/-- One byte position of V-SP3 (b): the polynomial `01 + 07 x`, evaluated at the coordinates 01 and 02. -/
def byteState : State :=
  { secretState [0x01] [.ok 0x07] with xc := setEntry (setEntry State.reset.xc 0 0x01) 1 0x02 }

theorem test_split_byte :
    let t := (splitByte 2 2 0 byteState).2
    [t.share 0 0, t.share 1 0, entry t.coef 0, entry t.coef 1] = [0x06, 0x0F, 0x01, 0x07] ∧ t.entropy = [] := by
  decide +kernel

/-- V-SP3 (b), the end: coordinate bytes and lengths. -/
theorem test_split_tail :
    let t := markShares 2 (tailShares 2 byteState)
    [t.share 0 1, t.share 1 1] = [0x01, 0x02] ∧ [entry t.shlen 0, entry t.shlen 1, entry t.shlen 2] = [2, 2, 0] := by
  decide +kernel

/-- R199 at `t = 2`: the mask is 0x03; 0x03 is rejected, and 0xFC is the index 0, which exchanges `XC[2]` and `XC[0]`. -/
theorem test_shuffle_draw :
    let t := (shuffleAt 2 (loaded [0x01, 0x02, 0x03] [] [] [.ok 0x03, .ok 0xFC, .ok 0x01])).2
    [entry t.xc 0, entry t.xc 1, entry t.xc 2] = [0x03, 0x02, 0x01] ∧ t.entropy = [.ok 0x01] := by decide +kernel

theorem test_draw_mask :
    [1, 2, 3, 4, 7, 8, 15, 16, 31, 32, 63, 64, 127, 128, 254].map drawMask =
      [0x01, 0x03, 0x03, 0x07, 0x07, 0x0F, 0x0F, 0x1F, 0x1F, 0x3F, 0x3F, 0x7F, 0x7F, 0xFF, 0xFF] := by decide

/-- V-SP3 (a): 64 draws of FF at `t = 254` are too many; a 65th answer is not drawn. -/
theorem test_split_rejection_limit :
    let t := after (step (latched (secretState [0x01] (List.replicate 65 (.ok 0xFF))) 0x20002002))
    t.statusWord = 0x00000402 ∧ t.entropy = [.ok 0xFF] := by decide +kernel

theorem test_split_validation :
    (after (step (latched (secretState [0x41] []) 0x2012C003))).statusWord = 0x00000202 ∧
      (after (step (latched (secretState [] []) 0x20005003))).statusWord = 0x00000302 := by decide +kernel

theorem test_combine :
    let t := after (step (latched (sharesState [[0x6E, 0x01], [0x73, 0x02]]) 0x21002000))
    t.secret 0 = 0x65 ∧ t.len = 1 ∧ entry t.xc 1 = 0x02 ∧ t.statusWord = 0x00000002 := by decide +kernel

theorem test_combine_mismatch :
    (after (step (latched (sharesState [[0x6E, 0x01], [0x73, 0x74, 0x02]]) 0x21002000))).statusWord = 0x00000502 := by
  decide +kernel

/-! ### The host port (V-H), the finite-state machine, reset -/

/-- What a host read gives from `s`: the data word and `HERR`. -/
def readOf (s : State) (ha : Word) : Word × Bool :=
  let t := after (step { s with schedule := [.hostRead ha] })
  (t.rdata, t.herr)

/-- Every row of R62 at its ends, on a block with `LMAX = 255` and every cell that is read written. -/
def mapState : State :=
  { ((((loaded [] [] [] []).setShare 0 0 0xA0).setShare 255 255 0xA1).setSecret 0 0xA2).setSecret 254 0xA3 with
    result := 0xB0, len := 0xB1B1, shlen := setEntry (Vector.replicate 256 0x0C0C) 255 0xC1C1,
    xc := setEntry (Vector.replicate 256 0xD0) 255 0xD1, coef := setEntry (Vector.replicate 256 0xE0) 255 0xE1,
    py := setEntry (Vector.replicate 256 0xF0) 255 0xF1 }

theorem test_read_map :
    [0x0, 0x1, 0x2, 0x3, 0x4, 0x5, 0x6, 0xFF, 0x100, 0x1FF, 0x200, 0x2FF, 0x300, 0x3FF, 0x400, 0x4FF, 0x500,
      0xFFFFFF, 0x1000000, 0x1000100, 0x1FF00FF, 0x1FFFFFF, 0x2000000, 0x20000FE, 0x20000FF, 0x200FFFF, 0x2010000,
      0xFFFFFFFF].map (readOf mapState) =
    [(0, true), (0, false), (0, false), (0x000100FF, false), (0xB0, false), (0xB1B1, false), (0, true), (0, true),
      (0x0C0C, false), (0xC1C1, false), (0xD0, false), (0xD1, false), (0xE0, false), (0xE1, false), (0xF0, false),
      (0xF1, false), (0, true), (0, true), (0xA0, false), (0, true), (0xA1, false), (0, true), (0xA2, false),
      (0xA3, false), (0, true), (0, true), (0, true), (0, true)] := by decide +kernel

theorem test_read_closed :
    [0x0, 0x1, 0x2, 0x3, 0x4, 0x100, 0x1000000].map (readOf { mapState with busy := true, ie := true }) =
    [(0, true), (1, false), (1, false), (0x000100FF, false), (0, true), (0, true), (0, true)] := by decide +kernel

/-- What a host write leaves from `s`. -/
def writeOf (s : State) (ha d : Word) : State := after (step { s with schedule := [.hostWrite ha d] })

theorem test_write_map :
    (writeOf mapState 0x5 0x00012345).len = 0x2345 ∧ (entry (writeOf mapState 0x1FF 0x000FFFF7).shlen 255) = 0xFFF7 ∧
      (entry (writeOf mapState 0x200 0x1CD).xc 0) = 0xCD ∧ (entry (writeOf mapState 0x3FF 0x1CD).coef 255) = 0xCD ∧
      (entry (writeOf mapState 0x400 0x1CD).py 0) = 0xCD ∧ (writeOf mapState 0x01FF00FF 0x1CD).share 255 255 = 0xCD ∧
      (writeOf mapState 0x020000FE 0x1CD).secret 254 = 0xCD ∧ (writeOf mapState 0x2 0xFFFFFFFF).ctrlWord = 1 := by
  decide +kernel

theorem test_write_refused :
    [0x3, 0x4, 0x6, 0xFF, 0x500, 0xFFFFFF, 0x01000100, 0x01FFFFFF, 0x020000FF, 0x0200FFFF, 0x02010000, 0xFFFFFFFF].map
      (fun ha => (writeOf mapState ha 0x1).herr) = List.replicate 12 true := by decide +kernel

theorem test_status_write_clears :
    (writeOf { mapState with done := true, herr := true, ecode := .illegalCommand } 0x1 0xA).statusWord = 0x00000600 ∧
      (writeOf { mapState with done := true, herr := true } 0x1 0xFFFFFFF5).statusWord = 0x0000000A := by decide +kernel

/-- `GFADD` as the machine of R221 runs it: IDLE, DECODE, FIELD, END, IDLE. -/
theorem test_machine_gfadd :
    (transitions 3 (latched State.reset 0x01578300)).result = 0xD4 ∧
      (transitions 1 (latched State.reset 0x01578300)).seq.st = .field ∧
      (transitions 3 (latched State.reset 0x01578300)).seq.st = .idle := by decide +kernel

/-- `PGEN 3`: DECODE, three visits of GEN, END. -/
theorem test_machine_pgen :
    (transitions 5 (latched (loaded [] [] [] [.ok 0x0B, .ok 0x8C]) 0x10003065)).statusWord = 0x00000002 ∧
      (transitions 4 (latched (loaded [] [] [] [.ok 0x0B, .ok 0x8C]) 0x10003065)).seq.st = .finish := by decide +kernel

theorem test_reset_clears_fatal :
    (after (step { ran 0x03000000 with schedule := [.reset] })).statusWord = 0 := by decide +kernel

theorem test_halted_is_a_fault : step (ran 0x03000000) = .fault .haltedAfterDivideByZero := rfl

/-! ### Witnesses: the statements' hypotheses can be met

One theorem per statement with hypotheses, named after it, each clause at a boundary value. -/

theorem exec_after (i : Instr) (s : State) : exec i s = .next (after (exec i s)) := by
  obtain ⟨t, ht⟩ := exec_next i s
  rw [ht]
  rfl

/-- Every bit vector reads as some polynomial. -/
theorem readsAs_exists {w : Nat} (v : BitVec w) : ∃ p, ReadsAs v p := by
  refine ⟨∑ i ∈ Finset.range w, Polynomial.monomial i (if v.getLsbD i then 1 else 0), fun i => ?_⟩
  rw [Polynomial.finsetSum_coeff]
  simp only [Polynomial.coeff_monomial]
  rw [Finset.sum_ite_eq' (Finset.range w) i]
  by_cases h : i < w
  · simp [h]
  · simp [h, BitVec.getLsbD_of_ge v i (by omega)]

theorem witness_StepRunsTheLatchedCommand :
    (latched State.reset 0x01578300).schedule = [] ∧ (latched State.reset 0x01578300).seq.st = .decode ∧
      decode (latched State.reset 0x01578300).cmdl = .ok (.gfadd 0x57 0x83) := by decide

theorem witness_EveryWordMatchesOneRowOrIsIllegal :
    let s := { State.reset with schedule := [.hostWrite 0 0x11101002] }
    s.busy = false ∧ s.fatal = false ∧ s.schedule = [.hostWrite 0 0x11101002] ∧
      decode 0x11101002 = .illegal (.countOutOfRange 257) ∧ decode 0xFFFFFFFF = .illegal (.reservedOpcode 0xFF) := by
  decide

theorem witness_DecodeOfEncodeIsTheCommand :
    Instr.wf (.pgen 1 0xFF) = true ∧ Instr.wf (.linterp 256 0x00) = true ∧ Instr.wf (.split 0xFFF 0xFFF) = true := by decide

theorem witness_EncodeOfDecodeIsTheWord :
    decode 0x10001000 = .ok (.pgen 1 0x00) ∧ decode 0x121000FF = .ok (.linterp 256 0xFF) := by decide

theorem witness_MultiplicationIsTheProductModuloPoly :
    ∃ pm pa pb, (0x11B#9).getLsbD 8 = true ∧ ReadsAs 0x11B#9 pm ∧ ReadsAs 0xFF#8 pa ∧ ReadsAs 0x80#8 pb := by
  obtain ⟨pm, hm⟩ := readsAs_exists 0x11B#9
  obtain ⟨pa, ha⟩ := readsAs_exists 0xFF#8
  obtain ⟨pb, hb⟩ := readsAs_exists 0x80#8
  exact ⟨pm, pa, pb, by decide, hm, ha, hb⟩

theorem witness_LegalModuliAreTheIrreducibles :
    ∃ p q, (0x1F9#9).getLsbD 8 = true ∧ ReadsAs 0x1F9#9 p ∧ 0x1F9#9 ∈ Config.legalPolys ∧
      (0x100#9).getLsbD 8 = true ∧ ReadsAs 0x100#9 q ∧ 0x100#9 ∉ Config.legalPolys := by
  obtain ⟨p, hp⟩ := readsAs_exists 0x1F9#9
  obtain ⟨q, hq⟩ := readsAs_exists 0x100#9
  exact ⟨p, q, by decide, hp, by decide, by decide, hq, by decide⟩

theorem witness_FieldLaws : 0x11B#9 ∈ Config.legalPolys ∧ 0x1F9#9 ∈ Config.legalPolys ∧ (0xFF : Byte) ≠ 0x00 := by decide

theorem witness_InverseUnit : 0x11B#9 ∈ Config.legalPolys ∧ (0x01 : Byte) ≠ 0x00 := by decide

theorem witness_DivisionLaws : 0x11D#9 ∈ Config.legalPolys ∧ (0xFF : Byte) ≠ 0x00 := by decide

/-- A latched word of an opcode, as `WordRuns` asks for it. -/
def WordWitness (op : Byte) (w : Nat) : Prop :=
  (latched State.reset w).schedule = [] ∧ (latched State.reset w).seq.st = .decode ∧
    (latched State.reset w).cmdl.extractLsb' 24 8 = op

theorem witness_GfaddCommand :
    WordWitness 0x01 0x01FFFF00 ∧ (latched State.reset 0x01FFFF00).cmdl.extractLsb' 0 8 = 0 ∧
      WordWitness 0x01 0x01FFFF80 ∧ ¬(latched State.reset 0x01FFFF80).cmdl.extractLsb' 0 8 = 0 := by
  unfold WordWitness
  decide

theorem witness_GfmulCommand :
    WordWitness 0x02 0x02FFFF00 ∧ (latched State.reset 0x02FFFF00).cmdl.extractLsb' 0 8 = 0 ∧
      WordWitness 0x02 0x02FFFF01 ∧ ¬(latched State.reset 0x02FFFF01).cmdl.extractLsb' 0 8 = 0 := by
  unfold WordWitness
  decide

theorem witness_GfinvCommand :
    State.reset.cfg.Legal ∧ (0x01 : Byte) ≠ 0x00 ∧
      WordWitness 0x03 0x03FF0000 ∧ (latched State.reset 0x03FF0000).cmdl.extractLsb' 0 16 = 0 ∧
      WordWitness 0x03 0x03FF8000 ∧ ¬(latched State.reset 0x03FF8000).cmdl.extractLsb' 0 16 = 0 := by
  unfold WordWitness
  decide

theorem witness_GfdivCommand :
    State.reset.cfg.Legal ∧ (0xFF : Byte) ≠ 0x00 ∧
      WordWitness 0x04 0x0400FF00 ∧ (latched State.reset 0x0400FF00).cmdl.extractLsb' 0 8 = 0 ∧
      WordWitness 0x04 0x0400FF80 ∧ ¬(latched State.reset 0x0400FF80).cmdl.extractLsb' 0 8 = 0 := by
  unfold WordWitness
  decide

theorem witness_LegalV :
    LegalV 0x10001000 ∧ LegalV 0x101000FF ∧ ¬LegalV 0x10000000 ∧ ¬LegalV 0x10101000 ∧ ¬LegalV 0x10001800 := by
  unfold LegalV
  decide

/-- No draw at `cnt = 1`, 255 draws at `cnt = 256`, and a failing draw at either end. -/
theorem witness_PgenCommand :
    (1 ≤ (1#12).toNat ∧ (1#12).toNat ≤ 256 ∧ ([] : List Byte).length = (1#12).toNat - 1 ∧
      State.reset.entropy = ([] : List Byte).map .ok ++ []) ∧
    (1 ≤ (256#12).toNat ∧ (256#12).toNat ≤ 256 ∧ (List.replicate 255 (0xFF : Byte)).length = (256#12).toNat - 1 ∧
      (loaded [] [] [] (List.replicate 255 (.ok 0xFF))).entropy = (List.replicate 255 0xFF).map .ok ++ []) ∧
    ((2#12).toNat ≤ 256 ∧ ([] : List Byte).length < (2#12).toNat - 1 ∧
      (loaded [] [] [] [.fail]).entropy = ([] : List Byte).map .ok ++ .fail :: []) ∧
    ((256#12).toNat ≤ 256 ∧ (List.replicate 254 (0xFF : Byte)).length < (256#12).toNat - 1 ∧
      (loaded [] [] [] ((List.replicate 254 0xFF).map .ok ++ [.fail])).entropy =
        (List.replicate 254 0xFF).map .ok ++ .fail :: []) ∧
    WordWitness 0x10 0x10001000 ∧ LegalV (latched State.reset 0x10001000).cmdl ∧
    WordWitness 0x10 0x10101000 ∧ ¬LegalV (latched State.reset 0x10101000).cmdl := by
  unfold WordWitness LegalV
  decide +kernel

theorem witness_UnansweredDrawWaits :
    ((2#12).toNat ≤ 256 ∧ ([] : List Byte).length < (2#12).toNat - 1 ∧ State.reset.entropy = ([] : List Byte).map .ok) ∧
    (State.reset.cfg.Legal ∧ SplitArgs 255 255 (secretState [0x01] []) ∧ (secretState [0x01] []).entropy = []) := by
  unfold SplitArgs
  decide +kernel

theorem witness_PevalCommand :
    State.reset.cfg.Legal ∧ 1 ≤ (1#12).toNat ∧ (1#12).toNat ≤ 256 ∧ 1 ≤ (256#12).toNat ∧ (256#12).toNat ≤ 256 ∧
      WordWitness 0x11 0x111000FF ∧ LegalV (latched State.reset 0x111000FF).cmdl ∧
      WordWitness 0x11 0x11000000 ∧ ¬LegalV (latched State.reset 0x11000000).cmdl := by
  unfold WordWitness LegalV
  decide

theorem witness_EvaluationAtTheOrigin : 1 ≤ (1#12).toNat ∧ (1#12).toNat ≤ 256 ∧ (256#12).toNat ≤ 256 := by decide

/-- Coordinates 0 to 255, all different. -/
def allXc : Vector Byte 256 := Vector.ofFn fun i => BitVec.ofNat 8 i.val

theorem allXc_distinct (m : Nat) (hm : m ≤ 256) : DistinctXc allXc m := by
  intro i j hi hj h
  have e (a : Nat) (ha : a < 256) : entry allXc a = BitVec.ofNat 8 a := by
    unfold entry allXc
    rw [Vector.getElem?_eq_getElem ha]
    simp only [Vector.getElem_ofFn, Option.getD_some]
  rw [e i (by omega), e j (by omega)] at h
  have := congrArg BitVec.toNat h
  simp only [BitVec.toNat_ofNat] at this
  omega

theorem zeroXc_not_distinct : ¬DistinctXc State.reset.xc 2 := fun h =>
  absurd (h 0 1 (by decide) (by decide) ((entry_replicate_zero 0).trans (entry_replicate_zero 1).symm)) (by decide)

theorem witness_LinterpCommand :
    (1 ≤ (256#12).toNat ∧ (256#12).toNat ≤ 256 ∧ DistinctXc allXc (256#12).toNat ∧ DistinctXc allXc (1#12).toNat) ∧
    (1 ≤ (2#12).toNat ∧ (2#12).toNat ≤ 256 ∧ ¬DistinctXc State.reset.xc (2#12).toNat) ∧
    WordWitness 0x12 0x121000FF ∧ LegalV (latched State.reset 0x121000FF).cmdl ∧
    WordWitness 0x12 0x12FFF000 ∧ ¬LegalV (latched State.reset 0x12FFF000).cmdl :=
  ⟨⟨by decide, by decide, allXc_distinct _ (by decide), allXc_distinct _ (by decide)⟩,
    ⟨by decide, by decide, zeroXc_not_distinct⟩, by unfold WordWitness LegalV; decide⟩

theorem witness_InterpolationAtANode :
    State.reset.cfg.Legal ∧ 1 ≤ (256#12).toNat ∧ (256#12).toNat ≤ 256 ∧ DistinctXc allXc (256#12).toNat ∧
      255 < (256#12).toNat :=
  ⟨by decide, by decide, by decide, allXc_distinct _ (by decide), by decide⟩

/-- The constant polynomial 0x42 at the coordinates 0 to 255. -/
theorem witness_InterpolationInvertsEvaluation :
    let s := { State.reset with xc := allXc, py := Vector.replicate 256 0x42, coef := setEntry State.reset.coef 0 0x42 }
    s.cfg.Legal ∧ 1 ≤ (1#12).toNat ∧ (1#12).toNat ≤ (256#12).toNat ∧ (256#12).toNat ≤ 256 ∧
      DistinctXc s.xc (256#12).toNat ∧
      ∀ i, i < (256#12).toNat → entry s.py i = s.horner (1#12).toNat (entry s.xc i) := by
  refine ⟨by decide, by decide, by decide, by decide, allXc_distinct _ (by decide), fun i hi => ?_⟩
  have hi' : i < 256 := by simpa using hi
  show entry (Vector.replicate 256 0x42#8) i = entry (setEntry State.reset.coef 0 0x42) 0
  rw [entry_setEntry _ _ _ (by decide), if_pos rfl]
  unfold entry
  rw [Vector.getElem?_eq_getElem hi']
  simp

theorem witness_SplitValidation :
    ((1#12).toNat < 2 ∨ 255 < (1#12).toNat) ∧ ((256#12).toNat < 2 ∨ 255 < (256#12).toNat) ∧
    (2 ≤ (2#12).toNat ∧ (2#12).toNat ≤ 255 ∧ ((1#12).toNat < (2#12).toNat ∨ 255 < (1#12).toNat)) ∧
    (2 ≤ (255#12).toNat ∧ (255#12).toNat ≤ 255 ∧ ((256#12).toNat < (255#12).toNat ∨ 255 < (256#12).toNat)) ∧
    (2 ≤ (2#12).toNat ∧ (2#12).toNat ≤ (255#12).toNat ∧ (255#12).toNat ≤ 255 ∧ State.reset.len.toNat = 0) ∧
    (let s : State := { State.reset with len := 256 };
      2 ≤ (2#12).toNat ∧ (2#12).toNat ≤ (2#12).toNat ∧ (2#12).toNat ≤ 255 ∧ s.len.toNat ≠ 0 ∧ s.cfg.lmax < s.len.toNat) := by
  decide

/-- V-SP1's identity draws, then one coefficient; the block is running the command. -/
def splitStart : State :=
  { secretState [0x01] (identityDraws.map .ok ++ [0x07].map .ok) with
    busy := true, cmdl := 0x20002002, seq := Seq.start .decode }

theorem identityDraws_length : identityDraws.length = 254 := by
  rw [identityDraws, List.length_map, length_downFrom]

/-- A byte equal to `t` is accepted at `t`. -/
theorem drawnIndex_self : ∀ t, t < 255 → drawnIndex t (BitVec.ofNat 8 t) ≤ t := by decide +kernel

theorem identityDraws_accepted :
    ∀ q, q < 254 → drawnIndex (254 - q) (identityDraws.getD q 0) ≤ 254 - q := fun q hq => by
  rw [List.getD_eq_getElem?_getD, identityDraws, List.getElem?_map, getElem?_downFrom 254 q hq]
  exact drawnIndex_self (254 - q) (by omega)

theorem splitStart_facts : splitStart.cfg.Legal ∧ Memory.wf splitStart.mem ∧ SplitArgs 2 2 splitStart ∧
    splitError 2 2 splitStart = none ∧ splitStart.len.toNat = 1 ∧ splitStart.busy = true ∧
    splitStart.seq = Seq.start .decode ∧ decode splitStart.cmdl = .ok (.split 2 2) := by
  unfold SplitArgs
  decide +kernel

theorem splitStart_entropy : splitStart.entropy = identityDraws.map .ok ++ [0x07].map .ok ++ [] :=
  (List.append_nil (identityDraws.map Answer.ok ++ [Answer.ok 0x07])).symm

/-- V-SP3 (b): 63 rejected bytes FF at `t = 254`, then the identity permutation. -/
def rejectingDraws : List (List Byte × Byte) :=
  (List.replicate 63 0xFF, 0xFE) :: ((downFrom 253).map (BitVec.ofNat 8)).map fun b => ([], b)

theorem rejectingDraws_facts : rejectingDraws.length = 254 ∧ IndexDraws 64 rejectingDraws := by
  have hlen : rejectingDraws.length = 254 := by
    rw [rejectingDraws, List.length_cons, List.length_map, List.length_map, length_downFrom]
  refine ⟨hlen, fun q hq => ?_⟩
  rw [hlen] at hq
  cases q with
  | zero => decide
  | succ q =>
    have hd : rejectingDraws.getD (q + 1) ([], 0) = ([], BitVec.ofNat 8 (253 - q)) := by
      rw [List.getD_eq_getElem?_getD, rejectingDraws, List.getElem?_cons_succ, List.getElem?_map, List.getElem?_map,
        getElem?_downFrom 253 q (by omega)]
      rfl
    rw [hd]
    refine ⟨Nat.succ_pos 63, fun b hb => absurd hb List.not_mem_nil, ?_⟩
    rw [show 254 - (q + 1) = 253 - q by omega]
    exact drawnIndex_self (253 - q) (by omega)
def rejectingStart : State := { splitStart with entropy := (indexBytes rejectingDraws).map .ok ++ [0x07].map .ok ++ [] }

theorem witness_SplitRun :
    rejectingStart.cfg.Legal ∧ Memory.wf rejectingStart.mem ∧ SplitArgs 2 2 rejectingStart ∧
      rejectingDraws.length = 254 ∧ IndexDraws rejectingStart.cfg.rejLimit rejectingDraws ∧
      [(0x07 : Byte)].length = rejectingStart.len.toNat * ((2#12).toNat - 1) ∧
      rejectingStart.entropy = (indexBytes rejectingDraws).map .ok ++ [0x07].map .ok ++ [] :=
  ⟨splitStart_facts.1, splitStart_facts.2.1, splitStart_facts.2.2.1, rejectingDraws_facts.1, rejectingDraws_facts.2,
    (congrArg (· * 1) splitStart_facts.2.2.2.2.1).symm, rfl⟩

/-- A `SPLIT` that ends successfully. -/
theorem split_succeeds :
    ∃ t, exec (.split 2 2) splitStart = .next t ∧ t.busy = false ∧ t.ecode = .ok ∧ t.cfg = splitStart.cfg :=
  exec_split_ok splitStart_facts.2.2.2.1 splitStart_facts.1.2.2.2.1 identityDraws_length identityDraws_accepted
    (by rw [splitStart_facts.2.2.2.2.1]; rfl) splitStart_entropy

theorem witness_SplitGuarantee :
    ∃ t, splitStart.cfg.Legal ∧ Memory.wf splitStart.mem ∧ splitStart.busy = true ∧
      exec (.split 2 2) splitStart = .next t ∧ t.busy = false ∧ t.ecode = .ok := by
  obtain ⟨t, h1, h2, h3, _⟩ := split_succeeds
  exact ⟨t, splitStart_facts.1, splitStart_facts.2.1, splitStart_facts.2.2.2.2.2.1, h1, h2, h3⟩

theorem witness_SplitFrame :
    ∃ t, splitStart.cfg.Legal ∧ Memory.wf splitStart.mem ∧ exec (.split 2 2) splitStart = .next t ∧ t.ecode = .ok := by
  obtain ⟨t, h1, _, h3, _⟩ := split_succeeds
  exact ⟨t, splitStart_facts.1, splitStart_facts.2.1, h1, h3⟩

/-- The first draw fails. -/
def failStart : State := { secretState [0x01] [.fail] with busy := true }

/-- The first draw fails; `REJ_LIMIT` draws are rejected; one coefficient is drawn and the next draw fails. -/
theorem witness_FailedSplitReturnsNoShare :
    (∃ t, failStart.cfg.Legal ∧ failStart.busy = true ∧ exec (.split 2 2) failStart = .next t ∧ t.busy = false ∧
      t.ecode = .randomnessFailure) ∧
    (failStart.cfg.Legal ∧ SplitArgs 2 2 failStart ∧ ([] : List (List Byte × Byte)).length < 254 ∧
      IndexDraws failStart.cfg.rejLimit [] ∧ ([] : List Byte).length < failStart.cfg.rejLimit ∧
      failStart.entropy = (indexBytes []).map .ok ++ ([] : List Byte).map .ok ++ .fail :: []) ∧
    (let s : State := { failStart with entropy := (List.replicate 64 0xFF).map .ok ++ [] };
      (∀ b ∈ List.replicate 64 (0xFF : Byte), 254 - 0 < drawnIndex (254 - 0) b) ∧
      (List.replicate 64 (0xFF : Byte)).length = s.cfg.rejLimit ∧
      s.entropy = (indexBytes []).map .ok ++ (List.replicate 64 0xFF).map .ok ++ []) ∧
    (let s : State := { rejectingStart with entropy := (indexBytes rejectingDraws).map .ok ++ [0x07].map .ok ++ .fail :: [] };
      SplitArgs 3 3 s ∧ [(0x07 : Byte)].length < s.len.toNat * ((3#12).toNat - 1) ∧
      s.entropy = (indexBytes rejectingDraws).map .ok ++ [0x07].map .ok ++ .fail :: []) := by
  refine ⟨⟨_, by decide, by decide, exec_after _ _, by decide +kernel⟩, ?_, ⟨?_, rfl, rfl⟩, ?_, ?_, rfl⟩
  · unfold SplitArgs IndexDraws
    decide +kernel
  · decide
  · unfold SplitArgs
    decide +kernel
  · decide +kernel

theorem witness_RejectionLimitFailsSplit :
    let s := secretState [0x01] (List.replicate 64 (.ok 0xFF) ++ [.ok 0x00])
    s.cfg.Legal ∧ SplitArgs 255 2 s ∧ s.entropy = List.replicate s.cfg.rejLimit (.ok 0xFF) ++ [.ok 0x00] := by
  unfold SplitArgs
  decide +kernel

theorem witness_SplitDrawsAreBounded :
    (∃ t, exec (.split 2 2) splitStart = .next t ∧ t.busy = false) ∧
    (∃ t, exec (.split 2 2) State.reset = .next t ∧
      let s := { State.reset with entropy := List.replicate 16256 Answer.fail }
      254 * s.cfg.rejLimit + s.len.toNat * ((2#12).toNat - 1) ≤ s.entropy.length) := by
  obtain ⟨t, h1, h2, _⟩ := split_succeeds
  refine ⟨⟨t, h1, h2⟩, _, rfl, ?_⟩
  show _ ≤ (List.replicate 16256 Answer.fail).length
  rw [List.length_replicate]
  decide

theorem witness_DrawIndexStaysInRange :
    (1 ≤ 254 ∧ 254 ≤ 254 ∧ 254 ≤ (0xFF#8).toNat) ∧
    (∃ u, drawIndex 1 1 { State.reset with entropy := [.ok 0xFF] } = .byte 0x01 u) ∧
    (∀ b ∈ List.replicate 63 (0xFF : Byte), 254 < (b &&& drawMask 254).toNat) ∧
    (List.replicate 63 (0xFF : Byte)).length < 64 ∧ ((0xFE : Byte) &&& drawMask 254).toNat ≤ 254 ∧
    (List.replicate 64 (0xFF : Byte)).length = 64 := ⟨by decide, ⟨_, rfl⟩, by decide, by decide, by decide, by decide⟩

theorem witness_ShuffleKeepsAPermutation :
    ({ State.reset with seq := Seq.start .spClear } : State).seq.st = .spClear ∧
    (let s : State := { identityXc State.reset with seq := { Seq.start .spShuffle with t := 254 } };
      s.seq.st = .spShuffle ∧ 1 ≤ s.seq.t ∧ s.seq.t ≤ 254 ∧ PermutesNonzero s.xc) := by
  refine ⟨rfl, rfl, by decide, by decide, ?_⟩
  show PermutesNonzero (identityXc State.reset).xc
  have e (a : Nat) (ha : a < 255) : entry (identityXc State.reset).xc a = BitVec.ofNat 8 (a + 1) := by
    rw [identityXc_entry, if_pos ha]
  refine ⟨fun i j hi hj h => ?_, fun i hi h => ?_⟩
  · rw [e i hi, e j hj] at h
    have := congrArg BitVec.toNat h
    simp only [BitVec.toNat_ofNat] at this
    omega
  · rw [e i hi] at h
    have h0 : (BitVec.ofNat 8 (i + 1)).toNat = 0 := by rw [h]; rfl
    rw [BitVec.toNat_ofNat] at h0
    omega

/-- Two shares of two bytes, as V-CB has them. -/
def combineStart : State :=
  { sharesState [[0x6E, 0x01], [0x73, 0x02]] with busy := true, cmdl := 0x21002000, seq := Seq.start .decode }

theorem lengths_equal {m : BitVec 12} {s : State} (h2 : 2 ≤ m.toNat) (h256 : m.toNat ≤ 256) (l : BitVec 16)
    (hl : 2 ≤ l.toNat) (h : ∀ j, j < m.toNat → entry s.shlen j = l) : CombineLengths m s :=
  ⟨h2, h256, fun j hj => ⟨(h j hj).symm ▸ hl, (h j hj).trans (h 0 (by omega)).symm⟩⟩

theorem distinct_two (s : State) (h : s.share 0 ((entry s.shlen 0).toNat - 1) ≠ s.share 1 ((entry s.shlen 0).toNat - 1)) :
    CombineDistinct 2 s := by
  intro a b ha hb hab
  have ha : a < 2 := ha
  have hb : b < 2 := hb
  have : (a = 0 ∧ b = 1) ∨ (a = 1 ∧ b = 0) := by omega
  rcases this with ⟨rfl, rfl⟩ | ⟨rfl, rfl⟩
  · exact h
  · exact h.symm

theorem witness_CombineValidation :
    (combineStart.cfg.Legal ∧ ¬CombineLengths 1 combineStart ∧ ¬CombineLengths 257 combineStart ∧
      ¬CombineLengths 3 combineStart) ∧
    (let s : State := { State.reset with shlen := Vector.replicate 256 257 };
      s.cfg.Legal ∧ CombineLengths 2 s ∧ s.cfg.lmax + 1 < (entry s.shlen 0).toNat) ∧
    (let s := sharesState [[0x6E, 0x01], [0x73, 0x01]];
      s.cfg.Legal ∧ CombineLengths 2 s ∧ (entry s.shlen 0).toNat ≤ s.cfg.lmax + 1 ∧ ¬CombineDistinct 2 s) := by
  refine ⟨⟨by decide, fun h => absurd h.1 (by decide), fun h => absurd h.2.1 (by decide), fun h => ?_⟩,
    ⟨by decide, lengths_equal (by decide) (by decide) 257 (by decide) (by decide +kernel), by decide +kernel⟩,
    by decide +kernel, lengths_equal (by decide) (by decide) 2 (by decide) (by decide +kernel), by decide +kernel, fun h => ?_⟩
  · exact absurd (h.2.2 2 (by decide)).1 (by decide +kernel)
  · exact h 0 1 (by decide) (by decide) (by decide) (by decide +kernel)

theorem combineStart_facts : combineStart.cfg.Legal ∧ Memory.wf combineStart.mem ∧
    (∀ j, j < (2#12).toNat → entry combineStart.shlen j = 2) ∧
    combineStart.share 0 ((entry combineStart.shlen 0).toNat - 1) ≠
      combineStart.share 1 ((entry combineStart.shlen 0).toNat - 1) := by decide +kernel

theorem witness_CombineRun :
    combineStart.cfg.Legal ∧ Memory.wf combineStart.mem ∧ CombineLengths 2 combineStart ∧
      (entry combineStart.shlen 0).toNat ≤ combineStart.cfg.lmax + 1 ∧ CombineDistinct 2 combineStart :=
  ⟨combineStart_facts.1, combineStart_facts.2.1, lengths_equal (by decide) (by decide) 2 (by decide) combineStart_facts.2.2.1, by decide +kernel,
    distinct_two _ combineStart_facts.2.2.2⟩

/-- The shares of the successful split, back in their own slots. -/
theorem witness_SplitThenCombineRecoversTheSecret :
    ∃ t, splitStart.cfg.Legal ∧ Memory.wf splitStart.mem ∧ splitStart.busy = true ∧
      exec (.split 2 2) splitStart = .next t ∧ t.busy = false ∧ t.ecode = .ok ∧
      (2#12).toNat ≤ (2#12).toNat ∧ (∀ j, j < (2#12).toNat → id j < (2#12).toNat) ∧
      (∀ i j, i < (2#12).toNat → j < (2#12).toNat → id i = id j → i = j) ∧ t.cfg = splitStart.cfg ∧ Memory.wf t.mem ∧
      (∀ j, j < (2#12).toNat → entry t.shlen j = entry t.shlen (id j)) ∧
      (∀ j o, j < (2#12).toNat → o ≤ splitStart.len.toNat → t.share j o = t.share (id j) o) := by
  obtain ⟨t, h1, h2, h3, h4⟩ := split_succeeds
  exact ⟨t, splitStart_facts.1, splitStart_facts.2.1, splitStart_facts.2.2.2.2.2.1, h1, h2, h3, Nat.le_refl _,
    fun _ h => h, fun _ _ _ _ h => h, h4, exec_wf _ splitStart_facts.2.1 h1, fun _ _ => rfl, fun _ _ _ _ => rfl⟩

theorem witness_EveryCommandEnds :
    let s := latched State.reset 0x03000000
    s.busy = true ∧ s.done = false ∧ s.ecode = .ok ∧ s.fatal = false := by decide

theorem witness_EveryCommandLeavesTheHostSideAlone :
    ∃ t, exec (.gfadd 0x57 0x83) (latched State.reset 0x01578300) = .next t ∧ t.result = 0xD4 := ⟨_, rfl, by decide +kernel⟩

theorem witness_ErrorsLeaveTheDataState :
    ∃ t, State.reset.done = false ∧ exec (.split 300 3) State.reset = .next t ∧ t.done = true ∧ t.ecode ≠ .ok ∧
      t.ecode ≠ .randomnessFailure := ⟨_, rfl, rfl, by decide⟩

theorem witness_ResultHasSixWriters :
    ∃ t, exec (.gfmul 0x57 0x83) State.reset = .next t ∧ t.result ≠ State.reset.result := ⟨_, rfl, by decide +kernel⟩

theorem witness_FatalHasThreeCauses :
    ∃ t, State.reset.cfg.Legal ∧ Memory.wf State.reset.mem ∧ State.reset.fatal = false ∧
      exec (.linterp 2 0x00) State.reset = .next t ∧ t.fatal = true :=
  ⟨_, by decide, by decide, by decide, exec_after _ _, by decide +kernel⟩

/-- The premises of `MachineAgrees` for the command `i`, met by the word `w` from `s`. -/
def AgreementWitness (s : State) (w : Nat) (i : Instr) : Prop :=
  ∃ t, (latched s w).cfg.Legal ∧ (latched s w).busy = true ∧ (latched s w).seq = Seq.start .decode ∧
    decode (latched s w).cmdl = .ok i ∧ exec i (latched s w) = .next t ∧ t.busy = false

theorem agreementWitness_intro {s : State} {w : Nat} {i : Instr} (h1 : s.cfg.Legal)
    (h2 : decode (latched s w).cmdl = .ok i) (h3 : (after (exec i (latched s w))).busy = false) : AgreementWitness s w i :=
  ⟨_, h1, rfl, rfl, h2, exec_after _ _, h3⟩

/-- One of each: a successful, a fatal, and a failing end among them. -/
theorem witness_MachineAgreesOnFieldAndVectorCommands :
    AgreementWitness State.reset 0x01578300 (.gfadd 0x57 0x83) ∧ AgreementWitness State.reset 0x02578300 (.gfmul 0x57 0x83) ∧
      AgreementWitness State.reset 0x03000000 (.gfinv 0x00) ∧ AgreementWitness State.reset 0x04C18300 (.gfdiv 0xC1 0x83) ∧
      AgreementWitness (loaded [] [] [] [.ok 0x0B, .fail]) 0x10004065 (.pgen 4 0x65) ∧
      AgreementWitness State.reset 0x11100002 (.peval 256 0x02) ∧
      AgreementWitness (loaded [0x01] [] [] []) 0x12002000 (.linterp 2 0x00) :=
  ⟨agreementWitness_intro (by decide) (by decide) (by decide +kernel),
    agreementWitness_intro (by decide) (by decide) (by decide +kernel),
    agreementWitness_intro (by decide) (by decide) (by decide +kernel),
    agreementWitness_intro (by decide) (by decide) (by decide +kernel),
    agreementWitness_intro (by decide) (by decide) (by decide +kernel),
    agreementWitness_intro (by decide) (by decide) (by decide +kernel),
    agreementWitness_intro (by decide) (by decide) (by decide +kernel)⟩

theorem witness_MachineAgreesOnSplit :
    ∃ t, splitStart.cfg.Legal ∧ splitStart.busy = true ∧ splitStart.seq = Seq.start .decode ∧
      decode splitStart.cmdl = .ok (.split 2 2) ∧ exec (.split 2 2) splitStart = .next t ∧ t.busy = false := by
  obtain ⟨t, h1, h2, _⟩ := split_succeeds
  exact ⟨t, splitStart_facts.1, splitStart_facts.2.2.2.2.2.1, splitStart_facts.2.2.2.2.2.2.1,
    splitStart_facts.2.2.2.2.2.2.2, h1, h2⟩

theorem witness_MachineAgreesOnCombine :
    ∃ t, combineStart.cfg.Legal ∧ combineStart.busy = true ∧ combineStart.seq = Seq.start .decode ∧
      decode combineStart.cmdl = .ok (.combine 2) ∧ exec (.combine 2) combineStart = .next t ∧ t.busy = false ∧
      t.ecode = .ok :=
  ⟨_, combineStart_facts.1, by decide, by decide, by decide, exec_after _ _, by decide +kernel⟩

/-- The invariant, for a state of no command and no cell. -/
theorem inv_outside {s : State} (h1 : s.cfg.Legal) (h2 : StatusInv s) (h3 : s.mem = [])
    (h4 : s.seq.st ∈ [ST.idle, .decode, .finish, .halt]) : Inv s := by
  refine ⟨h1, h2, ⟨by rw [h3]; exact List.Pairwise.nil, fun p hp => by rw [h3] at hp; cases hp⟩, fun h => absurd h4 h,
    ?_, ?_⟩
  all_goals
    simp only [List.mem_cons, List.not_mem_nil, or_false] at h4
    constructor <;> intro h <;> rcases h4 with h4 | h4 | h4 | h4 <;> simp [h4] at h

/-- The invariant holds of a block that has just accepted a command, and its next step runs it. -/
theorem witness_StepKeepsTheInvariant :
    ∃ t, Inv (latched State.reset 0x01578300) ∧ step (latched State.reset 0x01578300) = .next t ∧ t.result = 0xD4 :=
  ⟨_, inv_outside (by decide) ⟨by decide, by decide, by decide, by decide, by decide⟩ rfl (by decide), rfl,
    by decide +kernel⟩

theorem witness_ResetLeavesTheStatedValues :
    ({ ran 0x03000000 with schedule := [.reset] } : State).schedule = .reset :: [] := rfl

theorem witness_OnlyResetLeavesTheFatalState :
    let s := ran 0x03000000
    (s.fatal = true ∧ s.seq.st = .halt ∧ s.schedule = []) ∧
    (∃ t, { s with schedule := [.hostWrite 0 0x01578300] }.schedule.head? ≠ some .reset ∧
      step { s with schedule := [.hostWrite 0 0x01578300] } = .next t ∧ t.herr = true) ∧
    (∃ t, { s with schedule := [.reset] }.schedule.head? = some .reset ∧ step { s with schedule := [.reset] } = .next t) := by
  refine ⟨by decide +kernel, ⟨_, by decide, rfl, by decide +kernel⟩, _, by decide, rfl⟩

/-- The boundary addresses of the map: `locOf` names the location at both ends of every row of R62. -/
theorem witness_HostReadFollowsTheMap :
    State.reset.cfg.Legal ∧ State.reset.busy = false ∧ State.reset.fatal = false ∧
      (latched State.reset 0x01578300).busy = true ∧
      (0x1FF#32).toNat = 0x100 + 255 ∧ (0x4FF#32).toNat = 0x400 + 255 ∧
      (0x01FF00FF#32).toNat = 0x1000000 + 255 * 0x10000 + 255 ∧ 255 ≤ State.reset.cfg.lmax ∧
      (0x01FFFFFF#32).toNat = 0x1000000 + 255 * 0x10000 + 0xFFFF ∧ State.reset.cfg.lmax < 0xFFFF ∧
      (0x020000FE#32).toNat = 0x2000000 + 254 ∧ 254 < State.reset.cfg.lmax ∧
      (0x020000FF#32).toNat = 0x2000000 + 255 ∧ State.reset.cfg.lmax ≤ 255 ∧
      0x2010000 ≤ (0xFFFFFFFF#32).toNat ∧ (0x00FFFFFF#32).toNat ≤ 0xFFFFFF := by decide

theorem witness_HostWriteFollowsTheMap :
    let s := { State.reset with schedule := [.hostWrite 0x01FF00FF 0xCD] }
    s.cfg.Legal ∧ Memory.wf s.mem ∧ s.schedule = .hostWrite 0x01FF00FF 0xCD :: [] ∧ s.busy = false ∧ s.fatal = false ∧
      (0x01FF00FF#32).toNat = 0x1000000 + 255 * 0x10000 + 255 ∧ 255 ≤ s.cfg.lmax := by decide

theorem witness_ClosedGuardHidesTheDataState :
    let s := { latched State.reset 0x01578300 with schedule := [.hostRead 0x4] }
    let t := { s with result := 0x99, len := 3 }
    SameOutside s t ∧ (s.busy = true ∨ s.fatal = true) ∧ IsHostAccess (.hostRead 0x4) ∧ s.schedule = .hostRead 0x4 :: [] ∧
      t.schedule = .hostRead 0x4 :: [] ∧ s ≠ t :=
  ⟨⟨rfl, rfl, rfl, rfl, rfl, rfl, rfl, rfl, rfl⟩, .inl rfl, .inl ⟨_, rfl⟩, rfl, rfl, fun h => absurd (congrArg State.result h) (by decide)⟩

theorem witness_CommandPort :
    (let s : State := { State.reset with schedule := [.hostWrite 0 0x01578300] };
      s.busy = false ∧ s.fatal = false ∧ s.schedule = .hostWrite 0 0x01578300 :: []) ∧
    (let s : State := { latched State.reset 0x01578300 with schedule := [.hostWrite 0 0x01578300] };
      (s.busy = true ∨ s.fatal = true) ∧ s.schedule = .hostWrite 0 0x01578300 :: []) ∧
    (let s : State := { State.reset with schedule := [.hostRead 0] };
      s.schedule = .hostRead 0 :: []) := by decide

theorem witness_MachineAgreesOnIllegalWords :
    (latched State.reset 0x05000000).seq = Seq.start .decode ∧
      decode (latched State.reset 0x05000000).cmdl = .illegal (.reservedOpcode 0x05) ∧
      (latched State.reset 0x05000000).schedule = [] := by decide

theorem witness_TransitionsFollowTheTable : Inv (latched State.reset 0x01578300) :=
  inv_outside (by decide) ⟨by decide, by decide, by decide, by decide, by decide⟩ rfl (by decide)

/-- `COMBINE` past its checks: `CB_INTERP` of the one byte, then `CB_LEN`. -/
theorem test_machine_combine :
    (transitions 4 combineStart).seq.st = .cbInterp ∧ (transitions 5 combineStart).seq.st = .cbLen ∧
      (transitions 5 combineStart).secret 0 = 0x65 := by decide +kernel

theorem reset_starts : Starts State.reset := ⟨by decide, rfl⟩

theorem start_runInv (script : List Line) : RunInv (Run.start State.reset script) :=
  ⟨inv_outside (s := State.reset) (by decide) ⟨by decide, by decide, by decide, by decide, by decide⟩ rfl (by decide),
    rfl, rfl⟩

/-- What a play from reset leaves: the record, the lines to go, and `STATUS`. -/
def played (script : List Line) (movers : List Mover) : Option (List (Bool × Option ECode) × Nat × Word) :=
  ((Run.start State.reset script).play movers).map fun r => (r.left, r.script.length, r.state.statusWord)

theorem witness_RunsKeepTheInvariant :
    Starts State.reset ∧ RunInv (Run.start State.reset [.command 0x01578300 true]) ∧
      ((Run.start State.reset [.command 0x01578300 true]).move .host).isSome = true :=
  ⟨reset_starts, start_runInv _, by decide +kernel⟩

theorem witness_RunsRecordEveryCommand :
    RunInv (Run.start State.reset [.command 0x01578300 true]) ∧
      (Run.start State.reset [.command 0x01578300 true]).issuesBy .host = true ∧
      played [.command 0x01578300 true] [.host, .core] = some ([(true, some .ok)], 0, 0x00000002) :=
  ⟨start_runInv _, rfl, by decide +kernel⟩

/-- R303: the success of the last command does not hide the error of an earlier one. -/
theorem test_run_remembers_an_earlier_error :
    played [.command 0x05000000 true, .wait, .command 0x01578300 true, .wait] [.host, .core, .host, .host, .core, .host] =
      some ([(true, some .illegalCommand), (true, some .ok)], 0, 0x00000002) := by decide +kernel

/-- A word written while a command runs is dropped (R37), and a reset abandons the command in flight (R281). -/
theorem test_run_records_dropped_and_abandoned :
    played [.command 0x10002065 true, .write 0 0x01578300, .reset] [.host, .host, .host] =
      some ([(false, none), (true, none)], 0, 0x00000000) := by decide +kernel

end Sys2Proof.Tests
end

section
/-! PROOF. Every command as one body: what the body may write, how it leaves off, and what the command answers. -/

namespace Sys2Proof.Machine

/-! ### Sequencing -/

/-- A relation that both halves of `p; q` keep, and that composes, holds from the start of `p; q` to its end. -/
theorem Body.andThen_rel {R : State → State → Prop} (trans : ∀ {a b c}, R a b → R b c → R a c) {p q : Body}
    (hp : ∀ s, R s (p s).2) (hq : ∀ s, R s (q s).2) (s : State) : R s (Body.andThen p q s).2 := by
  rcases Body.andThen_cases p q s with ⟨t, ht, h⟩ | ⟨_, h⟩
  · have hst := hp s
    rw [ht] at hst
    rw [h]
    exact trans hst (hq t)
  · rw [h]
    exact hp s

/-- A property that both halves of `p; q` keep holds at its end, however it leaves off. -/
theorem Body.andThen_inv {P : State → Prop} {p q : Body} (hp : ∀ s, P s → P (p s).2) (hq : ∀ s, P s → P (q s).2)
    (s : State) (h : P s) : P (Body.andThen p q s).2 :=
  Body.andThen_rel (R := fun a b => P a → P b) (fun hab hbc ha => hbc (hab ha)) hp hq s h

/-! ### Results -/

/-- A piece of pseudocode has written `RESULT` and ended well, or has written nothing and raised something. -/
def WritesResultOnly (r : Exit × State) (s : State) : Prop :=
  (∃ v, r = (.ok, s.setResult v)) ∨ (∃ e, r = (.error e, s)) ∨ r = (.fatal, s)

theorem putResult_writesResultOnly (v : Option Byte) (s : State) : WritesResultOnly (putResult v s) s := by
  cases v with
  | none => exact .inr (.inr rfl)
  | some r => exact .inl ⟨r, rfl⟩

theorem withCount_writesResultOnly {cnt : BitVec 12} {body : Body} {s : State} (h : WritesResultOnly (body s) s) :
    WritesResultOnly (withCount cnt body s) s := by
  cases hc : countLegal cnt with
  | false => exact .inr (.inl ⟨.illegalCommand, withCount_illegal hc body s⟩)
  | true => exact (withCount_legal hc body s).symm ▸ h

theorem pevalBody_writesResultOnly (cnt : BitVec 12) (x : Byte) (s : State) : WritesResultOnly (pevalBody cnt x s) s :=
  withCount_writesResultOnly (putResult_writesResultOnly _ s)

theorem linterpBody_writesResultOnly (cnt : BitVec 12) (x : Byte) (s : State) :
    WritesResultOnly (linterpBody cnt x s) s :=
  withCount_writesResultOnly (putResult_writesResultOnly _ s)

theorem fieldWork_writesResultOnly (s : State) : WritesResultOnly (fieldWork s) s := by
  unfold fieldWork
  split_ifs <;> exact putResult_writesResultOnly _ s

/-! ### Frames of the longer commands -/

/-- However `PGEN` leaves off, it has written `COEF` and consumed answers, and nothing else. -/
theorem pgenBody_frame (cnt : BitVec 12) (c0 : Byte) (s : State) :
    (pgenBody cnt c0 s).2 =
      { s with coef := (pgenBody cnt c0 s).2.coef, entropy := (pgenBody cnt c0 s).2.entropy } := by
  unfold pgenBody
  cases hc : countLegal cnt with
  | false => rw [withCount_illegal hc]
  | true =>
    rw [withCount_legal hc]
    exact generate_frame cnt.toNat c0 s

/-- `b` is `a` but for what `SPLIT` may write (R190): `SHLEN`, `XC`, `COEF`, the memory, and the answers drawn. -/
def SplitWrites (a b : State) : Prop :=
  b = { a with shlen := b.shlen, xc := b.xc, coef := b.coef, mem := b.mem, entropy := b.entropy }

theorem SplitWrites.trans {a b c : State} (hab : SplitWrites a b) (hbc : SplitWrites b c) : SplitWrites a c := by
  unfold SplitWrites at *
  rw [hbc, hab]

theorem clearShlen_splitWrites (s : State) : SplitWrites s (clearShlen s) := rfl

theorem identityXc_splitWrites (s : State) : SplitWrites s (identityXc s) := by
  unfold SplitWrites
  rw [identityXc_frame]

theorem shuffle_splitWrites (s : State) : SplitWrites s (shuffle s).2 := by
  unfold SplitWrites
  rw [shuffle_frame]

theorem splitByte_splitWrites (n k i : Nat) (s : State) : SplitWrites s (splitByte n k i s).2 := by
  refine Body.andThen_rel (R := SplitWrites) SplitWrites.trans (fun t => ?_) (fun t => ?_) s
  · unfold SplitWrites
    rw [generate_frame]
  · show SplitWrites t (evalShares n k i t)
    unfold SplitWrites
    rw [evalShares_frame]

theorem splitTail_splitWrites (n : Nat) (s : State) : SplitWrites s (markShares n (tailShares n s)) := by
  unfold SplitWrites
  rw [splitTail_frame]

/-- However `SPLIT` leaves off, it has written nothing else. -/
theorem splitBody_splitWrites (n k : BitVec 12) (s : State) : SplitWrites s (splitBody n k s).2 := by
  rcases he : splitError n k s with _ | e
  · have hbytes : ∀ u, SplitWrites u (forEach (List.range s.len.toNat) (splitByte n.toNat k.toNat) u).2 :=
      forEach_rel (R := SplitWrites) (fun _ => rfl) SplitWrites.trans _ _ (fun i _ u => splitByte_splitWrites _ _ i u)
    have hgo := Body.andThen_rel (R := SplitWrites) SplitWrites.trans shuffle_splitWrites
      (Body.andThen_rel (R := SplitWrites) SplitWrites.trans hbytes
        (q := fun u => (.ok, markShares n.toNat (tailShares n.toNat u))) (splitTail_splitWrites n.toNat))
    rw [splitBody_go he]
    exact ((clearShlen_splitWrites s).trans (identityXc_splitWrites _)).trans (hgo _)
  · rw [splitBody_stop he]
    rfl

/-- `b` is `a` but for what `COMBINE` may write (R210): `LEN`, `XC`, `PY` and the memory. -/
def CombineWrites (a b : State) : Prop := b = { a with len := b.len, xc := b.xc, py := b.py, mem := b.mem }

theorem CombineWrites.trans {a b c : State} (hab : CombineWrites a b) (hbc : CombineWrites b c) :
    CombineWrites a c := by
  unfold CombineWrites at *
  rw [hbc, hab]

theorem loadX_combineWrites (m : Nat) (s : State) : CombineWrites s (loadX m s) := by
  unfold CombineWrites
  rw [loadX_frame]

theorem loadY_combineWrites (m i : Nat) (s : State) : CombineWrites s (loadY m i s) := by
  unfold CombineWrites
  rw [loadY_frame]

/-- Everything the interpolation of one byte can do (R215): it writes the secret cell, or raises `Fatal(DivideByZero)`
with nothing written. -/
theorem interpolateByte_cases (m i : Nat) (s : State) :
    (∃ b, s.lagrange m 0x00 = some b ∧ interpolateByte m i s = (.ok, s.setSecret i b)) ∨
    (s.lagrange m 0x00 = none ∧ interpolateByte m i s = (.fatal, s)) := by
  unfold interpolateByte
  rcases s.lagrange m 0x00 with _ | b
  · exact .inr ⟨rfl, rfl⟩
  · exact .inl ⟨b, rfl, rfl⟩

theorem combineByte_combineWrites (m i : Nat) (s : State) : CombineWrites s (combineByte m i s).2 := by
  refine (loadY_combineWrites m i s).trans ?_
  unfold combineByte
  rcases interpolateByte_cases m i (loadY m i s) with ⟨b, _, h⟩ | ⟨_, h⟩ <;> rw [h] <;> rfl

theorem combineBody_go {m : BitVec 12} {s : State} (h : combineError m s = none) :
    combineBody m s = Body.andThen (forEach (List.range s.combinedLen) (combineByte m.toNat))
      (fun s => (.ok, setCombinedLen s)) (loadX m.toNat s) := by
  unfold combineBody
  rw [h]

theorem combineBody_stop {m : BitVec 12} {s : State} {e : ECode} (h : combineError m s = some e) :
    combineBody m s = (.error e, s) := by
  unfold combineBody
  rw [h]

/-- However `COMBINE` leaves off, it has written nothing else. -/
theorem combineBody_combineWrites (m : BitVec 12) (s : State) : CombineWrites s (combineBody m s).2 := by
  rcases he : combineError m s with _ | e
  · have hbytes : ∀ u, CombineWrites u (forEach (List.range s.combinedLen) (combineByte m.toNat) u).2 :=
      forEach_rel (R := CombineWrites) (fun _ => rfl) CombineWrites.trans _ _ (fun i _ u => combineByte_combineWrites _ i u)
    rw [combineBody_go he]
    exact (loadX_combineWrites m.toNat s).trans
      (Body.andThen_rel (R := CombineWrites) CombineWrites.trans hbytes
        (q := fun u => (.ok, setCombinedLen u)) (fun _ => rfl) _)
  · rw [combineBody_stop he]
    rfl

/-! ### One body per command -/

/-- The pseudocode of each command; `exec` runs it (`exec_eq_runCommand`). -/
def bodyOf : Instr → Body
  | .gfadd a b => gfaddBody a b
  | .gfmul a b => gfmulBody a b
  | .gfinv a => gfinvBody a
  | .gfdiv a b => gfdivBody a b
  | .pgen cnt c0 => pgenBody cnt c0
  | .peval cnt x => pevalBody cnt x
  | .linterp cnt x => linterpBody cnt x
  | .split n k => splitBody n k
  | .combine m => combineBody m

theorem exec_eq_runCommand (i : Instr) (s : State) : exec i s = runCommand (bodyOf i) s := by
  cases i <;> rfl

/-- The commands that write `RESULT` (R21). -/
def WritesResult (i : Instr) : Prop :=
  (∃ a b, i = .gfadd a b) ∨ (∃ a b, i = .gfmul a b) ∨ (∃ a, i = .gfinv a) ∨ (∃ a b, i = .gfdiv a b) ∨
    (∃ cnt x, i = .peval cnt x) ∨ (∃ cnt x, i = .linterp cnt x)

/-- What each command's pseudocode may write: `RESULT`, or one of the three other frames. -/
theorem bodyOf_cases (i : Instr) (s : State) :
    (WritesResult i ∧ WritesResultOnly (bodyOf i s) s) ∨
    (∃ cnt c0, i = .pgen cnt c0 ∧
      (bodyOf i s).2 = { s with coef := (bodyOf i s).2.coef, entropy := (bodyOf i s).2.entropy }) ∨
    (∃ n k, i = .split n k ∧ SplitWrites s (bodyOf i s).2) ∨
    (∃ m, i = .combine m ∧ CombineWrites s (bodyOf i s).2) := by
  cases i with
  | gfadd a b => exact .inl ⟨.inl ⟨a, b, rfl⟩, putResult_writesResultOnly (some (gfAdd a b)) s⟩
  | gfmul a b => exact .inl ⟨.inr (.inl ⟨a, b, rfl⟩), putResult_writesResultOnly (some (gfMul s.cfg.poly a b)) s⟩
  | gfinv a => exact .inl ⟨.inr (.inr (.inl ⟨a, rfl⟩)), putResult_writesResultOnly _ s⟩
  | gfdiv a b => exact .inl ⟨.inr (.inr (.inr (.inl ⟨a, b, rfl⟩))), putResult_writesResultOnly _ s⟩
  | pgen cnt c0 => exact .inr (.inl ⟨cnt, c0, rfl, pgenBody_frame cnt c0 s⟩)
  | peval cnt x => exact .inl ⟨.inr (.inr (.inr (.inr (.inl ⟨cnt, x, rfl⟩)))), pevalBody_writesResultOnly cnt x s⟩
  | linterp cnt x => exact .inl ⟨.inr (.inr (.inr (.inr (.inr ⟨cnt, x, rfl⟩)))), linterpBody_writesResultOnly cnt x s⟩
  | split n k => exact .inr (.inr (.inl ⟨n, k, rfl, splitBody_splitWrites n k s⟩))
  | combine m => exact .inr (.inr (.inr ⟨m, rfl, combineBody_combineWrites m s⟩))

/-- `b` is `a` but for the data state and the answers drawn: what any command's pseudocode may write. -/
def DataWrites (a b : State) : Prop :=
  b = { a with result := b.result, len := b.len, shlen := b.shlen, xc := b.xc, coef := b.coef, py := b.py,
               mem := b.mem, entropy := b.entropy }

theorem WritesResultOnly.dataWrites {r : Exit × State} {s : State} (h : WritesResultOnly r s) : DataWrites s r.2 := by
  rcases h with ⟨v, rfl⟩ | ⟨e, rfl⟩ | rfl <;> rfl

theorem bodyOf_dataWrites (i : Instr) (s : State) : DataWrites s (bodyOf i s).2 := by
  rcases bodyOf_cases i s with ⟨_, h⟩ | ⟨_, _, _, h⟩ | ⟨_, _, _, h⟩ | ⟨_, _, h⟩
  · exact h.dataWrites
  all_goals
    unfold DataWrites
    rw [h]

/-- Everything a command can answer: its pseudocode's state with one of the three ends, or, waiting, the same state. -/
theorem exec_cases {i : Instr} {s t : State} (h : exec i s = .next t) :
    ((bodyOf i s).1 = .ok ∧ t = (bodyOf i s).2.endOk) ∨
    (∃ e, (bodyOf i s).1 = .error e ∧ t = (bodyOf i s).2.raiseError e) ∨
    ((bodyOf i s).1 = .fatal ∧ t = (bodyOf i s).2.raiseFatal) ∨
    ((bodyOf i s).1 = .waiting ∧ t = s) := by
  rw [exec_eq_runCommand] at h
  rcases runCommand_cases (bodyOf i) s with ⟨u, hu, hr⟩ | ⟨e, u, hu, hr⟩ | ⟨u, hu, hr⟩ | ⟨u, hu, hr⟩ <;>
    (rw [hr] at h; cases h; rw [hu])
  · exact .inl ⟨rfl, rfl⟩
  · exact .inr (.inl ⟨e, rfl, rfl⟩)
  · exact .inr (.inr (.inl ⟨rfl, rfl⟩))
  · exact .inr (.inr (.inr ⟨rfl, rfl⟩))

/-- However a command ends, it has written the data state, `STATUS` and the sequencing state, and consumed answers. -/
theorem exec_frame {i : Instr} {s t : State} (h : exec i s = .next t) :
    t = { s with busy := t.busy, done := t.done, fatal := t.fatal, ecode := t.ecode, fcode := t.fcode, seq := t.seq,
                 result := t.result, len := t.len, shlen := t.shlen, xc := t.xc, coef := t.coef, py := t.py,
                 mem := t.mem, entropy := t.entropy } := by
  have hb : (bodyOf i s).2 = _ := bodyOf_dataWrites i s
  rcases exec_cases h with ⟨_, ht⟩ | ⟨e, _, ht⟩ | ⟨_, ht⟩ | ⟨_, ht⟩
  case inr.inr.inr => rw [ht]
  all_goals
    rw [hb] at ht
    rw [ht]
    rfl

end Sys2Proof.Machine
end

section
/-! PROOF. O37 and O39: what no command touches, and what writes `RESULT`. -/

namespace Sys2Proof.Proofs

open Sys2Proof.Machine Sys2Proof.Safety

/-- Settles O37: the frame that all nine commands share. -/
theorem everyCommandLeavesTheHostSideAlone : Obligations.EveryCommandLeavesTheHostSideAlone := by
  unfold Obligations.EveryCommandLeavesTheHostSideAlone
  intro i s t h
  rw [exec_frame h]
  exact ⟨rfl, rfl, rfl, rfl, rfl, rfl, rfl, rfl⟩

/-- Pseudocode that changes `RESULT` belongs to one of the six commands, and has run to its end. -/
theorem bodyOf_result (i : Instr) (s : State) :
    (bodyOf i s).2.result = s.result ∨ (WritesResult i ∧ (bodyOf i s).1 = .ok) := by
  rcases bodyOf_cases i s with ⟨hi, ⟨v, h⟩ | ⟨e, h⟩ | h⟩ | ⟨_, _, _, h⟩ | ⟨_, _, _, h⟩ | ⟨_, _, h⟩
  · exact .inr ⟨hi, by rw [h]⟩
  all_goals exact .inl (by rw [h])

/-- Settles O39: of the ways a command can end, only a successful end of one of the six leaves another `RESULT`. -/
theorem resultHasSixWriters : Obligations.ResultHasSixWriters := by
  unfold Obligations.ResultHasSixWriters
  intro i s t h hne
  rcases bodyOf_result i s with hr | ⟨hi, hok⟩
  · refine absurd ?_ hne
    rcases exec_cases h with ⟨_, rfl⟩ | ⟨e, _, rfl⟩ | ⟨_, rfl⟩ | ⟨_, rfl⟩
    case inr.inr.inr => rfl
    all_goals exact hr
  · rcases exec_cases h with ⟨_, rfl⟩ | ⟨e, he, _⟩ | ⟨he, _⟩ | ⟨he, _⟩
    case inl => exact ⟨rfl, rfl, hi⟩
    all_goals
      rw [hok] at he
      cases he

end Sys2Proof.Proofs
end

section
/-! PROOF. The argument checks of `SPLIT` and `COMBINE` as propositions, and which memory cells the two commands write. -/

namespace Sys2Proof.Machine

open Sys2Proof.Safety

/-! ### The argument checks -/

/-- The checks of R192 pass exactly on the arguments `SPLIT` accepts. -/
theorem splitError_eq_none (n k : BitVec 12) (s : State) : splitError n k s = none ↔ SplitArgs n k s := by
  unfold splitError SplitArgs
  split_ifs <;> simp only [false_iff, true_iff] <;> omega

/-- The last check of R211 passes exactly on distinct trailing bytes. -/
theorem sameCoordinate_eq_false (m : BitVec 12) (s : State) :
    sameCoordinate m.toNat s = false ↔ CombineDistinct m s := by
  unfold sameCoordinate CombineDistinct State.combinedLen
  simp only [List.any_eq_false, List.mem_range, List.mem_range'_1, beq_iff_eq, List.any_eq_true, not_exists, not_and]
  constructor
  · intro h a b ha hb hab
    rcases Nat.lt_or_gt_of_ne hab with hlt | hlt
    · exact h a (by omega) b (by omega)
    · exact Ne.symm (h b (by omega) a (by omega))
  · intro h a ha b hb
    exact h a b (by omega) (by omega) (by omega)

/-- The checks of R211 pass exactly on the shares `COMBINE` accepts. -/
theorem combineError_eq_none (m : BitVec 12) (s : State) (hslots : s.cfg.nslot = 256) :
    combineError m s = none ↔
      CombineLengths m s ∧ (entry s.shlen 0).toNat ≤ s.cfg.lmax + 1 ∧ CombineDistinct m s := by
  rw [← sameCoordinate_eq_false]
  unfold combineError CombineLengths
  split_ifs with hm hshort hequal hlong hsame <;> simp only [false_iff, true_iff]
  · omega
  · simp only [List.any_eq_true, List.mem_range, decide_eq_true_eq] at hshort
    obtain ⟨j, hj, h2⟩ := hshort
    exact fun ⟨⟨_, _, h⟩, _⟩ => absurd (h j hj).1 (by omega)
  · simp only [List.any_eq_true, List.mem_range'_1, bne_iff_ne] at hequal
    obtain ⟨j, hj, hne⟩ := hequal
    exact fun ⟨⟨_, _, h⟩, _⟩ => hne (h j (by omega)).2
  · omega
  · simp [hsame]
  · simp only [Bool.not_eq_true, List.any_eq_false, List.mem_range, List.mem_range'_1, decide_eq_true_eq,
      bne_iff_ne, ne_eq, not_not] at hshort hequal hsame
    have hlen : ∀ j, j < m.toNat → entry s.shlen j = entry s.shlen 0 := fun j hj => by
      rcases Nat.eq_zero_or_pos j with rfl | hpos
      · rfl
      · exact hequal j (by omega)
    exact ⟨⟨by omega, by omega, fun j hj => ⟨Nat.not_lt.mp (hshort j hj), hlen j hj⟩⟩, by omega, hsame⟩

/-! ### The memory cells the commands write -/

section

variable {Q : Memory → Prop}

/-- A property of the memory that survives writes to the cells of byte position `i` survives the evaluations there. -/
theorem evalShares_mem_inv {n k i : Nat} {s : State}
    (hQ : ∀ j m b, j < n → Q m → Q (Memory.store m (shareAddr j i) b)) (h : Q s.mem) : Q (evalShares n k i s).mem :=
  foldl_inv (P := fun t => Q t.mem) _ _ (fun j hj t ht => hQ j t.mem _ (List.mem_range.mp hj) ht) s h

/-- A property of the memory that survives writes of coordinate bytes survives the tail of `SPLIT`. -/
theorem tailShares_mem_inv {n : Nat} {s : State}
    (hQ : ∀ j m b, j < n → Q m → Q (Memory.store m (shareAddr j s.len.toNat) b)) (h : Q s.mem) :
    Q (tailShares n s).mem := by
  refine (foldl_inv (P := fun t => Q t.mem ∧ t.len = s.len) _ _ (fun j hj t ht => ?_) s ⟨h, rfl⟩).1
  obtain ⟨hmem, hlen⟩ := ht
  refine ⟨?_, hlen⟩
  rw [← hlen] at hQ
  exact hQ j t.mem _ (List.mem_range.mp hj) hmem

theorem splitByte_mem_inv {n k i : Nat} {s : State}
    (hQ : ∀ j m b, j < n → Q m → Q (Memory.store m (shareAddr j i) b)) (h : Q s.mem) : Q (splitByte n k i s).2.mem := by
  refine Body.andThen_inv (P := fun t => Q t.mem) (fun t ht => ?_) (fun t ht => evalShares_mem_inv hQ ht) s h
  exact (generate_mem k (t.secret i) t).symm ▸ ht

theorem SplitWrites.len {a b : State} (h : SplitWrites a b) : b.len = a.len := (congrArg State.len h :)

/-- The memory has the property `Q`, and `LEN` is still `len`: what the loops of `SPLIT` carry along. -/
def MemoryAndLen (Q : Memory → Prop) (len : BitVec 16) (s : State) : Prop := Q s.mem ∧ s.len = len

/-- A step that only `SPLIT`'s fields know, and that keeps the property of the memory, carries both along. -/
theorem SplitWrites.memoryAndLen {len : BitVec 16} {a b : State} (h : SplitWrites a b) (ha : MemoryAndLen Q len a)
    (hb : Q b.mem) : MemoryAndLen Q len b :=
  ⟨hb, h.len.trans ha.2⟩

/-- A property of the memory that survives writes to the cells `SHARE[j][0..LEN]`, `j < n`, survives `SPLIT n, k`. -/
theorem splitBody_mem_inv {n k : BitVec 12} {s : State}
    (hQ : SplitArgs n k s → ∀ j o m b, j < n.toNat → o ≤ s.len.toNat → Q m → Q (Memory.store m (shareAddr j o) b))
    (h : Q s.mem) : Q (splitBody n k s).2.mem := by
  rcases he : splitError n k s with _ | e
  · have hcell := hQ ((splitError_eq_none n k s).mp he)
    have hstart : MemoryAndLen Q s.len (identityXc (clearShlen s)) :=
      ⟨(identityXc_mem (clearShlen s)).symm ▸ h, identityXc_len (clearShlen s)⟩
    have hshuffle (u : State) (hu : MemoryAndLen Q s.len u) : MemoryAndLen Q s.len (shuffle u).2 :=
      (shuffle_splitWrites u).memoryAndLen hu ((shuffle_mem u).symm ▸ hu.1)
    have hbytes (u : State) (hu : MemoryAndLen Q s.len u) :
        MemoryAndLen Q s.len (forEach (List.range s.len.toNat) (splitByte n.toNat k.toNat) u).2 :=
      forEach_inv _ _ (fun i hi t ht => (splitByte_splitWrites _ _ i t).memoryAndLen ht
        (splitByte_mem_inv (fun j m b hj => hcell j i m b hj (List.mem_range.mp hi).le) ht.1)) u hu
    have htail (u : State) (hu : MemoryAndLen Q s.len u) :
        MemoryAndLen Q s.len (markShares n.toNat (tailShares n.toNat u)) := by
      refine (splitTail_splitWrites n.toNat u).memoryAndLen hu ?_
      rw [markShares_frame]
      exact tailShares_mem_inv (fun j m b hj => hcell j _ m b hj (Nat.le_of_eq (congrArg BitVec.toNat hu.2))) hu.1
    rw [splitBody_go he]
    exact (Body.andThen_inv hshuffle (Body.andThen_inv hbytes htail) _ hstart).1
  · rw [splitBody_stop he]
    exact h

/-- A property of the memory that survives a write of the secret cell `i` survives byte position `i` of `COMBINE`. -/
theorem combineByte_mem_inv {m i : Nat} {s : State}
    (hQ : ∀ u b, Q u → Q (Memory.store u (secretAddr i) b)) (h : Q s.mem) : Q (combineByte m i s).2.mem := by
  have hload : Q (loadY m i s).mem := (loadY_mem m i s).symm ▸ h
  unfold combineByte
  rcases interpolateByte_cases m i (loadY m i s) with ⟨b, _, hi⟩ | ⟨_, hi⟩ <;> rw [hi]
  · exact hQ _ b hload
  · exact hload

/-- A property of the memory that survives writes to the cells `SECRET[0..Lc-1]` survives `COMBINE m`. -/
theorem combineBody_mem_inv {m : BitVec 12} {s : State}
    (hQ : combineError m s = none → ∀ o u b, o < s.combinedLen → Q u → Q (Memory.store u (secretAddr o) b))
    (h : Q s.mem) : Q (combineBody m s).2.mem := by
  rcases he : combineError m s with _ | e
  · have hload : Q (loadX m.toNat s).mem := (loadX_mem m.toNat s).symm ▸ h
    have hbytes (u : State) (hu : Q u.mem) : Q (forEach (List.range s.combinedLen) (combineByte m.toNat) u).2.mem :=
      forEach_inv (P := fun t => Q t.mem) _ _ (fun i hi t ht =>
        combineByte_mem_inv (fun u b => hQ he i u b (List.mem_range.mp hi)) ht) u hu
    rw [combineBody_go he]
    exact Body.andThen_inv (P := fun t => Q t.mem) hbytes (fun _ ht => ht) _ hload
  · rw [combineBody_stop he]
    exact h

end

end Sys2Proof.Machine
end

section
/-! PROOF. What the longer transitions of the core can do, and that the shuffle keeps a permutation. -/

namespace Sys2Proof.Machine

open Sys2Proof.Safety

/-! ### Transitions -/

/-- Everything one visit of `Generate` can do (R150): it waits; it consumes a failing answer and leaves for `END`, e = 4;
or it writes a coefficient, and then leaves for `after` when the coefficients are complete, and counts on when not. -/
theorem coefVisit_cases (cnt : Nat) (c0 : Byte) (after : State → State) (s : State) :
    coefVisit cnt c0 after s = s ∨
    (∃ rest, coefVisit cnt c0 after s = State.toFinish { s with entropy := rest } .randomnessFailure) ∨
    (∃ v rest, cnt ≤ s.seq.c + 1 ∧ coefVisit cnt c0 after s = after { s with coef := v, entropy := rest }) ∨
    (∃ v rest, s.seq.c + 1 < cnt ∧
      coefVisit cnt c0 after s = { s with coef := v, entropy := rest, seq := { s.seq with c := s.seq.c + 1 } }) := by
  unfold coefVisit
  by_cases hc : s.seq.c = 0
  · rw [if_pos hc, hc]
    by_cases hcnt : cnt ≤ 1
    · exact .inr (.inr (.inl ⟨_, s.entropy, hcnt, if_pos hcnt⟩))
    · exact .inr (.inr (.inr ⟨_, s.entropy, Nat.lt_of_not_le hcnt, if_neg hcnt⟩))
  · rw [if_neg hc]
    rcases drawCoef_cases s.seq.c s with ⟨_, hd⟩ | ⟨rest, _, hd⟩ | ⟨b, rest, _, hd⟩ <;> rw [hd]
    · exact .inl rfl
    · exact .inr (.inl ⟨rest, rfl⟩)
    · by_cases hcnt : cnt ≤ s.seq.c + 1
      · exact .inr (.inr (.inl ⟨_, rest, hcnt, if_pos hcnt⟩))
      · exact .inr (.inr (.inr ⟨_, rest, Nat.lt_of_not_le hcnt, if_neg hcnt⟩))

/-- Everything one draw of the shuffle can do (R198, R199): it waits; it consumes an answer and leaves for `END`, e = 4; it
counts a rejected byte below `REJ_LIMIT`; or it exchanges `XC[t]` with some `XC[r]`, `r ≤ t`, and goes on to `t - 1`, or to
`SP_COEF` after `t = 1`. -/
theorem shuffleVisit_cases (s : State) :
    shuffleVisit s = s ∨
    (∃ rest, shuffleVisit s = State.toFinish { s with entropy := rest } .randomnessFailure) ∨
    (∃ rest, s.seq.tries + 1 < s.cfg.rejLimit ∧
      shuffleVisit s = { s with entropy := rest, seq := { s.seq with tries := s.seq.tries + 1 } }) ∨
    (∃ r rest, r ≤ s.seq.t ∧ s.seq.t ≤ 1 ∧
      shuffleVisit s = (exchangeXc s.seq.t r { s with entropy := rest }).toCoef 0) ∨
    (∃ r rest, r ≤ s.seq.t ∧ 1 < s.seq.t ∧
      shuffleVisit s = { exchangeXc s.seq.t r { s with entropy := rest } with
        seq := { s.seq with t := s.seq.t - 1, tries := 0 } }) := by
  unfold shuffleVisit
  rcases s.rngDraw_cases with ⟨_, hd⟩ | ⟨rest, _, hd⟩ | ⟨b, rest, _, hd⟩ <;> rw [hd]
  · exact .inl rfl
  · exact .inr (.inl ⟨rest, rfl⟩)
  · simp only
    split_ifs with hr ht hlimit
    · exact .inr (.inr (.inr (.inl ⟨_, rest, hr, ht, rfl⟩)))
    · exact .inr (.inr (.inr (.inr ⟨_, rest, hr, Nat.lt_of_not_le ht, rfl⟩)))
    · exact .inr (.inl ⟨rest, rfl⟩)
    · exact .inr (.inr (.inl ⟨rest, Nat.lt_of_not_le hlimit, rfl⟩))

/-! ### Permutations -/

/-- The exchange of R198 reads every coordinate through the transposition of its two indices. -/
theorem exchangeXc_entry_swap (t r : Nat) (ht : t < 256) (hr : r < 256) (s : State) (j : Nat) :
    entry (exchangeXc t r s).xc j = entry s.xc (Equiv.swap t r j) := by
  rw [exchangeXc_entry t r ht hr, Equiv.swap_apply_def]
  split_ifs with h1 h2 <;> simp_all

theorem exchangeXc_permutes {t r : Nat} {s : State} (ht : t < 255) (hr : r < 255) (h : PermutesNonzero s.xc) :
    PermutesNonzero (exchangeXc t r s).xc := by
  obtain ⟨hinj, hne⟩ := h
  have hswap (j : Nat) (hj : j < 255) : Equiv.swap t r j < 255 := by
    rw [Equiv.swap_apply_def]
    split_ifs <;> assumption
  constructor
  · intro i j hi hj hij
    rw [exchangeXc_entry_swap t r (by omega) (by omega), exchangeXc_entry_swap t r (by omega) (by omega)] at hij
    exact (Equiv.swap t r).injective (hinj _ _ (hswap i hi) (hswap j hj) hij)
  · intro i hi
    rw [exchangeXc_entry_swap t r (by omega) (by omega)]
    exact hne _ (hswap i hi)

/-- The identity arrangement of R197 is a permutation of 1 to 255. -/
theorem identityXc_permutes (s : State) : PermutesNonzero (identityXc s).xc := by
  constructor
  · intro i j hi hj hij
    rw [identityXc_entry, identityXc_entry, if_pos hi, if_pos hj] at hij
    have := congrArg BitVec.toNat hij
    simp only [BitVec.toNat_ofNat] at this
    omega
  · intro i hi h0
    rw [identityXc_entry, if_pos hi] at h0
    have := congrArg BitVec.toNat h0
    simp only [BitVec.toNat_ofNat, BitVec.ofNat_eq_ofNat] at this
    omega

end Sys2Proof.Machine
end

section
/-! PROOF. O49 and O51: the location each host address names (R62), and what a host write does there. -/

namespace Sys2Proof.Machine

/-! ### The address map, by the value of the address -/

/-- The byte cells of R62, read off the value of the address. -/
theorem bufferLoc_eq (lmax : Nat) (ha : Word) :
    bufferLoc lmax ha =
      if ha.toNat / 0x1000000 = 1 then
        if ha.toNat % 0x10000 ≤ lmax then .share (BitVec.ofNat 8 (ha.toNat / 0x10000)) (BitVec.ofNat 16 ha.toNat)
        else .unmapped
      else if ha.toNat / 0x10000 = 0x200 then
        if ha.toNat % 0x10000 < lmax then .secret (BitVec.ofNat 16 ha.toNat) else .unmapped
      else .unmapped := by
  have hshare : ha.extractLsb' 24 8 = 0x01 ↔ ha.toNat / 0x1000000 = 1 := by
    rw [← BitVec.toNat_inj, BitVec.extractLsb'_toNat, Nat.shiftRight_eq_div_pow]
    simp only [BitVec.ofNat_eq_ofNat, BitVec.toNat_ofNat]
    omega
  have hsecret : ha.extractLsb' 16 16 = 0x0200 ↔ ha.toNat / 0x10000 = 0x200 := by
    rw [← BitVec.toNat_inj, BitVec.extractLsb'_toNat, Nat.shiftRight_eq_div_pow]
    simp only [BitVec.ofNat_eq_ofNat, BitVec.toNat_ofNat]
    omega
  have hoffset : ha.extractLsb' 0 16 = BitVec.ofNat 16 ha.toNat := by
    rw [← BitVec.toNat_inj, BitVec.extractLsb'_toNat, BitVec.toNat_ofNat]
    rfl
  have hslot : ha.extractLsb' 16 8 = BitVec.ofNat 8 (ha.toNat / 0x10000) := by
    rw [← BitVec.toNat_inj, BitVec.extractLsb'_toNat, Nat.shiftRight_eq_div_pow, BitVec.toNat_ofNat]
  unfold bufferLoc
  simp only [hshare, hsecret, hoffset, hslot, BitVec.toNat_ofNat]

theorem locOf_register {lmax : Nat} {ha : Word} (h : ha.toNat < 0x100) : locOf lmax ha = registerLoc ha.toNat :=
  if_pos h

theorem registerLoc_unmapped {a : Nat} (h : 0x6 ≤ a) : registerLoc a = .unmapped := by
  obtain ⟨b, rfl⟩ := Nat.exists_eq_add_of_le' h
  rfl

theorem locOf_array {lmax page j : Nat} {ha : Word} (hpage : 1 ≤ page ∧ page ≤ 4) (hj : j < 256)
    (h : ha.toNat = 0x100 * page + j) : locOf lmax ha = arrayLoc page (BitVec.ofNat 8 j) := by
  have hentry : ha.extractLsb' 0 8 = BitVec.ofNat 8 j := by
    rw [← BitVec.toNat_inj, BitVec.extractLsb'_toNat, BitVec.toNat_ofNat, Nat.shiftRight_zero]
    omega
  unfold locOf
  rw [if_neg (by omega), if_pos (by omega), hentry, show ha.toNat / 0x100 = page by omega]

theorem locOf_buffer {lmax : Nat} {ha : Word} (h : 0x500 ≤ ha.toNat) : locOf lmax ha = bufferLoc lmax ha := by
  unfold locOf
  rw [if_neg (by omega), if_neg (by omega)]

/-- Nothing is mapped between the register arrays and `SHARE`, nor above `SECRET`. -/
theorem locOf_unmapped {lmax : Nat} {ha : Word}
    (h : (0x500 ≤ ha.toNat ∧ ha.toNat ≤ 0xFFFFFF) ∨ 0x2010000 ≤ ha.toNat) : locOf lmax ha = .unmapped := by
  rw [locOf_buffer (by omega), bufferLoc_eq, if_neg (by omega), if_neg (by omega)]

theorem locOf_share_eq {lmax j o : Nat} {ha : Word} (hj : j < 256) (ho : o < 0x10000)
    (h : ha.toNat = 0x1000000 + j * 0x10000 + o) :
    locOf lmax ha = if o ≤ lmax then .share (BitVec.ofNat 8 j) (BitVec.ofNat 16 o) else .unmapped := by
  have hslot : BitVec.ofNat 8 (ha.toNat / 0x10000) = BitVec.ofNat 8 j := by
    rw [← BitVec.toNat_inj, BitVec.toNat_ofNat, BitVec.toNat_ofNat]
    omega
  have hoffset : BitVec.ofNat 16 ha.toNat = BitVec.ofNat 16 o := by
    rw [← BitVec.toNat_inj, BitVec.toNat_ofNat, BitVec.toNat_ofNat]
    omega
  rw [locOf_buffer (by omega), bufferLoc_eq, if_pos (by omega), hslot, hoffset,
    show ha.toNat % 0x10000 = o by omega]

theorem locOf_secret_eq {lmax o : Nat} {ha : Word} (ho : o < 0x10000) (h : ha.toNat = 0x2000000 + o) :
    locOf lmax ha = if o < lmax then .secret (BitVec.ofNat 16 o) else .unmapped := by
  have hoffset : BitVec.ofNat 16 ha.toNat = BitVec.ofNat 16 o := by
    rw [← BitVec.toNat_inj, BitVec.toNat_ofNat, BitVec.toNat_ofNat]
    omega
  rw [locOf_buffer (by omega), bufferLoc_eq, if_neg (by omega), if_pos (by omega), hoffset,
    show ha.toNat % 0x10000 = o by omega]

/-- The unguarded locations a host may write are `STATUS` and `CTRL` (R62). -/
theorem locOf_unguarded {lmax : Nat} {ha : Word} (hw : (locOf lmax ha).writable = true)
    (hg : (locOf lmax ha).guarded = false) : ha.toNat = 0x1 ∨ ha.toNat = 0x2 := by
  unfold locOf at hw hg
  split_ifs at hw hg
  · unfold registerLoc at hw hg
    split at hw <;> simp_all [Loc.writable, Loc.guarded]
  · unfold arrayLoc at hw hg
    split at hw <;> simp_all [Loc.writable, Loc.guarded]
  · unfold bufferLoc at hw hg
    split_ifs at hw hg <;> simp [Loc.writable, Loc.guarded] at hw hg

/-! ### A write, by the location it names -/

/-- A host write is served exactly when its location can be written and, if guarded, the guard is open (R64, R65). -/
theorem State.writeRefused_eq_false (s : State) (ha : Word) :
    s.writeRefused ha = false ↔
      (s.locOf ha).writable = true ∧ ((s.locOf ha).guarded = true → s.busy = false ∧ s.fatal = false) := by
  unfold State.writeRefused State.guardClosed
  cases (s.locOf ha).writable <;> cases (s.locOf ha).guarded <;> simp

theorem State.hostWrite_refused {s : State} {ha : Word} (d : Word) (h : s.writeRefused ha = true) :
    s.hostWrite ha d = { s with herr := true } :=
  if_pos h

/-- A write of `CAP`, `RESULT` or an unmapped address is refused in every state (R65). -/
theorem State.hostWrite_unwritable {s : State} {ha : Word} {l : Loc} (d : Word) (hloc : s.locOf ha = l)
    (hl : l.writable = false) : s.hostWrite ha d = { s with herr := true } :=
  State.hostWrite_refused d (by simp [State.writeRefused, hloc, hl])

/-- While a command runs or the block is halted only `STATUS` and `CTRL` take a write (R64). -/
theorem State.hostWrite_closed {s : State} {ha : Word} (d : Word) (hclosed : s.busy = true ∨ s.fatal = true)
    (h1 : ha.toNat ≠ 0x1) (h2 : ha.toNat ≠ 0x2) : s.hostWrite ha d = { s with herr := true } := by
  cases hr : s.writeRefused ha with
  | true => exact State.hostWrite_refused d hr
  | false =>
    obtain ⟨hw, hguard⟩ := (s.writeRefused_eq_false ha).mp hr
    cases hg : (s.locOf ha).guarded with
    | true => simp [hguard hg] at hclosed
    | false => exact ((locOf_unguarded hw hg).elim h1 h2).elim

/-- A served write stores at its location. -/
theorem State.hostWrite_served {s : State} {ha : Word} {l : Loc} (d : Word) (hloc : s.locOf ha = l)
    (hl : l.writable = true) (hguard : l.guarded = true → s.busy = false ∧ s.fatal = false) :
    s.hostWrite ha d = s.writeLoc d l := by
  subst hloc
  exact (if_neg (by simp [(s.writeRefused_eq_false ha).mpr ⟨hl, hguard⟩]))

/-- A write to a register array stores at its entry while the guard is open (R62). -/
theorem State.hostWrite_array {s : State} {ha : Word} {page j : Nat} (d : Word) (hopen : s.busy = false ∧ s.fatal = false)
    (hpage : page ∈ [1, 2, 3, 4]) (hj : j < 256) (h : ha.toNat = 0x100 * page + j) :
    s.hostWrite ha d = s.writeLoc d (arrayLoc page (BitVec.ofNat 8 j)) := by
  simp only [List.mem_cons, List.not_mem_nil, or_false] at hpage
  refine State.hostWrite_served d (locOf_array (by omega) hj h) ?_ fun _ => hopen
  rcases hpage with rfl | rfl | rfl | rfl <;> rfl

/-- The entries after a write whose index came out of an address. -/
theorem entry_setEntry_ofNat {w j : Nat} (v : Vector (BitVec w) Config.slotCount) (hj : j < 256) (x : BitVec w) (i : Nat) :
    entry (setEntry v (BitVec.ofNat 8 j).toNat x) i = if i = j then x else entry v i := by
  rw [BitVec.toNat_ofNat, Nat.mod_eq_of_lt hj, entry_setEntry v j x hj]

/-- The memory after a write of a share cell whose slot and offset came out of an address. -/
theorem memRead_setShare_ofNat {s : State} (h : Memory.wf s.mem) {j o : Nat} (hj : j < 256) (ho : o < 0x10000) (v : Byte)
    (a : Nat) : (s.setShare (BitVec.ofNat 8 j).toNat (BitVec.ofNat 16 o).toNat v).memRead a =
      if a = shareAddr j o then v else s.memRead a := by
  rw [State.setShare, State.memRead_memWrite s h, BitVec.toNat_ofNat, BitVec.toNat_ofNat, Nat.mod_eq_of_lt hj,
    Nat.mod_eq_of_lt ho]

/-- The memory after a write of a secret cell whose offset came out of an address. -/
theorem memRead_setSecret_ofNat {s : State} (h : Memory.wf s.mem) {o : Nat} (ho : o < 0x10000) (v : Byte) (a : Nat) :
    (s.setSecret (BitVec.ofNat 16 o).toNat v).memRead a = if a = secretAddr o then v else s.memRead a := by
  rw [State.setSecret, State.memRead_memWrite s h, BitVec.toNat_ofNat, Nat.mod_eq_of_lt ho]

end Sys2Proof.Machine

namespace Sys2Proof.Proofs

open Sys2Proof.Machine Sys2Proof.Safety

/-- Settles O49, row by row of the map: each row by the location its addresses name, and whether the guard lets it. -/
theorem hostWriteFollowsTheMap : Obligations.HostWriteFollowsTheMap := by
  unfold Obligations.HostWriteFollowsTheMap
  intro s ha d rest _ hwf h
  obtain ⟨u, hu⟩ : ∃ u : State, u = { s with schedule := rest } := ⟨_, rfl⟩
  obtain ⟨t, ht⟩ : ∃ t, t = u.hostWrite ha d := ⟨_, rfl⟩
  refine ⟨t, by rw [step_event h, ht, hu]; rfl, ?_⟩
  intro refused
  have unwritable (l : Loc) (hloc : u.locOf ha = l) (hl : l.writable = false) : refused := by
    show t = _
    rw [ht, State.hostWrite_unwritable d hloc hl, hu]
  have register (a : Nat) (hlow : a < 0x100) (h : ha.toNat = a) : u.locOf ha = registerLoc a :=
    h ▸ locOf_register (h ▸ hlow)
  refine ⟨fun h1 => ?_, fun h2 => ?_, fun h3 => unwritable .cap (register 3 (by omega) h3) rfl, fun hclosed h1 h2 => ?_,
    fun hbusy hfatal => ?_⟩
  · rw [ht, State.hostWrite_served d (register 1 (by omega) h1) rfl (by simp [registerLoc, Loc.guarded]), hu]
    rfl
  · rw [ht, State.hostWrite_served d (register 2 (by omega) h2) rfl (by simp [registerLoc, Loc.guarded]), hu]
    rfl
  · show t = _
    rw [ht, State.hostWrite_closed d (by rw [hu]; exact hclosed) h1 h2, hu]
  have hopen : u.busy = false ∧ u.fatal = false := by
    rw [hu]
    exact ⟨hbusy, hfatal⟩
  refine ⟨fun h0 => ?cmd, fun h4 => unwritable .result (register 4 (by omega) h4) rfl, fun h5 => ?len,
    fun hlow hhigh => unwritable .unmapped ((register _ (by omega) rfl).trans (registerLoc_unmapped hlow)) rfl,
    fun j hj ha' => ?shlen, fun i hi ha' => ?xc, fun c hc ha' => ?coef, fun i hi ha' => ?py,
    fun hlow hhigh => unwritable .unmapped (locOf_unmapped (.inl ⟨hlow, hhigh⟩)) rfl,
    fun j o hj ho ha' => ⟨fun hle => ?share, fun hlt => ?_⟩, fun o ho ha' => ⟨fun hlt => ?secret, fun hle => ?_⟩,
    fun hlow => unwritable .unmapped (locOf_unmapped (.inr hlow)) rfl⟩
  case cmd =>
    rw [ht, State.hostWrite_served d (register 0 (by omega) h0) rfl fun _ => hopen, hu]
    exact ⟨rfl, rfl⟩
  case len =>
    rw [ht, State.hostWrite_served d (register 5 (by omega) h5) rfl fun _ => hopen, hu]
    rfl
  case shlen =>
    rw [ht, State.hostWrite_array d hopen (page := 1) (by simp) hj ha', hu]
    exact ⟨rfl, entry_setEntry_ofNat _ hj _⟩
  case xc =>
    rw [ht, State.hostWrite_array d hopen (page := 2) (by simp) hi ha', hu]
    exact ⟨rfl, entry_setEntry_ofNat _ hi _⟩
  case coef =>
    rw [ht, State.hostWrite_array d hopen (page := 3) (by simp) hc ha', hu]
    exact ⟨rfl, entry_setEntry_ofNat _ hc _⟩
  case py =>
    rw [ht, State.hostWrite_array d hopen (page := 4) (by simp) hi ha', hu]
    exact ⟨rfl, entry_setEntry_ofNat _ hi _⟩
  case share =>
    have hloc := (locOf_share_eq (lmax := u.cfg.lmax) hj ho ha').trans (if_pos (by rw [hu]; exact hle))
    rw [ht, State.hostWrite_served d hloc rfl fun _ => hopen, hu]
    exact ⟨rfl, memRead_setShare_ofNat hwf hj ho _⟩
  case secret =>
    have hloc := (locOf_secret_eq (lmax := u.cfg.lmax) ho ha').trans (if_pos (by rw [hu]; exact hlt))
    rw [ht, State.hostWrite_served d hloc rfl fun _ => hopen, hu]
    exact ⟨rfl, memRead_setSecret_ofNat hwf ho _⟩
  · exact unwritable .unmapped ((locOf_share_eq hj ho ha').trans (if_neg (by rw [hu]; exact Nat.not_le.mpr hlt))) rfl
  · exact unwritable .unmapped ((locOf_secret_eq ho ha').trans (if_neg (by rw [hu]; exact Nat.not_lt.mpr hle))) rfl

/-- Settles O51: a write to `CMD` is served exactly while the guard is open, and `CMD` is not readable. -/
theorem commandPort : Obligations.CommandPort := by
  unfold Obligations.CommandPort
  refine ⟨fun s w rest hbusy hfatal h => ?_, fun s w rest hclosed h => ?_, fun s rest h => ?_⟩
  · have hw := State.hostWrite_served (s := { s with schedule := rest }) (ha := 0) (l := .cmd) w rfl rfl
      fun _ => ⟨hbusy, hfatal⟩
    exact ⟨_, (step_event h).trans (congrArg Host.Outcome.next hw), rfl, rfl⟩
  · rw [step_event h]
    exact congrArg Host.Outcome.next
      (State.hostWrite_closed (s := { s with schedule := rest }) w hclosed (by simp) (by simp))
  · rw [step_event h]
    rfl

end Sys2Proof.Proofs
end

section
/-! PROOF. O46, O52 and O53: the words the host reads (R27, R35, R36, R250), and the values after reset (R46). -/

namespace Sys2Proof.Machine

/-! ### STATUS, field by field -/

@[simp] theorem getElem_bit (b : Bool) : (bit b)[0] = b := by cases b <;> rfl

theorem statusWord_busy (s : State) : s.statusWord.getLsbD 0 = s.busy := by
  simp only [State.statusWord, BitVec.getLsbD_append]
  simp

theorem statusWord_done (s : State) : s.statusWord.getLsbD 1 = s.done := by
  simp only [State.statusWord, BitVec.getLsbD_append]
  simp

theorem statusWord_fatal (s : State) : s.statusWord.getLsbD 2 = s.fatal := by
  simp only [State.statusWord, BitVec.getLsbD_append]
  simp

theorem statusWord_herr (s : State) : s.statusWord.getLsbD 3 = s.herr := by
  simp only [State.statusWord, BitVec.getLsbD_append]
  simp

theorem statusWord_bits_7_4 (s : State) : s.statusWord.extractLsb' 4 4 = 0 := by
  ext i hi
  simp only [State.statusWord, BitVec.getElem_extractLsb', BitVec.getLsbD_append]
  simp [hi]

theorem statusWord_ecode (s : State) : s.statusWord.extractLsb' 8 4 = s.ecode.code := by
  ext i hi
  simp only [State.statusWord, BitVec.getElem_extractLsb', BitVec.getLsbD_append]
  simp [hi]

theorem statusWord_fcode (s : State) : s.statusWord.extractLsb' 12 4 = s.fcode.code := by
  ext i hi
  simp only [State.statusWord, BitVec.getElem_extractLsb', BitVec.getLsbD_append]
  simp [show ¬ 8 + i < 4 by omega, show ¬ 8 + i - 4 < 4 by omega, show 8 + i - 4 - 4 = i by omega, hi]

theorem statusWord_bits_31_16 (s : State) : s.statusWord.extractLsb' 16 16 = 0 := by
  ext i hi
  simp only [State.statusWord, BitVec.getElem_extractLsb', BitVec.getLsbD_append]
  simp [show ¬ 12 + i - 4 < 4 by omega, show ¬ 12 + i - 4 - 4 < 4 by omega]

/-! ### CTRL and CAP -/

theorem ctrlWord_ie (s : State) : s.ctrlWord.getLsbD 0 = s.ie := by
  simp only [State.ctrlWord, BitVec.getLsbD_append]
  simp

theorem ctrlWord_bits_31_1 (s : State) : s.ctrlWord.extractLsb' 1 31 = 0 := by
  ext i hi
  simp only [State.ctrlWord, BitVec.getElem_extractLsb', BitVec.getLsbD_append]
  simp

theorem capWord_lmax (s : State) : s.capWord.extractLsb' 0 16 = BitVec.ofNat 16 s.cfg.lmax := by
  ext i hi
  simp only [State.capWord, BitVec.getElem_extractLsb', BitVec.getLsbD_append]
  simp [hi]

theorem capWord_version (s : State) : s.capWord.extractLsb' 16 8 = 0x01 := by
  ext i hi
  simp only [State.capWord, BitVec.getElem_extractLsb', BitVec.getLsbD_append]
  simp [hi]

theorem capWord_bits_31_24 (s : State) : s.capWord.extractLsb' 24 8 = 0x00 := by
  ext i hi
  simp only [State.capWord, BitVec.getElem_extractLsb', BitVec.getLsbD_append]
  simp [show ¬ 24 + i < 16 by omega, show ¬ 24 + i - 16 < 8 by omega]

end Sys2Proof.Machine

namespace Sys2Proof.Proofs

open Sys2Proof.Machine Sys2Proof.Safety

/-- Settles O52: one lemma per field of `STATUS`; the code numbers are those of `ECode.code` and `FCode.code`. -/
theorem statusLayout : Obligations.StatusLayout := by
  unfold Obligations.StatusLayout
  intro s
  refine ⟨statusWord_busy s, statusWord_done s, statusWord_fatal s, statusWord_herr s, statusWord_bits_7_4 s, ?_, ?_,
    statusWord_bits_31_16 s⟩
  · rw [statusWord_ecode]
    cases s.ecode <;> rfl
  · rw [statusWord_fcode]
    cases s.fcode <;> rfl

/-- Settles O53: `irq` is read off the bits of `CTRL` and `STATUS` that its definition names. -/
theorem controlCapabilityAndInterrupt : Obligations.ControlCapabilityAndInterrupt := by
  unfold Obligations.ControlCapabilityAndInterrupt
  intro s
  refine ⟨ctrlWord_ie s, ctrlWord_bits_31_1 s, capWord_lmax s, capWord_version s, capWord_bits_31_24 s, ?_⟩
  rw [ctrlWord_ie, statusWord_done, statusWord_fatal]
  rfl

/-- What makes a state read as R46 says: the flags, the codes, `IE` and the registers that have a stated value. -/
theorem afterReset_of_fields {s : State} (hbusy : s.busy = false) (hdone : s.done = false) (hfatal : s.fatal = false)
    (hherr : s.herr = false) (hecode : s.ecode = .ok) (hfcode : s.fcode = .none) (hie : s.ie = false)
    (hresult : s.result = 0) (hlen : s.len = 0) (hshlen : s.shlen = Vector.replicate Config.slotCount 0)
    (hst : s.seq.st = .idle) : AfterReset s := by
  refine ⟨?_, ?_, capWord_lmax s, capWord_version s, capWord_bits_31_24 s, hresult, hlen, fun j _ => ?_, hst, ?_⟩
  · rw [State.statusWord, hbusy, hdone, hfatal, hherr, hecode, hfcode]
    rfl
  · rw [State.ctrlWord, hie]
    rfl
  · rw [hshlen]
    exact entry_replicate_zero j
  · rw [State.irq, hie]
    rfl

/-- Settles O46: the reset state and the state of the reset event have the stated fields, and the event keeps `cfg`. -/
theorem resetLeavesTheStatedValues : Obligations.ResetLeavesTheStatedValues := by
  unfold Obligations.ResetLeavesTheStatedValues
  refine ⟨afterReset_of_fields rfl rfl rfl rfl rfl rfl rfl rfl rfl rfl rfl, fun s rest h => ?_⟩
  exact ⟨_, step_event h, afterReset_of_fields rfl rfl rfl rfl rfl rfl rfl rfl rfl rfl rfl, rfl⟩

end Sys2Proof.Proofs
end

section
/-! PROOF. O44 and O45: the invariant holds at reset and every step keeps it. -/

namespace Sys2Proof.Proofs

open Sys2Proof.Machine Sys2Proof.Safety

/-! ### The parts of the invariant where they say nothing -/

/-- The states of `SPLIT` past its checks. -/
abbrev pastSplitCheck : List ST := [.spClear, .spShuffle, .spCoef, .spEval, .spTail]

/-- The states of `COMBINE` past its checks. -/
abbrev pastCombineCheck : List ST := [.cbLoadX, .cbLoadY, .cbInterp, .cbLen]

theorem splitInv_outside {s : State} (h : s.seq.st ∉ pastSplitCheck) : SplitInv s where
  checked hst := absurd hst h
  cleared hst := absurd (List.mem_cons_of_mem _ hst) h
  shuffling hst := absurd (by simp [hst]) h
  position hst := absurd (by simp only [List.mem_cons, List.not_mem_nil] at hst ⊢; tauto) h
  coefficient hst := absurd (by simp [hst]) h

theorem combineInv_outside {s : State} (h : s.seq.st ∉ pastCombineCheck) : CombineInv s where
  checked hst := absurd hst h
  loaded hst := absurd (List.mem_cons_of_mem _ hst) h
  position hst := absurd (by simp only [List.mem_cons, List.not_mem_nil] at hst ⊢; tauto) h
  points hst := absurd (by simp [hst]) h

/-- Outside the states between `DECODE` and `END` the invariant is about the parameters, the status and the memory. -/
theorem inv_outside {s : State} (hcfg : s.cfg.Legal) (hstatus : StatusInv s) (hmem : MemoryInv s)
    (hst : s.seq.st ∈ [ST.idle, .decode, .finish, .halt]) : Inv s where
  cfg := hcfg
  status := hstatus
  memory := hmem
  word h := absurd hst h
  split := splitInv_outside fun h => by
    simp only [List.mem_cons, List.not_mem_nil, or_false] at hst h
    rcases hst with hst | hst | hst | hst <;> simp [hst] at h
  combine := combineInv_outside fun h => by
    simp only [List.mem_cons, List.not_mem_nil, or_false] at hst h
    rcases hst with hst | hst | hst | hst <;> simp [hst] at h

/-! ### States in which a command runs -/

/-- A command runs and has reported nothing (R29, R32, R44). -/
def Running (s : State) : Prop :=
  s.busy = true ∧ s.fatal = false ∧ s.fcode ≠ .divideByZero ∧ s.done = false ∧ s.ecode = .ok

theorem running_of_statusInv {s : State} (h : StatusInv s) (hidle : s.seq.st ≠ .idle) (hhalt : s.seq.st ≠ .halt) :
    Running s := by
  have hfatal : s.fatal = false := Bool.eq_false_iff.mpr fun hf => hhalt (h.halt_iff.mpr hf)
  have hbusy : s.busy = true := by
    by_contra hb
    exact hidle (h.idle_iff.mpr ⟨Bool.eq_false_iff.mpr hb, hfatal⟩)
  obtain ⟨hdone, hecode⟩ := h.unreported (.inl hbusy)
  exact ⟨hbusy, hfatal, fun hf => by simp [h.fcode_iff.mp hf] at hfatal, hdone, hecode⟩

theorem Running.statusInv {s : State} (h : Running s) (hidle : s.seq.st ≠ .idle) (hhalt : s.seq.st ≠ .halt) :
    StatusInv s := by
  obtain ⟨hbusy, hfatal, hfcode, hdone, hecode⟩ := h
  constructor <;> simp [hbusy, hfatal, hfcode, hdone, hecode, hidle, hhalt]

/-- What the invariant says of every state in which a command runs, wherever `ST` stands. -/
structure InCommand (s : State) : Prop where
  cfg : s.cfg.Legal
  running : Running s
  memory : MemoryInv s

theorem inCommand_of_inv {s : State} (h : Inv s) (hidle : s.seq.st ≠ .idle) (hhalt : s.seq.st ≠ .halt) :
    InCommand s :=
  ⟨h.cfg, running_of_statusInv h.status hidle hhalt, h.memory⟩

theorem InCommand.inv {s : State} (h : InCommand s) (hidle : s.seq.st ≠ .idle) (hhalt : s.seq.st ≠ .halt)
    (hword : WordInv s) (hsplit : SplitInv s) (hcombine : CombineInv s) : Inv s :=
  ⟨h.cfg, h.running.statusInv hidle hhalt, h.memory, hword, hsplit, hcombine⟩

theorem InCommand.toFinish {s : State} (h : InCommand s) (e : ECode) : Inv (s.toFinish e) :=
  inv_outside h.cfg (Running.statusInv (s := s.toFinish e) h.running (by simp) (by simp)) h.memory (by simp)

/-- Both successful ends and errors meet the invariant (`endOk` is `raiseError .ok`). -/
theorem InCommand.raiseError {s : State} (h : InCommand s) (e : ECode) : Inv (s.raiseError e) := by
  obtain ⟨_, hfatal, hfcode, _, _⟩ := h.running
  refine inv_outside h.cfg ?_ h.memory (by simp [Seq.start])
  constructor <;> simp [hfatal, hfcode, Seq.start]

theorem InCommand.raiseFatal {s : State} (h : InCommand s) : Inv s.raiseFatal := by
  obtain ⟨_, _, _, hdone, hecode⟩ := h.running
  refine inv_outside h.cfg ?_ h.memory (by simp [Seq.start])
  constructor <;> simp [hdone, hecode, Seq.start]

/-! ### The memory -/

/-- A memory in canonical form that lists cells of buffers of `lmax` only: `MemoryInv s` is `CellsIn s.cfg.lmax s.mem`. -/
def CellsIn (lmax : Nat) (m : Memory) : Prop := Memory.wf m ∧ ∀ p ∈ m, Buffered lmax p.1

theorem CellsIn.store {lmax a : Nat} {m : Memory} (h : CellsIn lmax m) (ha : Buffered lmax a) (b : Byte) :
    CellsIn lmax (Memory.store m a b) := by
  obtain ⟨hwf, hcells⟩ := h
  refine ⟨Memory.wf_store m hwf a b, fun p hp => ?_⟩
  rcases Memory.mem_store m a b p hp with rfl | hp
  · exact ha
  · exact hcells p hp

theorem CellsIn.storeShare {lmax j o : Nat} {m : Memory} (h : CellsIn lmax m) (hj : j < 256) (ho : o ≤ lmax)
    (b : Byte) : CellsIn lmax (Memory.store m (shareAddr j o) b) :=
  h.store (.inl ⟨j, o, hj, ho, rfl⟩) b

theorem CellsIn.storeSecret {lmax o : Nat} {m : Memory} (h : CellsIn lmax m) (ho : o < lmax) (b : Byte) :
    CellsIn lmax (Memory.store m (secretAddr o) b) :=
  h.store (.inr ⟨o, ho, rfl⟩) b

/-- The secret that accepted shares make fits the buffer. -/
theorem combinedLen_le {m : BitVec 12} {s : State} (h : CombineLengths m s)
    (hlong : (entry s.shlen 0).toNat ≤ s.cfg.lmax + 1) : 1 ≤ s.combinedLen ∧ s.combinedLen ≤ s.cfg.lmax := by
  obtain ⟨hm, _, hlen⟩ := h
  have := (hlen 0 (by omega)).1
  unfold State.combinedLen
  omega

theorem bodyOf_cellsIn (i : Instr) {s : State} (hslots : s.cfg.nslot = 256) (h : CellsIn s.cfg.lmax s.mem) :
    CellsIn s.cfg.lmax (bodyOf i s).2.mem := by
  rcases bodyOf_cases i s with ⟨_, hw⟩ | ⟨_, _, _, hw⟩ | ⟨n, k, rfl, _⟩ | ⟨m, rfl, _⟩
  · rcases hw with ⟨v, hw⟩ | ⟨e, hw⟩ | hw <;> (rw [hw]; exact h)
  · rw [hw]
    exact h
  · refine splitBody_mem_inv (fun ⟨_, _, hn, _, hlen⟩ j o m b hj ho hm => ?_) h
    exact hm.storeShare (by omega) (by omega) b
  · refine combineBody_mem_inv (fun he o u b ho hu => ?_) h
    obtain ⟨hlengths, hlong, _⟩ := (combineError_eq_none m s hslots).mp he
    have := combinedLen_le hlengths hlong
    exact hu.storeSecret (by omega) b

/-! ### A command in one step -/

theorem InCommand.of_dataWrites {s t : State} (h : InCommand s) (hw : DataWrites s t) (hmem : CellsIn s.cfg.lmax t.mem) :
    InCommand t := by
  rw [hw]
  exact ⟨h.cfg, h.running, hmem⟩

theorem inv_exec {i : Instr} {s t : State} (hinv : Inv s) (h : InCommand s) (ht : exec i s = .next t) : Inv t := by
  obtain ⟨_, _, _, _, hslots⟩ := h.cfg
  have hbody : InCommand (bodyOf i s).2 := h.of_dataWrites (bodyOf_dataWrites i s) (bodyOf_cellsIn i hslots h.memory)
  rcases exec_cases ht with ⟨_, rfl⟩ | ⟨e, _, rfl⟩ | ⟨_, rfl⟩ | ⟨_, rfl⟩
  · exact hbody.raiseError .ok
  · exact hbody.raiseError e
  · exact hbody.raiseFatal
  · exact hinv

/-! ### The latched word -/

/-- All the states of the command that a state belongs to; none for the states outside the commands. -/
def commandStates : ST → List ST
  | .idle | .decode | .finish | .halt => []
  | .field => [.field]
  | .gen => [.gen]
  | .eval => [.eval]
  | .interp => [.interp]
  | .spCheck | .spClear | .spShuffle | .spCoef | .spEval | .spTail => statesOf (.split 0 0)
  | .cbCheck | .cbLoadX | .cbLoadY | .cbInterp | .cbLen => statesOf (.combine 0)

theorem statesOf_eq_commandStates {i : Instr} : ∀ st ∈ statesOf i, statesOf i = commandStates st := by
  cases i <;> simp [statesOf, commandStates]

/-- A state of a command is a state of no other kind of command (R221). -/
theorem statesOf_unique {i j : Instr} {st : ST} (hi : st ∈ statesOf i) (hj : st ∈ statesOf j) :
    statesOf i = statesOf j :=
  (statesOf_eq_commandStates st hi).trans (statesOf_eq_commandStates st hj).symm

theorem statesOf_between {i : Instr} : ∀ st ∈ statesOf i, st ≠ .idle ∧ st ≠ .decode ∧ st ≠ .finish ∧ st ≠ .halt := by
  cases i <;> simp [statesOf]

/-- A transition inside one command keeps the latched word that command's. -/
theorem wordInv_within (i : Instr) {s t : State} (h : WordInv s) (hs : s.seq.st ∈ statesOf i)
    (ht : t.seq.st ∈ statesOf i) (hcmdl : t.cmdl = s.cmdl) : WordInv t := by
  intro _
  obtain ⟨i', hdecode, hi'⟩ := h (by simpa using statesOf_between _ hs)
  exact ⟨i', hcmdl ▸ hdecode, statesOf_unique hs hi' ▸ ht⟩

/-- The invariant in a state of a command that a state of the same command goes to. -/
theorem inv_within (i : Instr) {s t : State} (hinv : Inv s) (hs : s.seq.st ∈ statesOf i) (h : InCommand t)
    (ht : t.seq.st ∈ statesOf i) (hcmdl : t.cmdl = s.cmdl) (hsplit : SplitInv t) (hcombine : CombineInv t) : Inv t := by
  obtain ⟨hidle, _, _, hhalt⟩ := statesOf_between _ ht
  exact h.inv hidle hhalt (wordInv_within i hinv.word hs ht hcmdl) hsplit hcombine

/-! ### Transitions of the short commands -/

theorem inv_leaveDecode {s : State} (h : InCommand s) : Inv (leaveDecode s) := by
  unfold leaveDecode
  rcases hd : decode s.cmdl with i | why
  · have enter (st : ST) (hst : st ∈ statesOf i) (hsplit : st ∉ pastSplitCheck) (hcombine : st ∉ pastCombineCheck) :
        Inv (s.goto st) := by
      obtain ⟨hidle, _, _, hhalt⟩ := statesOf_between _ hst
      exact InCommand.inv (s := s.goto st) ⟨h.cfg, h.running, h.memory⟩ hidle hhalt (fun _ => ⟨i, hd, hst⟩)
        (splitInv_outside hsplit) (combineInv_outside hcombine)
    cases i <;> exact enter _ (by simp [statesOf]) (by simp) (by simp)
  · exact h.toFinish .illegalCommand

theorem inv_leave {s : State} {r : Exit × State} (h : InCommand s) (hr : WritesResultOnly r s) : Inv (leave r) := by
  rcases hr with ⟨v, rfl⟩ | ⟨e, rfl⟩ | rfl
  · exact InCommand.toFinish (s := s.setResult v) ⟨h.cfg, h.running, h.memory⟩ .ok
  · exact h.toFinish e
  · exact h.raiseFatal

theorem inv_gen {s : State} (hinv : Inv s) (h : InCommand s) (hst : s.seq.st = .gen) :
    Inv (coefVisit s.opN.toNat s.opX (fun t => t.toFinish .ok) s) := by
  rcases coefVisit_cases s.opN.toNat s.opX (fun t => t.toFinish .ok) s with
    hv | ⟨rest, hv⟩ | ⟨v, rest, _, hv⟩ | ⟨v, rest, _, hv⟩ <;> rw [hv]
  · exact hinv
  · exact InCommand.toFinish (s := { s with entropy := rest }) ⟨h.cfg, h.running, h.memory⟩ _
  · exact InCommand.toFinish (s := { s with coef := v, entropy := rest }) ⟨h.cfg, h.running, h.memory⟩ _
  · have hs : s.seq.st ∈ statesOf (.pgen 0 0) := by simp [hst, statesOf]
    exact inv_within _ hinv hs ⟨h.cfg, h.running, h.memory⟩ hs rfl (splitInv_outside (by simp [hst]))
      (combineInv_outside (by simp [hst]))

/-! ### Transitions of SPLIT -/

/-- The invariant in a state of `SPLIT` that a state of `SPLIT` goes to. -/
theorem inv_in_split {s t : State} (hinv : Inv s) (hs : s.seq.st ∈ statesOf (.split 0 0)) (h : InCommand t)
    (ht : t.seq.st ∈ statesOf (.split 0 0)) (hcmdl : t.cmdl = s.cmdl) (hsplit : SplitInv t) : Inv t := by
  refine inv_within _ hinv hs h ht hcmdl hsplit (combineInv_outside fun hc => ?_)
  exact absurd (statesOf_unique (j := (.combine 0)) ht (List.mem_cons_of_mem _ hc)) (by simp [statesOf])

/-- What `SPLIT` carries along past `SP_CLEAR`: legal arguments, permuted coordinates, and no slot marked. -/
def Cleared (s : State) : Prop :=
  SplitArgs s.opN s.opK s ∧ PermutesNonzero s.xc ∧ ∀ j, j < 256 → entry s.shlen j = 0

theorem cleared_of_inv {s : State} (h : Inv s) (hst : s.seq.st ∈ [ST.spShuffle, .spCoef, .spEval, .spTail]) :
    Cleared s :=
  ⟨h.split.checked (List.mem_cons_of_mem _ hst), h.split.cleared hst⟩

theorem splitInv_spShuffle {s : State} (hst : s.seq.st = .spShuffle) (h : Cleared s)
    (ht : 1 ≤ s.seq.t ∧ s.seq.t ≤ 254 ∧ s.seq.tries < s.cfg.rejLimit) : SplitInv s where
  checked _ := h.1
  cleared _ := h.2
  shuffling _ := ht
  position hp := by simp [hst] at hp
  coefficient hp := by simp [hst] at hp

theorem splitInv_spCoef {s : State} (hst : s.seq.st = .spCoef) (h : Cleared s) (hi : s.seq.i < s.len.toNat)
    (hc : s.seq.c < s.opK.toNat) : SplitInv s where
  checked _ := h.1
  cleared _ := h.2
  shuffling hp := by simp [hst] at hp
  position _ := hi
  coefficient _ := hc

theorem splitInv_spEval {s : State} (hst : s.seq.st = .spEval) (h : Cleared s) (hi : s.seq.i < s.len.toNat) :
    SplitInv s where
  checked _ := h.1
  cleared _ := h.2
  shuffling hp := by simp [hst] at hp
  position _ := hi
  coefficient hp := by simp [hst] at hp

theorem splitInv_spTail {s : State} (hst : s.seq.st = .spTail) (h : Cleared s) : SplitInv s where
  checked _ := h.1
  cleared _ := h.2
  shuffling hp := by simp [hst] at hp
  position hp := by simp [hst] at hp
  coefficient hp := by simp [hst] at hp

theorem splitInv_spClear {s : State} (hst : s.seq.st = .spClear) (h : SplitArgs s.opN s.opK s) : SplitInv s where
  checked _ := h
  cleared hp := by simp [hst] at hp
  shuffling hp := by simp [hst] at hp
  position hp := by simp [hst] at hp
  coefficient hp := by simp [hst] at hp

theorem inv_spCheck {s : State} (hinv : Inv s) (h : InCommand s) (hst : s.seq.st = .spCheck) :
    Inv (coreTransition s) := by
  simp only [coreTransition, hst]
  rcases he : splitError s.opN s.opK s with _ | e
  · have hargs := (splitError_eq_none _ _ s).mp he
    exact inv_in_split hinv (by simp [hst, statesOf]) (t := s.goto .spClear) ⟨h.cfg, h.running, h.memory⟩
      (by simp [statesOf]) rfl (splitInv_spClear rfl hargs)
  · exact h.toFinish e

theorem inv_spClear {s : State} (hinv : Inv s) (h : InCommand s) (hst : s.seq.st = .spClear) :
    Inv (coreTransition s) := by
  have hargs := hinv.split.checked (by simp [hst])
  have hperm := identityXc_permutes (clearShlen s)
  obtain ⟨_, _, _, hlimit, _⟩ := h.cfg
  simp only [coreTransition, hst]
  rw [identityXc_frame]
  exact inv_in_split hinv (by simp [hst, statesOf]) ⟨h.cfg, h.running, h.memory⟩ (by simp [statesOf]) rfl
    (splitInv_spShuffle rfl ⟨hargs, hperm, fun j _ => entry_replicate_zero j⟩ ⟨by simp, by simp, hlimit⟩)

theorem inv_spShuffle {s : State} (hinv : Inv s) (h : InCommand s) (hst : s.seq.st = .spShuffle) :
    Inv (coreTransition s) := by
  have hcleared := cleared_of_inv hinv (by simp [hst])
  obtain ⟨⟨hk, hkn, hn, hlen, hlmax⟩, hperm, hshlen⟩ := hcleared
  obtain ⟨ht1, ht254, htries⟩ := hinv.split.shuffling hst
  obtain ⟨_, _, _, hreject, _⟩ := h.cfg
  have hs : s.seq.st ∈ statesOf (.split 0 0) := by simp [hst, statesOf]
  have exchanged (r : Nat) (rest : List Answer) (hr : r ≤ s.seq.t) :
      ∃ x, exchangeXc s.seq.t r { s with entropy := rest } = { s with entropy := rest, xc := x } ∧ PermutesNonzero x :=
    ⟨_, rfl, exchangeXc_permutes (s := { s with entropy := rest }) (by omega) (by omega) hperm⟩
  simp only [coreTransition, hst]
  rcases shuffleVisit_cases s with
    hv | ⟨rest, hv⟩ | ⟨rest, hlimit, hv⟩ | ⟨r, rest, hr, _, hv⟩ | ⟨r, rest, hr, hmore, hv⟩ <;> rw [hv]
  · exact hinv
  · exact InCommand.toFinish (s := { s with entropy := rest }) ⟨h.cfg, h.running, h.memory⟩ _
  · exact inv_in_split hinv hs ⟨h.cfg, h.running, h.memory⟩ hs rfl
      (splitInv_spShuffle hst ⟨⟨hk, hkn, hn, hlen, hlmax⟩, hperm, hshlen⟩ ⟨ht1, ht254, hlimit⟩)
  · obtain ⟨x, hx, hperm'⟩ := exchanged r rest hr
    rw [hx]
    exact inv_in_split hinv hs ⟨h.cfg, h.running, h.memory⟩ (by simp [statesOf]) rfl
      (splitInv_spCoef rfl ⟨⟨hk, hkn, hn, hlen, hlmax⟩, hperm', hshlen⟩ hlen (Nat.lt_of_lt_of_le Nat.zero_lt_two hk))
  · obtain ⟨x, hx, hperm'⟩ := exchanged r rest hr
    rw [hx]
    exact inv_in_split hinv hs ⟨h.cfg, h.running, h.memory⟩ hs rfl
      (splitInv_spShuffle hst ⟨⟨hk, hkn, hn, hlen, hlmax⟩, hperm', hshlen⟩
        ⟨Nat.le_sub_one_of_lt hmore, (Nat.sub_le _ _).trans ht254, hreject⟩)

theorem inv_spCoef {s : State} (hinv : Inv s) (h : InCommand s) (hst : s.seq.st = .spCoef) :
    Inv (coreTransition s) := by
  have hcleared := cleared_of_inv hinv (by simp [hst])
  have hposition := hinv.split.position (by simp [hst])
  have hs : s.seq.st ∈ statesOf (.split 0 0) := by simp [hst, statesOf]
  simp only [coreTransition, hst]
  rcases coefVisit_cases s.opK.toNat (s.secret s.seq.i) (fun t => t.goto .spEval) s with
    hv | ⟨rest, hv⟩ | ⟨v, rest, _, hv⟩ | ⟨v, rest, hmore, hv⟩ <;> rw [hv]
  · exact hinv
  · exact InCommand.toFinish (s := { s with entropy := rest }) ⟨h.cfg, h.running, h.memory⟩ _
  · exact inv_in_split hinv hs ⟨h.cfg, h.running, h.memory⟩ (by simp [statesOf]) rfl
      (splitInv_spEval rfl hcleared hposition)
  · exact inv_in_split hinv hs ⟨h.cfg, h.running, h.memory⟩ hs rfl (splitInv_spCoef hst hcleared hposition hmore)

theorem inv_spEval {s : State} (hinv : Inv s) (h : InCommand s) (hst : s.seq.st = .spEval) :
    Inv (coreTransition s) := by
  have hcleared := cleared_of_inv hinv (by simp [hst])
  obtain ⟨hk, _, hn, _, hlmax⟩ := hcleared.1
  have hposition := hinv.split.position (by simp [hst])
  have hmem : CellsIn s.cfg.lmax (evalShares s.opN.toNat s.opK.toNat s.seq.i s).mem :=
    evalShares_mem_inv (fun j m b hj hm => hm.storeShare (by omega) (by omega) b) h.memory
  have hs : s.seq.st ∈ statesOf (.split 0 0) := by simp [hst, statesOf]
  simp only [coreTransition, hst]
  rw [evalShares_frame]
  split_ifs with hnext
  · exact inv_in_split hinv hs ⟨h.cfg, h.running, hmem⟩ (by simp [statesOf]) rfl
      (splitInv_spCoef rfl hcleared hnext (Nat.lt_of_lt_of_le Nat.zero_lt_two hk))
  · exact inv_in_split hinv hs ⟨h.cfg, h.running, hmem⟩ (by simp [statesOf]) rfl (splitInv_spTail rfl hcleared)

theorem inv_spTail {s : State} (hinv : Inv s) (h : InCommand s) (hst : s.seq.st = .spTail) :
    Inv (coreTransition s) := by
  obtain ⟨_, _, hn, _, hlmax⟩ := hinv.split.checked (by simp [hst])
  have hmem : CellsIn s.cfg.lmax (tailShares s.opN.toNat s).mem :=
    tailShares_mem_inv (fun j m b hj hm => hm.storeShare (by omega) (by omega) b) h.memory
  simp only [coreTransition, hst]
  rw [markShares_frame, tailShares_frame]
  exact InCommand.toFinish (s := { s with mem := (tailShares s.opN.toNat s).mem, shlen := _ })
    ⟨h.cfg, h.running, hmem⟩ .ok

/-! ### Transitions of COMBINE -/

/-- The invariant in a state of `COMBINE` that a state of `COMBINE` goes to. -/
theorem inv_in_combine {s t : State} (hinv : Inv s) (hs : s.seq.st ∈ statesOf (.combine 0)) (h : InCommand t)
    (ht : t.seq.st ∈ statesOf (.combine 0)) (hcmdl : t.cmdl = s.cmdl) (hcombine : CombineInv t) : Inv t := by
  refine inv_within _ hinv hs h ht hcmdl (splitInv_outside fun hc => ?_) hcombine
  exact absurd (statesOf_unique (j := (.split 0 0)) ht (List.mem_cons_of_mem _ hc)) (by simp [statesOf])

/-- What `COMBINE` carries along past `CB_CHECK`: the checks of R211 hold. -/
def Checked (s : State) : Prop :=
  CombineLengths s.opN s ∧ (entry s.shlen 0).toNat ≤ s.cfg.lmax + 1 ∧ CombineDistinct s.opN s

/-- What `COMBINE` carries along past `CB_LOADX`: the coordinates are the trailing bytes, and distinct. -/
def Loaded (s : State) : Prop :=
  (∀ j, j < s.opN.toNat → entry s.xc j = s.share j s.combinedLen) ∧ DistinctXc s.xc s.opN.toNat

theorem combineInv_cbLoadX {s : State} (hst : s.seq.st = .cbLoadX) (h : Checked s) : CombineInv s where
  checked _ := h
  loaded hp := by simp [hst] at hp
  position hp := by simp [hst] at hp
  points hp := by simp [hst] at hp

theorem combineInv_cbLoadY {s : State} (hst : s.seq.st = .cbLoadY) (h : Checked s) (hl : Loaded s)
    (hi : s.seq.i < s.combinedLen) : CombineInv s where
  checked _ := h
  loaded _ := hl
  position _ := hi
  points hp := by simp [hst] at hp

theorem combineInv_cbInterp {s : State} (h : Checked s) (hl : Loaded s)
    (hi : s.seq.i < s.combinedLen) (hp : ∀ j, j < s.opN.toNat → entry s.py j = s.share j s.seq.i) : CombineInv s where
  checked _ := h
  loaded _ := hl
  position _ := hi
  points _ := hp

theorem combineInv_cbLen {s : State} (hst : s.seq.st = .cbLen) (h : Checked s) (hl : Loaded s) : CombineInv s where
  checked _ := h
  loaded _ := hl
  position hp := by simp [hst] at hp
  points hp := by simp [hst] at hp

theorem inv_cbCheck {s : State} (hinv : Inv s) (h : InCommand s) (hst : s.seq.st = .cbCheck) :
    Inv (coreTransition s) := by
  obtain ⟨_, _, _, _, hslots⟩ := h.cfg
  simp only [coreTransition, hst]
  rcases he : combineError s.opN s with _ | e
  · have hchecked : Checked s := (combineError_eq_none _ s hslots).mp he
    exact inv_in_combine hinv (by simp [hst, statesOf]) (t := s.goto .cbLoadX) ⟨h.cfg, h.running, h.memory⟩
      (by simp [statesOf]) rfl (combineInv_cbLoadX rfl hchecked)
  · exact h.toFinish e

/-- Coordinates loaded from checked shares are distinct. -/
theorem loadX_loaded {s : State} (h : Checked s) : Loaded (loadX s.opN.toNat s) := by
  obtain ⟨⟨_, hm, _⟩, _, hdistinct⟩ := h
  have hx : ∀ j, j < s.opN.toNat → entry (loadX s.opN.toNat s).xc j = s.share j s.combinedLen := fun j hj => by
    rw [loadX_entry _ hm, if_pos hj]
  rw [loadX_frame]
  refine ⟨hx, fun i j hi hj hij => ?_⟩
  by_contra hne
  rw [hx i hi, hx j hj] at hij
  exact hdistinct i j hi hj hne hij

theorem inv_cbLoadX {s : State} (hinv : Inv s) (h : InCommand s) (hst : s.seq.st = .cbLoadX) :
    Inv (coreTransition s) := by
  have hchecked : Checked s := hinv.combine.checked (by simp [hst])
  have hloaded := loadX_loaded hchecked
  have hlen := combinedLen_le hchecked.1 hchecked.2.1
  simp only [coreTransition, hst]
  rw [loadX_frame] at hloaded ⊢
  exact inv_in_combine hinv (by simp [hst, statesOf]) ⟨h.cfg, h.running, h.memory⟩ (by simp [statesOf]) rfl
    (combineInv_cbLoadY rfl hchecked hloaded hlen.1)

theorem inv_cbLoadY {s : State} (hinv : Inv s) (h : InCommand s) (hst : s.seq.st = .cbLoadY) :
    Inv (coreTransition s) := by
  have hchecked : Checked s := hinv.combine.checked (by simp [hst])
  have hloaded : Loaded s := hinv.combine.loaded (by simp [hst])
  have hposition := hinv.combine.position (by simp [hst])
  obtain ⟨_, hm, _⟩ := hchecked.1
  have hpoints : ∀ j, j < s.opN.toNat → entry (loadY s.opN.toNat s.seq.i s).py j = s.share j s.seq.i := fun j hj => by
    rw [loadY_entry _ _ hm, if_pos hj]
  simp only [coreTransition, hst]
  rw [loadY_frame]
  exact inv_in_combine hinv (by simp [hst, statesOf]) ⟨h.cfg, h.running, h.memory⟩ (by simp [statesOf]) rfl
    (combineInv_cbInterp hchecked hloaded hposition hpoints)

/-- A write of a secret cell changes no share byte. -/
theorem share_setSecret {s : State} (h : Memory.wf s.mem) {j o : Nat} (hj : j < 256) (ho : o < 0x10000) (i : Nat)
    (b : Byte) : (s.setSecret i b).share j o = s.share j o := by
  unfold State.share State.setSecret
  rw [State.memRead_memWrite s h, if_neg (shareAddr_ne_secretAddr hj ho i)]

/-- A write of a secret cell leaves the shares as checked and the coordinates as loaded. -/
theorem setSecret_checked_loaded {s : State} (h : InCommand s) (hchecked : Checked s) (hloaded : Loaded s) (i : Nat)
    (b : Byte) : Checked (s.setSecret i b) ∧ Loaded (s.setSecret i b) := by
  obtain ⟨hlengths, hlong, hdistinct⟩ := hchecked
  obtain ⟨hx, hxdistinct⟩ := hloaded
  have hm := hlengths.2.1
  have hlen := combinedLen_le hlengths hlong
  obtain ⟨_, _, hlmax, _⟩ := h.cfg
  have hsame (j : Nat) (hj : j < s.opN.toNat) :
      (s.setSecret i b).share j s.combinedLen = s.share j s.combinedLen :=
    share_setSecret h.memory.1 (by omega) (by omega) i b
  refine ⟨⟨hlengths, hlong, fun j j' hj hj' hne => ?_⟩, fun j hj => (hx j hj).trans (hsame j hj).symm, hxdistinct⟩
  exact fun heq => hdistinct j j' hj hj' hne ((hsame j hj).symm.trans (heq.trans (hsame j' hj')))

theorem inv_cbInterp {s : State} (hinv : Inv s) (h : InCommand s) (hst : s.seq.st = .cbInterp) :
    Inv (coreTransition s) := by
  have hchecked : Checked s := hinv.combine.checked (by simp [hst])
  have hloaded : Loaded s := hinv.combine.loaded (by simp [hst])
  have hposition := hinv.combine.position (by simp [hst])
  have hlen := combinedLen_le hchecked.1 hchecked.2.1
  have hs : s.seq.st ∈ statesOf (.combine 0) := by simp [hst, statesOf]
  simp only [coreTransition, hst]
  rcases interpolateByte_cases s.opN.toNat s.seq.i s with ⟨b, _, hi⟩ | ⟨_, hi⟩ <;> rw [hi]
  · have hmem : CellsIn s.cfg.lmax (s.setSecret s.seq.i b).mem :=
      CellsIn.storeSecret h.memory (by omega) b
    obtain ⟨hchecked', hloaded'⟩ := setSecret_checked_loaded h hchecked hloaded s.seq.i b
    simp only
    split_ifs with hnext
    · exact inv_in_combine hinv hs ⟨h.cfg, h.running, hmem⟩ (by simp [statesOf]) rfl
        (combineInv_cbLoadY rfl hchecked' hloaded' hnext)
    · exact inv_in_combine hinv hs ⟨h.cfg, h.running, hmem⟩ (by simp [statesOf]) rfl
        (combineInv_cbLen rfl hchecked' hloaded')
  · exact h.raiseFatal

/-! ### One transition -/

theorem inv_coreTransition {s : State} (hinv : Inv s) : Inv (coreTransition s) := by
  by_cases hidle : s.seq.st = .idle
  · simpa only [coreTransition, hidle] using hinv
  by_cases hhalt : s.seq.st = .halt
  · simpa only [coreTransition, hhalt] using hinv
  have h := inCommand_of_inv hinv hidle hhalt
  cases hst : s.seq.st with
  | idle => exact absurd hst hidle
  | halt => exact absurd hst hhalt
  | decode => simpa only [coreTransition, hst] using inv_leaveDecode h
  | field => simpa only [coreTransition, hst] using inv_leave h (fieldWork_writesResultOnly s)
  | gen => simpa only [coreTransition, hst] using inv_gen hinv h hst
  | eval => simpa only [coreTransition, hst] using inv_leave h (pevalBody_writesResultOnly s.opN s.opX s)
  | interp => simpa only [coreTransition, hst] using inv_leave h (linterpBody_writesResultOnly s.opN s.opX s)
  | spCheck => exact inv_spCheck hinv h hst
  | spClear => exact inv_spClear hinv h hst
  | spShuffle => exact inv_spShuffle hinv h hst
  | spCoef => exact inv_spCoef hinv h hst
  | spEval => exact inv_spEval hinv h hst
  | spTail => exact inv_spTail hinv h hst
  | cbCheck => exact inv_cbCheck hinv h hst
  | cbLoadX => exact inv_cbLoadX hinv h hst
  | cbLoadY => exact inv_cbLoadY hinv h hst
  | cbInterp => exact inv_cbInterp hinv h hst
  | cbLen =>
    have hlen : Inv ((setCombinedLen s).toFinish .ok) :=
      InCommand.toFinish (s := setCombinedLen s) ⟨h.cfg, h.running, h.memory⟩ .ok
    simpa only [coreTransition, hst] using hlen
  | finish => simpa only [coreTransition, hst] using h.raiseError s.seq.e

/-! ### The host and reset -/

/-- The invariant does not depend on what belongs to the host, and `DONE` may be cleared. -/
theorem inv_hostSide {s : State} (h : Inv s) {done : Bool} (hdone : done = true → s.done = true) (herr ie : Bool)
    (rdata : Word) (schedule : List Event) :
    Inv { s with done := done, herr := herr, ie := ie, rdata := rdata, schedule := schedule } where
  cfg := h.cfg
  status := ⟨h.status.idle_iff, h.status.halt_iff, h.status.fatal_idle, h.status.fcode_iff, fun hrun =>
    ⟨Bool.eq_false_iff.mpr fun hd => absurd (hdone hd) (Bool.eq_false_iff.mp (h.status.unreported hrun).1),
      (h.status.unreported hrun).2⟩⟩
  memory := h.memory
  word := h.word
  split := ⟨h.split.checked, h.split.cleared, h.split.shuffling, h.split.position, h.split.coefficient⟩
  combine := ⟨h.combine.checked, h.combine.loaded, h.combine.position, h.combine.points⟩

/-- In `IDLE` the data state may be written, the memory inside the buffers. -/
theorem inv_idle_write {s t : State} (h : Inv s) (hidle : s.seq.st = .idle) (hw : DataWrites s t)
    (hmem : CellsIn s.cfg.lmax t.mem) : Inv t := by
  rw [hw]
  exact inv_outside h.cfg ⟨h.status.idle_iff, h.status.halt_iff, h.status.fatal_idle, h.status.fcode_iff,
    h.status.unreported⟩ hmem (by simp [hidle])

theorem inv_accept {s : State} (h : Inv s) (hfatal : s.fatal = false) (w : Word) : Inv (s.accept w) := by
  have hfcode : s.fcode ≠ .divideByZero := fun hf => by simp [h.status.fcode_iff.mp hf] at hfatal
  exact inv_outside h.cfg (Running.statusInv (s := s.accept w) ⟨rfl, hfatal, hfcode, rfl, rfl⟩ (by simp [Seq.start])
    (by simp [Seq.start])) h.memory (by simp [Seq.start])

theorem inv_hostWrite {s : State} (h : Inv s) (ha d : Word) : Inv (s.hostWrite ha d) := by
  rcases s.hostWrite_cases ha d with ⟨_, hw⟩ | ⟨hserved, hw⟩ <;> rw [hw]
  · exact inv_hostSide h id true s.ie s.rdata s.schedule
  · obtain ⟨_, hguard⟩ := (s.writeRefused_eq_false ha).mp hserved
    have hidle (hg : (s.locOf ha).guarded = true) : s.seq.st = .idle := h.status.idle_iff.mpr (hguard hg)
    cases hloc : s.locOf ha with
    | cmd => exact inv_accept h (hguard (by rw [hloc]; rfl)).2 d
    | status => exact inv_hostSide h (fun hd => (Bool.and_eq_true_iff.mp hd).1) _ s.ie s.rdata s.schedule
    | ctrl => exact inv_hostSide h id s.herr _ s.rdata s.schedule
    | cap => exact h
    | result => exact h
    | unmapped => exact h
    | share j o =>
      obtain ⟨ho, hj⟩ := locOf_share hloc
      exact inv_idle_write h (hidle (by rw [hloc]; rfl)) rfl (CellsIn.storeShare h.memory hj ho _)
    | secret o =>
      exact inv_idle_write h (hidle (by rw [hloc]; rfl)) rfl (CellsIn.storeSecret h.memory (locOf_secret hloc) _)
    | len => exact inv_idle_write h (hidle (by rw [hloc]; rfl)) rfl h.memory
    | shlen j => exact inv_idle_write h (hidle (by rw [hloc]; rfl)) rfl h.memory
    | xc i => exact inv_idle_write h (hidle (by rw [hloc]; rfl)) rfl h.memory
    | coef c => exact inv_idle_write h (hidle (by rw [hloc]; rfl)) rfl h.memory
    | py i => exact inv_idle_write h (hidle (by rw [hloc]; rfl)) rfl h.memory

theorem inv_hostRead {s : State} (h : Inv s) (ha : Word) : Inv (s.hostRead ha) := by
  rcases s.hostRead_cases ha with ⟨_, hr⟩ | ⟨_, hr⟩ <;> rw [hr]
  · exact inv_hostSide h id true s.ie _ s.schedule
  · exact inv_hostSide h id s.herr s.ie _ s.schedule

/-- A state in `IDLE` with nothing reported and no cell written meets the invariant. -/
theorem inv_fresh {s : State} (hcfg : s.cfg.Legal) (hbusy : s.busy = false) (hfatal : s.fatal = false)
    (hfcode : s.fcode = .none) (hmem : s.mem = []) (hst : s.seq.st = .idle) : Inv s := by
  refine inv_outside hcfg ?_ ?_ (by simp [hst])
  · constructor <;> simp [hbusy, hfatal, hfcode, hst]
  · unfold MemoryInv
    rw [hmem]
    exact ⟨List.Pairwise.nil, by simp⟩

theorem inv_resetEvent {s : State} (h : Inv s) : Inv s.resetEvent := inv_fresh h.cfg rfl rfl rfl rfl rfl

theorem inv_serve {s : State} (h : Inv s) (e : Event) : Inv (s.serve e) := by
  cases e with
  | hostRead ha => exact inv_hostRead h ha
  | hostWrite ha d => exact inv_hostWrite h ha d
  | reset => exact inv_resetEvent h
  | coreMove => exact inv_coreTransition h

/-! ### The obligations -/

/-- Settles O44: the reset state is a fresh one. -/
theorem resetMeetsTheInvariant : Obligations.ResetMeetsTheInvariant := by
  unfold Obligations.ResetMeetsTheInvariant
  exact inv_fresh (by decide) rfl rfl rfl rfl rfl

/-- Settles O45, by what a step can be: an event served, a command run, an illegal word ended, or a transition. -/
theorem stepKeepsTheInvariant : Obligations.StepKeepsTheInvariant := by
  unfold Obligations.StepKeepsTheInvariant
  intro s t h hstep
  rcases step_cases s with ⟨e, rest, _, hs⟩ | ⟨_, ⟨i, hst, _, hs⟩ | ⟨_, hst, _, hs⟩ | ⟨_, hs⟩ | ⟨_, _, hs⟩⟩ <;>
    rw [hs] at hstep
  · cases hstep
    exact inv_serve (inv_hostSide h id s.herr s.ie s.rdata rest) e
  · exact inv_exec h (inCommand_of_inv h (by simp [hst]) (by simp [hst])) hstep
  · cases hstep
    exact (inCommand_of_inv h (by simp [hst]) (by simp [hst])).raiseError .illegalCommand
  · cases hstep
  · cases hstep
    exact inv_coreTransition h

end Sys2Proof.Proofs
end

section
/-! PROOF. O18: a draw that the entropy source has not answered makes the command wait (R66, R301). -/

namespace Sys2Proof.Machine

theorem drawCoef_unanswered (c : Nat) {s : State} (h : s.entropy = []) : drawCoef c s = (.waiting, s) := by
  rcases drawCoef_cases c s with ⟨_, hd⟩ | ⟨_, h', _⟩ | ⟨_, _, h', _⟩
  · exact hd
  · simp [h] at h'
  · simp [h] at h'

/-- `Generate` uses up the answers there are, and waits at the first draw beyond them. -/
theorem generate_unanswered {cnt : Nat} (c0 : Byte) {bytes : List Byte} {s : State} (hlen : bytes.length < cnt - 1)
    (h : s.entropy = bytes.map .ok) : (generate cnt c0 s).1 = .waiting := by
  obtain ⟨n, hn⟩ : ∃ n, cnt - 1 = bytes.length + (n + 1) := ⟨cnt - 1 - bytes.length - 1, by omega⟩
  have hanswered := drawCoefs_ok 1 bytes [] (s.setCoef 0 c0) (by simpa using h)
  unfold generate
  rw [hn, ← List.range'_append_1, forEach_append, Body.andThen_ok hanswered, List.range'_succ, forEach_cons,
    Body.andThen_stop (drawCoef_unanswered _ rfl) (by simp)]

/-- `DrawIndex` allows at least one draw, and waits at it. -/
theorem shuffleAt_unanswered (t : Nat) {s : State} (hlimit : 1 ≤ s.cfg.rejLimit) (h : s.entropy = []) :
    shuffleAt t s = (.waiting, s) := by
  obtain ⟨n, hn⟩ := Nat.exists_eq_add_of_le' hlimit
  unfold shuffleAt
  rw [hn, drawIndex, State.rngDraw, h]

/-- The first draw of `SPLIT` is the first of the shuffle. -/
theorem splitBody_unanswered {n k : BitVec 12} {s : State} (hchecks : splitError n k s = none)
    (hlimit : 1 ≤ s.cfg.rejLimit) (h : s.entropy = []) : (splitBody n k s).1 = .waiting := by
  have hfirst := shuffleAt_unanswered 254 (s := identityXc (clearShlen s)) (by rw [identityXc_cfg]; exact hlimit)
    (by rw [identityXc_entropy]; exact h)
  have hshuffle : shuffle (identityXc (clearShlen s)) = (.waiting, identityXc (clearShlen s)) :=
    Body.andThen_stop hfirst (by simp)
  rw [splitBody_go hchecks, Body.andThen_stop hshuffle (by simp)]

end Sys2Proof.Machine

namespace Sys2Proof.Proofs

open Sys2Proof.Machine Sys2Proof.Safety

/-- Settles O18: the pseudocode waits at the first unanswered draw, and a waiting command answers the same state. -/
theorem unansweredDrawWaits : Obligations.UnansweredDrawWaits := by
  unfold Obligations.UnansweredDrawWaits
  refine ⟨fun cnt c0 s bytes hcnt hlen h => ?_, fun n k s hlegal hargs h => ?_⟩
  · have hbody : (pgenBody cnt c0 s).1 = .waiting := by
      rw [pgenBody, withCount_legal ((countLegal_iff cnt).mpr ⟨by omega, hcnt⟩)]
      exact generate_unanswered c0 hlen h
    exact runCommand_waiting (Prod.ext hbody rfl)
  · obtain ⟨_, _, _, hlimit, _⟩ := hlegal
    exact runCommand_waiting
      (Prod.ext (splitBody_unanswered ((splitError_eq_none n k s).mpr hargs) hlimit h) rfl)

end Sys2Proof.Proofs
end

section
/-! PROOF. O48: what a host read gives (R62). -/

namespace Sys2Proof.Machine

/-! ### A read, by the location it names -/

/-- The unguarded locations of the map are `STATUS`, `CTRL` and `CAP` (R62). -/
theorem locOf_unguarded_read {lmax : Nat} {ha : Word} (hr : (locOf lmax ha).readable = true)
    (hg : (locOf lmax ha).guarded = false) : ha.toNat ∈ [0x1, 0x2, 0x3] := by
  unfold locOf at hr hg
  split_ifs at hr hg
  · unfold registerLoc at hr hg
    split at hr <;> simp_all [Loc.readable, Loc.guarded]
  · unfold arrayLoc at hr hg
    split at hr <;> simp_all [Loc.readable, Loc.guarded]
  · unfold bufferLoc at hr hg
    split_ifs at hr hg <;> simp [Loc.readable, Loc.guarded] at hr hg

theorem State.locOf_register {s : State} {ha : Word} {a : Nat} (hlow : a < 0x100) (h : ha.toNat = a) :
    s.locOf ha = registerLoc a :=
  h ▸ Machine.locOf_register (h ▸ hlow)

/-- A host read is served exactly when its location can be read and, if guarded, the guard is open (R64, R65). -/
theorem State.readRefused_eq_false (s : State) (ha : Word) :
    s.readRefused ha = false ↔
      (s.locOf ha).readable = true ∧ ((s.locOf ha).guarded = true → s.busy = false ∧ s.fatal = false) := by
  unfold State.readRefused State.guardClosed
  cases (s.locOf ha).readable <;> cases (s.locOf ha).guarded <;> simp

theorem State.hostRead_refused {s : State} {ha : Word} (h : s.readRefused ha = true) :
    s.hostRead ha = { s with herr := true, rdata := 0 } :=
  if_pos h

/-- A read of `CMD` or an unmapped address is refused in every state (R65). -/
theorem State.hostRead_unreadable {s : State} {ha : Word} {l : Loc} (hloc : s.locOf ha = l)
    (hl : l.readable = false) : s.hostRead ha = { s with herr := true, rdata := 0 } :=
  State.hostRead_refused (by simp [State.readRefused, hloc, hl])

/-- A served read gives the value of its location. -/
theorem State.hostRead_served {s : State} {ha : Word} {l : Loc} (hloc : s.locOf ha = l) (hl : l.readable = true)
    (hguard : l.guarded = true → s.busy = false ∧ s.fatal = false) :
    s.hostRead ha = { s with rdata := s.readLoc l } := by
  subst hloc
  exact if_neg (by simp [(s.readRefused_eq_false ha).mpr ⟨hl, hguard⟩])

/-- `STATUS`, `CTRL` and `CAP` are served in every state (R64). -/
theorem State.hostRead_unguarded {s : State} {ha : Word} {a : Nat} (hreg : a ∈ [0x1, 0x2, 0x3]) (h : ha.toNat = a) :
    s.hostRead ha = { s with rdata := s.readLoc (registerLoc a) } := by
  simp only [List.mem_cons, List.not_mem_nil, or_false] at hreg
  refine State.hostRead_served (State.locOf_register (by omega) h) ?_ ?_ <;>
    rcases hreg with rfl | rfl | rfl <;> simp [registerLoc, Loc.readable, Loc.guarded]

/-- While a command runs or the block is halted every other read is refused (R64). -/
theorem State.hostRead_closed {s : State} {ha : Word} (hclosed : s.busy = true ∨ s.fatal = true)
    (hreg : ha.toNat ∉ [0x1, 0x2, 0x3]) : s.hostRead ha = { s with herr := true, rdata := 0 } := by
  cases hr : s.readRefused ha with
  | true => exact State.hostRead_refused hr
  | false =>
    obtain ⟨hl, hguard⟩ := (s.readRefused_eq_false ha).mp hr
    cases hg : (s.locOf ha).guarded with
    | true => simp [hguard hg] at hclosed
    | false => exact absurd (locOf_unguarded_read hl hg) hreg

@[simp] theorem State.readLoc_schedule (s : State) (schedule : List Event) (l : Loc) :
    { s with schedule := schedule }.readLoc l = s.readLoc l := by
  cases l <;> rfl

end Sys2Proof.Machine

namespace Sys2Proof.Proofs

open Sys2Proof.Machine Sys2Proof.Safety

/-- Settles O48, row by row of the map: each row by the location its addresses name, and whether the guard lets it. -/
theorem hostReadFollowsTheMap : Obligations.HostReadFollowsTheMap := by
  unfold Obligations.HostReadFollowsTheMap
  intro s ha rest _ h
  obtain ⟨u, hu⟩ : ∃ u : State, u = { s with schedule := rest } := ⟨_, rfl⟩
  obtain ⟨t, ht⟩ : ∃ t, t = u.hostRead ha := ⟨_, rfl⟩
  refine ⟨t, by rw [step_event h, ht, hu]; rfl, ?_, ?_⟩
  · rcases u.hostRead_cases ha with ⟨_, hr⟩ | ⟨_, hr⟩ <;> rw [ht, hr, hu]
  intro served refused
  have refusal (hr : u.hostRead ha = { u with herr := true, rdata := 0 }) : refused := by
    show t.rdata = 0 ∧ t.herr = true
    rw [ht, hr]
    exact ⟨rfl, rfl⟩
  have value (l : Loc) (hr : u.hostRead ha = { u with rdata := u.readLoc l }) : served (s.readLoc l) := by
    show t.rdata = s.readLoc l ∧ t.herr = s.herr
    rw [ht, hr, hu, State.readLoc_schedule]
    exact ⟨rfl, rfl⟩
  have unmapped (hloc : u.locOf ha = .unmapped) : refused := refusal (State.hostRead_unreadable hloc rfl)
  refine ⟨fun h0 => refusal (State.hostRead_unreadable (State.locOf_register (by omega) h0) rfl),
    fun h1 => value .status (State.hostRead_unguarded (by simp) h1),
    fun h2 => value .ctrl (State.hostRead_unguarded (by simp) h2),
    fun h3 => value .cap (State.hostRead_unguarded (by simp) h3),
    fun hclosed h1 h2 h3 => refusal (State.hostRead_closed (by rw [hu]; exact hclosed) (by simp [h1, h2, h3])),
    fun hbusy hfatal => ?_⟩
  have opened (l : Loc) (hloc : u.locOf ha = l) (hl : l.readable = true) : served (s.readLoc l) :=
    value l (State.hostRead_served hloc hl fun _ => by rw [hu]; exact ⟨hbusy, hfatal⟩)
  have index {j : Nat} (hj : j < 256) : (BitVec.ofNat 8 j).toNat = j := Nat.mod_eq_of_lt hj
  have offset {o : Nat} (ho : o < 0x10000) : (BitVec.ofNat 16 o).toNat = o := Nat.mod_eq_of_lt ho
  have hlmax : u.cfg.lmax = s.cfg.lmax := by rw [hu]
  refine ⟨fun h4 => opened .result (State.locOf_register (by omega) h4) rfl,
    fun h5 => opened .len (State.locOf_register (by omega) h5) rfl,
    fun hlow hhigh => unmapped ((State.locOf_register (by omega) rfl).trans (registerLoc_unmapped hlow)),
    fun j hj ha' => ?shlen, fun i hi ha' => ?xc, fun c hc ha' => ?coef, fun i hi ha' => ?py,
    fun hlow hhigh => unmapped (locOf_unmapped (.inl ⟨hlow, hhigh⟩)),
    fun j o hj ho ha' => ⟨fun hle => ?share, fun hlt => ?noShare⟩,
    fun o ho ha' => ⟨fun hlt => ?secret, fun hle => ?noSecret⟩,
    fun hlow => unmapped (locOf_unmapped (.inr hlow))⟩
  case shlen =>
    rw [← index hj]
    exact opened (.shlen _) (locOf_array (page := 1) (by omega) hj ha') rfl
  case xc =>
    rw [← index hi]
    exact opened (.xc _) (locOf_array (page := 2) (by omega) hi ha') rfl
  case coef =>
    rw [← index hc]
    exact opened (.coef _) (locOf_array (page := 3) (by omega) hc ha') rfl
  case py =>
    rw [← index hi]
    exact opened (.py _) (locOf_array (page := 4) (by omega) hi ha') rfl
  case share =>
    rw [← index hj, ← offset ho]
    exact opened (.share _ _) ((locOf_share_eq hj ho ha').trans (if_pos (hlmax ▸ hle))) rfl
  case secret =>
    rw [← offset ho]
    exact opened (.secret _) ((locOf_secret_eq ho ha').trans (if_pos (hlmax ▸ hlt))) rfl
  case noShare => exact unmapped ((locOf_share_eq hj ho ha').trans (if_neg (hlmax ▸ Nat.not_le.mpr hlt)))
  case noSecret => exact unmapped ((locOf_secret_eq ho ha').trans (if_neg (hlmax ▸ Nat.not_lt.mpr hle)))

end Sys2Proof.Proofs
end

section
/-! PROOF. O50: what a closed guard lets through (R64). -/

namespace Sys2Proof.Machine

open Sys2Proof.Safety

/-! ### Writes of the always-writable registers -/

theorem State.hostWrite_status {s : State} {ha : Word} (d : Word) (h : ha.toNat = 0x1) :
    s.hostWrite ha d = s.writeStatus d :=
  State.hostWrite_served (l := .status) d (State.locOf_register (by omega) h) rfl (by simp [Loc.guarded])

theorem State.hostWrite_ctrl {s : State} {ha : Word} (d : Word) (h : ha.toNat = 0x2) :
    s.hostWrite ha d = s.writeCtrl d :=
  State.hostWrite_served (l := .ctrl) d (State.locOf_register (by omega) h) rfl (by simp [Loc.guarded])

/-- With the guard closed a host write is one of `STATUS`, one of `CTRL`, or refused; which, the address says. -/
theorem State.hostWrite_closed_eq {s : State} (hclosed : s.busy = true ∨ s.fatal = true) (ha d : Word) :
    s.hostWrite ha d =
      if ha.toNat = 0x1 then s.writeStatus d else if ha.toNat = 0x2 then s.writeCtrl d else { s with herr := true } := by
  split_ifs with h1 h2
  · exact State.hostWrite_status d h1
  · exact State.hostWrite_ctrl d h2
  · exact State.hostWrite_closed d hclosed h1 h2

/-- With the guard closed a host read is one of `STATUS`, `CTRL` or `CAP`, or refused; which, the address says. -/
theorem State.hostRead_closed_eq {s : State} (hclosed : s.busy = true ∨ s.fatal = true) (ha : Word) :
    s.hostRead ha =
      if ha.toNat ∈ [0x1, 0x2, 0x3] then { s with rdata := s.readLoc (registerLoc ha.toNat) }
      else { s with herr := true, rdata := 0 } := by
  split_ifs with h
  · exact State.hostRead_unguarded h rfl
  · exact State.hostRead_closed hclosed h

/-! ### The host side -/

/-- `b` is `a` but for the host side of the port: `HERR`, `DONE`, `IE` and the last data word. -/
def HostSideWrites (a b : State) : Prop := b = { a with herr := b.herr, done := b.done, ie := b.ie, rdata := b.rdata }

theorem hostRead_hostSideWrites (s : State) (ha : Word) : HostSideWrites s (s.hostRead ha) := by
  rcases s.hostRead_cases ha with ⟨_, hr⟩ | ⟨_, hr⟩ <;> rw [hr] <;> rfl

theorem hostWrite_hostSideWrites {s : State} (hclosed : s.busy = true ∨ s.fatal = true) (ha d : Word) :
    HostSideWrites s (s.hostWrite ha d) := by
  rw [State.hostWrite_closed_eq hclosed]
  split_ifs <;> rfl

/-- With the guard closed a host access changes no guarded location. -/
theorem serve_hostSideWrites {s : State} (hclosed : s.busy = true ∨ s.fatal = true) {e : Event} (he : IsHostAccess e) :
    HostSideWrites s (s.serve e) := by
  rcases he with ⟨ha, rfl⟩ | ⟨ha, d, rfl⟩
  · exact hostRead_hostSideWrites s ha
  · exact hostWrite_hostSideWrites hclosed ha d

end Sys2Proof.Machine

namespace Sys2Proof.Safety

open Sys2Proof.Machine

/-! ### Two states that agree outside -/

section

variable {s t : State} (h : SameOutside s t)

include h

theorem SameOutside.closed (hclosed : s.busy = true ∨ s.fatal = true) : t.busy = true ∨ t.fatal = true := by
  obtain ⟨_, hbusy, _, hfatal, _⟩ := h
  rwa [← hbusy, ← hfatal]

theorem SameOutside.statusWord : s.statusWord = t.statusWord := by
  obtain ⟨_, hbusy, hdone, hfatal, hherr, hecode, hfcode, _⟩ := h
  unfold State.statusWord
  rw [hbusy, hdone, hfatal, hherr, hecode, hfcode]

theorem SameOutside.ctrlWord : s.ctrlWord = t.ctrlWord := by
  obtain ⟨_, _, _, _, _, _, _, hie, _⟩ := h
  unfold State.ctrlWord
  rw [hie]

theorem SameOutside.capWord : s.capWord = t.capWord := by
  obtain ⟨hcfg, _⟩ := h
  unfold State.capWord
  rw [hcfg]

theorem SameOutside.readLoc_register {a : Nat} (hreg : a ∈ [0x1, 0x2, 0x3]) :
    s.readLoc (registerLoc a) = t.readLoc (registerLoc a) := by
  simp only [List.mem_cons, List.not_mem_nil, or_false] at hreg
  rcases hreg with rfl | rfl | rfl
  · exact h.statusWord
  · exact h.ctrlWord
  · exact h.capWord

theorem SameOutside.hostRead (hclosed : s.busy = true ∨ s.fatal = true) (ha : Word) :
    SameOutside (s.hostRead ha) (t.hostRead ha) := by
  have hread (hreg : ha.toNat ∈ [0x1, 0x2, 0x3]) := h.readLoc_register hreg
  rw [State.hostRead_closed_eq hclosed, State.hostRead_closed_eq (h.closed hclosed)]
  obtain ⟨hcfg, hbusy, hdone, hfatal, hherr, hecode, hfcode, hie, _⟩ := h
  split_ifs with hreg
  · exact ⟨hcfg, hbusy, hdone, hfatal, hherr, hecode, hfcode, hie, hread hreg⟩
  · exact ⟨hcfg, hbusy, hdone, hfatal, rfl, hecode, hfcode, hie, rfl⟩

theorem SameOutside.hostWrite (hclosed : s.busy = true ∨ s.fatal = true) (ha d : Word) :
    SameOutside (s.hostWrite ha d) (t.hostWrite ha d) := by
  rw [State.hostWrite_closed_eq hclosed, State.hostWrite_closed_eq (h.closed hclosed)]
  obtain ⟨hcfg, hbusy, hdone, hfatal, hherr, hecode, hfcode, hie, hrdata⟩ := h
  split_ifs
  · exact ⟨hcfg, hbusy, congrArg (· && _) hdone, hfatal, congrArg (· && _) hherr, hecode, hfcode, hie, hrdata⟩
  · exact ⟨hcfg, hbusy, hdone, hfatal, hherr, hecode, hfcode, rfl, hrdata⟩
  · exact ⟨hcfg, hbusy, hdone, hfatal, rfl, hecode, hfcode, hie, hrdata⟩

/-- With the guard closed a host access keeps two states alike outside. -/
theorem SameOutside.serve (hclosed : s.busy = true ∨ s.fatal = true) {e : Event} (he : IsHostAccess e) :
    SameOutside (s.serve e) (t.serve e) := by
  rcases he with ⟨ha, rfl⟩ | ⟨ha, d, rfl⟩
  · exact h.hostRead hclosed ha
  · exact h.hostWrite hclosed ha d

end

end Sys2Proof.Safety

namespace Sys2Proof.Proofs

open Sys2Proof.Machine Sys2Proof.Safety

/-- Settles O50: the schedule put aside, one host access keeps the two states alike and writes the host side alone. -/
theorem closedGuardHidesTheDataState : Obligations.ClosedGuardHidesTheDataState := by
  unfold Obligations.ClosedGuardHidesTheDataState
  intro s t e rest rest' h hclosed he hs ht
  have hsame : SameOutside { s with schedule := rest } { t with schedule := rest' } := h
  have hclosed' := h.closed hclosed
  exact ⟨_, _, step_event hs, step_event ht, hsame.serve hclosed he,
    serve_hostSideWrites (s := { s with schedule := rest }) hclosed he,
    serve_hostSideWrites (s := { t with schedule := rest' }) hclosed' he⟩

end Sys2Proof.Proofs
end

section
/-! PROOF. O4 and O5: decoding and encoding are inverse to each other (R91, R92, R93, R95, R97). -/

namespace Sys2Proof

open Laws

/-! ### The fields of an encoded word

A word of format S or V is four fields side by side, one of format O three; a field is read by dropping the fields
below it. -/

@[simp] theorem fieldA_encodeS (op a b : Byte) : fieldA (encodeS op a b) = a := by
  rw [fieldA, encodeS, BitVec.extractLsb'_append_eq_of_le (by omega), BitVec.extractLsb'_append_eq_of_le (by omega)]
  exact BitVec.extractLsb'_append_eq_right

@[simp] theorem fieldB_encodeS (op a b : Byte) : fieldB (encodeS op a b) = b := by
  rw [fieldB, encodeS, BitVec.extractLsb'_append_eq_of_le (by omega)]
  exact BitVec.extractLsb'_append_eq_right

@[simp] theorem fieldZeroS_encodeS (op a b : Byte) : fieldZeroS (encodeS op a b) = 0#8 :=
  BitVec.extractLsb'_append_eq_right

@[simp] theorem fieldN_encodeV (op : Byte) (cnt : BitVec 12) (x : Byte) : fieldN (encodeV op cnt x) = cnt := by
  rw [fieldN, encodeV, BitVec.extractLsb'_append_eq_of_le (by omega), BitVec.extractLsb'_append_eq_of_le (by omega)]
  exact BitVec.extractLsb'_append_eq_right

@[simp] theorem fieldZeroV_encodeV (op : Byte) (cnt : BitVec 12) (x : Byte) : fieldZeroV (encodeV op cnt x) = 0#4 := by
  rw [fieldZeroV, encodeV, BitVec.extractLsb'_append_eq_of_le (by omega)]
  exact BitVec.extractLsb'_append_eq_right

@[simp] theorem fieldX_encodeV (op : Byte) (cnt : BitVec 12) (x : Byte) : fieldX (encodeV op cnt x) = x :=
  BitVec.extractLsb'_append_eq_right

@[simp] theorem fieldN_encodeO (op : Byte) (n k : BitVec 12) : fieldN (encodeO op n k) = n := by
  rw [fieldN, encodeO, BitVec.extractLsb'_append_eq_of_le (by omega)]
  exact BitVec.extractLsb'_append_eq_right

@[simp] theorem fieldK_encodeO (op : Byte) (n k : BitVec 12) : fieldK (encodeO op n k) = k :=
  BitVec.extractLsb'_append_eq_right

/-! ### A word is put together from its fields -/

/-- The 16-bit `zero` field of `GFINV` is the operand `b` of format S beside its `zero` field. -/
theorem fieldZeroInv_eq_append (w : Word) : fieldZeroInv w = fieldB w ++ fieldZeroS w :=
  (BitVec.extractLsb'_append_extractLsb'_eq_extractLsb' (start₁ := 0) (len₁ := 8) (start₂ := 8) rfl).symm

@[simp] theorem fieldZeroInv_encodeS_zero (op a : Byte) : fieldZeroInv (encodeS op a 0#8) = 0#16 := by
  rw [fieldZeroInv_eq_append, fieldB_encodeS, fieldZeroS_encodeS]
  rfl

/-- The `zero` field of `COMBINE` is where `SPLIT` has its operand `k`. -/
theorem fieldZeroO_eq_fieldK (w : Word) : fieldZeroO w = fieldK w := rfl

theorem encodeS_of_fields {op : Byte} {w : Word} (hop : fieldOp w = op) (hzero : fieldZeroS w = 0#8) :
    encodeS op (fieldA w) (fieldB w) = w := by
  rw [encodeS, ← hop, ← hzero]
  simp only [fieldOp, fieldA, fieldB, fieldZeroS, BitVec.extractLsb'_append_extractLsb'_eq_extractLsb']
  exact BitVec.extractLsb'_eq_self

theorem encodeInv_of_fields {op : Byte} {w : Word} (hop : fieldOp w = op) (hzero : fieldZeroInv w = 0#16) :
    encodeS op (fieldA w) 0 = w := by
  have hparts : fieldB w ++ fieldZeroS w = 0#8 ++ 0#8 := (fieldZeroInv_eq_append w).symm.trans hzero
  have hb : fieldB w = 0#8 := by
    simpa only [BitVec.extractLsb'_append_eq_left] using congrArg (BitVec.extractLsb' 8 8) hparts
  have hz : fieldZeroS w = 0#8 := by
    simpa only [BitVec.extractLsb'_append_eq_right] using congrArg (BitVec.extractLsb' 0 8) hparts
  exact (congrArg _ hb.symm).trans (encodeS_of_fields hop hz)

theorem encodeV_of_fields {op : Byte} {w : Word} (hop : fieldOp w = op) (hzero : fieldZeroV w = 0#4) :
    encodeV op (fieldN w) (fieldX w) = w := by
  rw [encodeV, ← hop, ← hzero]
  simp only [fieldOp, fieldN, fieldZeroV, fieldX, BitVec.extractLsb'_append_extractLsb'_eq_extractLsb']
  exact BitVec.extractLsb'_eq_self

theorem encodeO_of_fields {op : Byte} {w : Word} (hop : fieldOp w = op) : encodeO op (fieldN w) (fieldK w) = w := by
  rw [encodeO, ← hop]
  simp only [fieldOp, fieldN, fieldK, BitVec.extractLsb'_append_extractLsb'_eq_extractLsb']
  exact BitVec.extractLsb'_eq_self

/-! ### The checks of R92 -/

theorem decodeZero_eq_ok {zeroFieldIsZero : Bool} {i j : Instr} :
    decodeZero zeroFieldIsZero j = .ok i ↔ zeroFieldIsZero = true ∧ j = i := by
  cases zeroFieldIsZero <;> simp [decodeZero]

/-- The count test of the decoder (R92) is the count constraint of the table's rows (R95). -/
theorem countLegal_eq_cntInRange (cnt : BitVec 12) : countLegal cnt = Instr.cntInRange cnt := by
  rw [Bool.eq_iff_iff, Machine.countLegal_iff]
  simp [Instr.cntInRange]

theorem decodeV_eq_ok {w : Word} {i j : Instr} :
    decodeV w j = .ok i ↔ fieldZeroV w = 0 ∧ Instr.cntInRange (fieldN w) = true ∧ j = i := by
  rw [decodeV, countLegal_eq_cntInRange]
  split_ifs with hzero hcount <;> simp_all

theorem decodeV_encodeV {op : Byte} {cnt : BitVec 12} {x : Byte} {i : Instr} (hcount : Instr.cntInRange cnt = true) :
    decodeV (encodeV op cnt x) i = .ok i :=
  decodeV_eq_ok.mpr ⟨fieldZeroV_encodeV .., by rwa [fieldN_encodeV], rfl⟩

/-! ### Decoding and encoding -/

theorem decode_encode {i : Instr} (h : i.wf = true) : decode (encode i) = .ok i := by
  cases i with
  | gfadd a b => simp [decode, encode, fieldOp_encodeS, decodeZero]
  | gfmul a b => simp [decode, encode, fieldOp_encodeS, decodeZero]
  | gfinv a => simp [decode, encode, fieldOp_encodeS, decodeZero]
  | gfdiv a b => simp [decode, encode, fieldOp_encodeS, decodeZero]
  | pgen cnt c0 => simp [decode, encode, fieldOp_encodeV, decodeV_encodeV (cnt := cnt) h]
  | peval cnt x => simp [decode, encode, fieldOp_encodeV, decodeV_encodeV (cnt := cnt) h]
  | linterp cnt x => simp [decode, encode, fieldOp_encodeV, decodeV_encodeV (cnt := cnt) h]
  | split n k => simp [decode, encode, fieldOp_encodeO]
  | combine m => simp [decode, encode, fieldOp_encodeO, decodeZero, fieldZeroO_eq_fieldK]

/-- A word that passes the check of its `zero` field means what its fields say. -/
theorem encode_of_decodeZero {w : Word} {zeroFieldIsZero : Bool} {i j : Instr} (h : decodeZero zeroFieldIsZero j = .ok i)
    (hfields : zeroFieldIsZero = true → j.wf = true ∧ encode j = w) : i.wf = true ∧ encode i = w := by
  obtain ⟨hzero, rfl⟩ := decodeZero_eq_ok.mp h
  exact hfields hzero

/-- A word that passes the checks of format V means what its fields say. -/
theorem encode_of_decodeV {w : Word} {op : Byte} {i j : Instr} (h : decodeV w j = .ok i) (hop : fieldOp w = op)
    (hwf : j.wf = Instr.cntInRange (fieldN w)) (hencode : encode j = encodeV op (fieldN w) (fieldX w)) :
    i.wf = true ∧ encode i = w := by
  obtain ⟨hzero, hcount, rfl⟩ := decodeV_eq_ok.mp h
  exact ⟨hwf.trans hcount, hencode.trans (encodeV_of_fields hop hzero)⟩

theorem encode_of_decode {w : Word} {i : Instr} (h : decode w = .ok i) : i.wf = true ∧ encode i = w := by
  unfold decode at h
  split_ifs at h with gfadd gfmul gfinv gfdiv pgen peval linterp split combine
  · exact encode_of_decodeZero h fun hz => ⟨rfl, encodeS_of_fields gfadd (eq_of_beq hz)⟩
  · exact encode_of_decodeZero h fun hz => ⟨rfl, encodeS_of_fields gfmul (eq_of_beq hz)⟩
  · exact encode_of_decodeZero h fun hz => ⟨rfl, encodeInv_of_fields gfinv (eq_of_beq hz)⟩
  · exact encode_of_decodeZero h fun hz => ⟨rfl, encodeS_of_fields gfdiv (eq_of_beq hz)⟩
  · exact encode_of_decodeV h pgen rfl rfl
  · exact encode_of_decodeV h peval rfl rfl
  · exact encode_of_decodeV h linterp rfl rfl
  · obtain rfl := Decoded.ok.inj h
    exact ⟨rfl, encodeO_of_fields split⟩
  · refine encode_of_decodeZero h fun hz => ⟨rfl, ?_⟩
    have hk : fieldK w = 0 := eq_of_beq hz
    exact (congrArg _ hk.symm).trans (encodeO_of_fields combine)

/-- The words that decode are the encodings of the well-formed commands, each of its own command. -/
theorem decode_eq_ok_iff {w : Word} {i : Instr} : decode w = .ok i ↔ i.wf = true ∧ encode i = w :=
  ⟨encode_of_decode, fun ⟨hwf, hw⟩ => hw ▸ decode_encode hwf⟩

end Sys2Proof

namespace Sys2Proof.Proofs

/-- Settles O4, command by command: the fields of an encoded word are the operands it was made of. -/
theorem decodeOfEncodeIsTheCommand : Obligations.DecodeOfEncodeIsTheCommand := by
  unfold Obligations.DecodeOfEncodeIsTheCommand
  exact fun _ hwf => decode_encode hwf

/-- Settles O5, opcode by opcode: a word whose `zero` field is zero is put together from its other fields. -/
theorem encodeOfDecodeIsTheWord : Obligations.EncodeOfDecodeIsTheWord := by
  unfold Obligations.EncodeOfDecodeIsTheWord
  exact fun _ _ h => encode_of_decode h

end Sys2Proof.Proofs
end

section
/-! PROOF. O1, O54 and O2: the words that match a row of the opcode table, and what the core does with a latched word (R92,
R95, R221). -/

namespace Sys2Proof.Machine

open Sys2Proof.Safety

/-! ### A latched word -/

theorem step_decoded {s : State} {i : Instr} (h : s.schedule = []) (hst : s.seq.st = .decode)
    (hi : decode s.cmdl = .ok i) : step s = exec i s := by
  rw [step_core h]
  simp only [coreStep, hst, hi]

theorem step_illegal {s : State} {why : IllegalWord} (h : s.schedule = []) (hst : s.seq.st = .decode)
    (hwhy : decode s.cmdl = .illegal why) : step s = .next (s.raiseError .illegalCommand) := by
  rw [step_core h]
  simp only [coreStep, hst, hwhy]

theorem coreTransition_illegal {s : State} {why : IllegalWord} (hst : s.seq.st = .decode)
    (hwhy : decode s.cmdl = .illegal why) : coreTransition s = s.toFinish .illegalCommand := by
  simp only [coreTransition, hst, leaveDecode, hwhy]

/-- Two transitions, through `END`, end an illegal word as one step does. -/
theorem transitions_illegal {s : State} {why : IllegalWord} (hst : s.seq.st = .decode)
    (hwhy : decode s.cmdl = .illegal why) : transitions 2 s = s.raiseError .illegalCommand := by
  rw [transitions, coreTransition_illegal hst hwhy]
  rfl

theorem raiseError_endsAs (s : State) (e : ECode) : EndsAs (.next (s.raiseError e)) s e := ⟨_, rfl, rfl, rfl⟩

end Sys2Proof.Machine

namespace Sys2Proof.Safety

/-! ### The rows of the opcode table

A row's mask and pattern pick out the words of its format that carry its opcode and have their `zero` field zero. -/

/-- A field that the mask covers is the pattern's. -/
theorem field_of_masked {w mask pattern : Word} (h : w &&& mask = pattern) {start len : Nat}
    (hmask : mask.extractLsb' start len = BitVec.allOnes len) : w.extractLsb' start len = pattern.extractLsb' start len := by
  rw [← h, BitVec.extractLsb'_and, hmask, BitVec.and_allOnes]

theorem masked_iff_encodeS (op : Byte) (w : Word) :
    w &&& 0xFF0000FF = encodeS op 0 0 ↔ ∃ a b, encodeS op a b = w := by
  constructor
  · intro h
    have hop : fieldOp w = op := (field_of_masked h (by decide)).trans (Laws.fieldOp_encodeS op 0 0)
    have hzero : fieldZeroS w = 0 := (field_of_masked h (by decide)).trans (fieldZeroS_encodeS op 0 0)
    exact ⟨_, _, encodeS_of_fields hop hzero⟩
  · rintro ⟨a, b, rfl⟩
    show op ++ a ++ b ++ 0#8 &&& BitVec.allOnes 8 ++ 0#8 ++ 0#8 ++ BitVec.allOnes 8 = op ++ 0#8 ++ 0#8 ++ 0#8
    simp only [BitVec.and_append, BitVec.and_zero, BitVec.and_allOnes]

theorem masked_iff_encodeInv (op : Byte) (w : Word) :
    w &&& 0xFF00FFFF = encodeS op 0 0 ↔ ∃ a, encodeS op a 0 = w := by
  constructor
  · intro h
    have hop : fieldOp w = op := (field_of_masked h (by decide)).trans (Laws.fieldOp_encodeS op 0 0)
    have hzero : fieldZeroInv w = 0 := (field_of_masked h (by decide)).trans (fieldZeroInv_encodeS_zero op 0)
    exact ⟨_, encodeInv_of_fields hop hzero⟩
  · rintro ⟨a, rfl⟩
    show op ++ a ++ 0#8 ++ 0#8 &&& BitVec.allOnes 8 ++ 0#8 ++ BitVec.allOnes 8 ++ BitVec.allOnes 8 = op ++ 0#8 ++ 0#8 ++ 0#8
    simp only [BitVec.and_append, BitVec.and_zero, BitVec.and_allOnes]

theorem masked_iff_encodeV (op : Byte) (w : Word) :
    w &&& 0xFF000F00 = encodeV op 0 0 ↔ ∃ cnt x, encodeV op cnt x = w := by
  constructor
  · intro h
    have hop : fieldOp w = op := (field_of_masked h (by decide)).trans (Laws.fieldOp_encodeV op 0 0)
    have hzero : fieldZeroV w = 0 := (field_of_masked h (by decide)).trans (fieldZeroV_encodeV op 0 0)
    exact ⟨_, _, encodeV_of_fields hop hzero⟩
  · rintro ⟨cnt, x, rfl⟩
    show op ++ cnt ++ 0#4 ++ x &&& BitVec.allOnes 8 ++ 0#12 ++ BitVec.allOnes 4 ++ 0#8 = op ++ 0#12 ++ 0#4 ++ 0#8
    simp only [BitVec.and_append, BitVec.and_zero, BitVec.and_allOnes]

theorem masked_iff_encodeO (op : Byte) (w : Word) :
    w &&& 0xFF000000 = encodeO op 0 0 ↔ ∃ n k, encodeO op n k = w := by
  constructor
  · intro h
    have hop : fieldOp w = op := (field_of_masked h (by decide)).trans (Laws.fieldOp_encodeO op 0 0)
    exact ⟨_, _, encodeO_of_fields hop⟩
  · rintro ⟨n, k, rfl⟩
    show op ++ n ++ k &&& BitVec.allOnes 8 ++ 0#12 ++ 0#12 = op ++ 0#12 ++ 0#12
    simp only [BitVec.and_append, BitVec.and_zero, BitVec.and_allOnes]

theorem masked_iff_encodeO_zero (op : Byte) (w : Word) :
    w &&& 0xFF000FFF = encodeO op 0 0 ↔ ∃ n, encodeO op n 0 = w := by
  constructor
  · intro h
    have hop : fieldOp w = op := (field_of_masked h (by decide)).trans (Laws.fieldOp_encodeO op 0 0)
    have hzero : fieldK w = 0 := (field_of_masked h (by decide)).trans (fieldK_encodeO op 0 0)
    exact ⟨_, hzero ▸ encodeO_of_fields hop⟩
  · rintro ⟨n, rfl⟩
    show op ++ n ++ 0#12 &&& BitVec.allOnes 8 ++ 0#12 ++ BitVec.allOnes 12 = op ++ 0#12 ++ 0#12
    simp only [BitVec.and_append, BitVec.and_zero, BitVec.and_allOnes]

/-- A counted row picks out the words of format V whose count is in range. -/
theorem matchesWord_counted_iff (op : Byte) (w : Word) :
    (Row.mk (encodeV op 0 0) 0xFF000F00 true).matchesWord w = true ↔
      ∃ cnt x, Instr.cntInRange cnt = true ∧ encodeV op cnt x = w := by
  have hcount : (Row.mk (encodeV op 0 0) 0xFF000F00 true).matchesWord w = true ↔
      (∃ cnt x, encodeV op cnt x = w) ∧ Instr.cntInRange (fieldN w) = true := by
    rw [← masked_iff_encodeV, ← beq_iff_eq (a := w &&& _)]
    exact Bool.and_eq_true_iff
  rw [hcount]
  constructor
  · rintro ⟨⟨cnt, x, rfl⟩, hcnt⟩
    exact ⟨cnt, x, fieldN_encodeV op cnt x ▸ hcnt, rfl⟩
  · rintro ⟨cnt, x, hcnt, rfl⟩
    exact ⟨⟨cnt, x, rfl⟩, (fieldN_encodeV op cnt x).symm ▸ hcnt⟩

/-- A row without a count constraint looks at the masked bits alone. -/
theorem matchesWord_uncounted_iff {pattern mask w : Word} :
    (Row.mk pattern mask false).matchesWord w = true ↔ w &&& mask = pattern := by
  simp [Row.matchesWord]

/-- The row of a command matches the command's word. -/
theorem matchesWord_rowOf_encode {i : Instr} (h : i.wf = true) : (rowOf i).matchesWord (encode i) = true := by
  cases i with
  | gfadd a b => exact matchesWord_uncounted_iff.mpr ((masked_iff_encodeS 0x01 _).mpr ⟨a, b, rfl⟩)
  | gfmul a b => exact matchesWord_uncounted_iff.mpr ((masked_iff_encodeS 0x02 _).mpr ⟨a, b, rfl⟩)
  | gfinv a => exact matchesWord_uncounted_iff.mpr ((masked_iff_encodeInv 0x03 _).mpr ⟨a, rfl⟩)
  | gfdiv a b => exact matchesWord_uncounted_iff.mpr ((masked_iff_encodeS 0x04 _).mpr ⟨a, b, rfl⟩)
  | pgen cnt c0 => exact (matchesWord_counted_iff 0x10 _).mpr ⟨cnt, c0, h, rfl⟩
  | peval cnt x => exact (matchesWord_counted_iff 0x11 _).mpr ⟨cnt, x, h, rfl⟩
  | linterp cnt x => exact (matchesWord_counted_iff 0x12 _).mpr ⟨cnt, x, h, rfl⟩
  | split n k => exact matchesWord_uncounted_iff.mpr ((masked_iff_encodeO 0x20 _).mpr ⟨n, k, rfl⟩)
  | combine m => exact matchesWord_uncounted_iff.mpr ((masked_iff_encodeO_zero 0x21 _).mpr ⟨m, rfl⟩)

/-- A word that a row of the table matches is the word of a command of that row. -/
theorem encode_of_matchesWord {r : Row} (hr : r ∈ rows) {w : Word} (h : r.matchesWord w = true) :
    ∃ i, (i.wf = true ∧ encode i = w) ∧ rowOf i = r := by
  simp only [rows, List.mem_cons, List.not_mem_nil, or_false] at hr
  rcases hr with rfl | rfl | rfl | rfl | rfl | rfl | rfl | rfl | rfl
  · obtain ⟨a, b, hw⟩ := (masked_iff_encodeS 0x01 w).mp (matchesWord_uncounted_iff.mp h)
    exact ⟨.gfadd a b, ⟨rfl, hw⟩, rfl⟩
  · obtain ⟨a, b, hw⟩ := (masked_iff_encodeS 0x02 w).mp (matchesWord_uncounted_iff.mp h)
    exact ⟨.gfmul a b, ⟨rfl, hw⟩, rfl⟩
  · obtain ⟨a, hw⟩ := (masked_iff_encodeInv 0x03 w).mp (matchesWord_uncounted_iff.mp h)
    exact ⟨.gfinv a, ⟨rfl, hw⟩, rfl⟩
  · obtain ⟨a, b, hw⟩ := (masked_iff_encodeS 0x04 w).mp (matchesWord_uncounted_iff.mp h)
    exact ⟨.gfdiv a b, ⟨rfl, hw⟩, rfl⟩
  · obtain ⟨cnt, c0, hcnt, hw⟩ := (matchesWord_counted_iff 0x10 w).mp h
    exact ⟨.pgen cnt c0, ⟨hcnt, hw⟩, rfl⟩
  · obtain ⟨cnt, x, hcnt, hw⟩ := (matchesWord_counted_iff 0x11 w).mp h
    exact ⟨.peval cnt x, ⟨hcnt, hw⟩, rfl⟩
  · obtain ⟨cnt, x, hcnt, hw⟩ := (matchesWord_counted_iff 0x12 w).mp h
    exact ⟨.linterp cnt x, ⟨hcnt, hw⟩, rfl⟩
  · obtain ⟨n, k, hw⟩ := (masked_iff_encodeO 0x20 w).mp (matchesWord_uncounted_iff.mp h)
    exact ⟨.split n k, ⟨rfl, hw⟩, rfl⟩
  · obtain ⟨m, hw⟩ := (masked_iff_encodeO_zero 0x21 w).mp (matchesWord_uncounted_iff.mp h)
    exact ⟨.combine m, ⟨rfl, hw⟩, rfl⟩

/-- A row of the table matches exactly the words that decode to a command of that row. -/
theorem matchesWord_iff_decode {r : Row} (hr : r ∈ rows) {w : Word} :
    r.matchesWord w = true ↔ ∃ i, decode w = .ok i ∧ rowOf i = r := by
  simp only [decode_eq_ok_iff]
  constructor
  · exact encode_of_matchesWord hr
  · rintro ⟨i, ⟨hwf, rfl⟩, rfl⟩
    exact matchesWord_rowOf_encode hwf

/-- A command has one row in the table. -/
theorem filter_rows_rowOf (i : Instr) : rows.filter (· = rowOf i) = [rowOf i] := by
  cases i <;> rfl

theorem matchingRows_of_ok {w : Word} {i : Instr} (h : decode w = .ok i) : matchingRows w = [rowOf i] := by
  rw [matchingRows, ← filter_rows_rowOf i]
  refine List.filter_congr fun r hr => ?_
  rw [Bool.eq_iff_iff, matchesWord_iff_decode hr, h, decide_eq_true_iff]
  constructor
  · rintro ⟨j, hj, rfl⟩
    rw [Decoded.ok.inj hj]
  · exact fun hrow => ⟨i, rfl, hrow.symm⟩

theorem matchingRows_of_illegal {w : Word} {why : IllegalWord} (h : decode w = .illegal why) : matchingRows w = [] := by
  refine List.filter_eq_nil_iff.mpr fun r hr hmatch => ?_
  obtain ⟨i, hi, _⟩ := (matchesWord_iff_decode hr).mp hmatch
  rw [h] at hi
  nomatch hi

end Sys2Proof.Safety

namespace Sys2Proof.Proofs

open Sys2Proof.Machine Sys2Proof.Safety

/-- Settles O1: the core alone moves when nothing is scheduled, and from `DECODE` it runs the decoded command. -/
theorem stepRunsTheLatchedCommand : Obligations.StepRunsTheLatchedCommand := by
  unfold Obligations.StepRunsTheLatchedCommand
  exact ⟨fun _ _ h hst hi => step_decoded h hst hi, fun _ _ _ => ⟨rfl, rfl, rfl⟩⟩

/-- Settles O54: `DECODE` goes to `END` with code 6, and `END` writes the code as the one step does. -/
theorem machineAgreesOnIllegalWords : Obligations.MachineAgreesOnIllegalWords := by
  unfold Obligations.MachineAgreesOnIllegalWords
  intro s why hseq hwhy
  have hst : s.seq.st = .decode := congrArg Seq.st hseq
  rw [coreTransition_illegal hst hwhy, transitions_illegal hst hwhy]
  exact ⟨⟨rfl, by simp⟩, raiseError_endsAs s .illegalCommand, fun h => step_illegal h hst hwhy⟩

/-- Settles O2: a word's rows are those of the command it decodes to; an illegal word is accepted as any other, and the core
then ends it. -/
theorem everyWordMatchesOneRowOrIsIllegal : Obligations.EveryWordMatchesOneRowOrIsIllegal := by
  unfold Obligations.EveryWordMatchesOneRowOrIsIllegal
  refine ⟨fun w => ?rows, fun s w why hbusy hfatal hs hwhy => ?ends⟩
  case rows =>
    cases h : decode w with
    | ok i => exact .inl ⟨i, rfl, matchingRows_of_ok h⟩
    | illegal why => exact .inr ⟨⟨why, rfl⟩, matchingRows_of_illegal h⟩
  case ends =>
    obtain ⟨haccept, _, _⟩ := commandPort
    obtain ⟨t, ht, hst, heq⟩ := haccept s w [] hbusy hfatal hs
    have hsched : t.schedule = [] := congrArg State.schedule heq
    have hcmdl : t.cmdl = w := congrArg State.cmdl heq
    refine ⟨t, ht, congrArg State.busy heq, _, step_illegal hsched hst (hcmdl ▸ hwhy), rfl, ?_⟩
    exact (congrArg (State.raiseError · .illegalCommand) heq).trans rfl

end Sys2Proof.Proofs
end

section
/-! PROOF. Bit patterns read as polynomials over GF(2): bit `i` is the coefficient of x^i (R121). -/

namespace Sys2Proof.Machine

open Polynomial Sys2Proof.Safety

/-- The polynomial a number reads as, bit `i` the coefficient of x^i; `readsAs_iff` ties it to `ReadsAs`. -/
noncomputable def bitPoly (n : Nat) : (ZMod 2)[X] := ∑ i ∈ Finset.range n, if n.testBit i then X ^ i else 0

theorem coeff_bitPoly (n i : Nat) : (bitPoly n).coeff i = if n.testBit i then 1 else 0 := by
  have hterm : ∀ j, (if n.testBit j then X ^ j else 0 : (ZMod 2)[X]).coeff i =
      if i = j then (if n.testBit i then 1 else 0) else 0 := by
    intro j
    by_cases hij : i = j
    · subst hij
      cases n.testBit i <;> simp
    · cases n.testBit j <;> simp [coeff_X_pow, hij]
  have hlow : n.testBit i = true → i < n := fun h => Nat.lt_two_pow_self.trans_le (Nat.ge_two_pow_of_testBit h)
  rw [bitPoly, finsetSum_coeff, Finset.sum_congr rfl fun j _ => hterm j, Finset.sum_ite_eq]
  cases hbit : n.testBit i <;> simp_all

theorem readsAs_iff {w : Nat} {v : BitVec w} {p : (ZMod 2)[X]} : ReadsAs v p ↔ p = bitPoly v.toNat := by
  simp only [ReadsAs, Polynomial.ext_iff, coeff_bitPoly, BitVec.testBit_toNat]

@[simp] theorem bitPoly_zero : bitPoly 0 = 0 := rfl

@[simp] theorem bitPoly_one : bitPoly 1 = 1 := by simp [bitPoly]

theorem bitPoly_injective : Function.Injective bitPoly := by
  intro m n h
  refine Nat.eq_of_testBit_eq fun i => ?_
  have hi := congrArg (coeff · i) h
  simp only [coeff_bitPoly] at hi
  cases hm : m.testBit i <;> cases hn : n.testBit i <;> simp_all

@[simp] theorem bitPoly_xor (m n : Nat) : bitPoly (m ^^^ n) = bitPoly m + bitPoly n := by
  ext i
  rw [coeff_add, coeff_bitPoly, coeff_bitPoly, coeff_bitPoly, Nat.testBit_xor]
  cases m.testBit i <;> cases n.testBit i <;> decide

@[simp] theorem bitPoly_shiftLeft (n k : Nat) : bitPoly (n <<< k) = X ^ k * bitPoly n := by
  ext i
  rw [coeff_X_pow_mul', coeff_bitPoly, coeff_bitPoly, Nat.testBit_shiftLeft]
  by_cases hk : k ≤ i <;> simp [hk]

/-- The lowest bit is the constant term. -/
theorem bitPoly_eq_bit_add (n : Nat) :
    bitPoly n = (if n.testBit 0 then 1 else 0 : (ZMod 2)[X]) + X * bitPoly (n >>> 1) := by
  ext i
  cases i with
  | zero =>
    rw [coeff_add, mul_coeff_zero, coeff_X_zero, zero_mul, add_zero, coeff_bitPoly]
    cases n.testBit 0 <;> simp
  | succ i =>
    rw [coeff_add, coeff_X_mul, coeff_bitPoly, coeff_bitPoly, Nat.testBit_shiftRight, Nat.add_comm 1 i]
    cases n.testBit 0 <;> simp [coeff_one]

/-- Numbers of `w` bits read as the polynomials of degree below `w`. -/
theorem degree_bitPoly_lt_iff {n w : Nat} : (bitPoly n).degree < w ↔ n < 2 ^ w := by
  rw [degree_lt_iff_coeff_zero]
  simp only [coeff_bitPoly]
  constructor
  · intro h
    refine Nat.lt_pow_two_of_testBit n fun i hi => ?_
    simpa using h i hi
  · intro h i hi
    rw [Nat.testBit_lt_two_pow (h.trans_le (Nat.pow_le_pow_right (by omega) hi))]
    rfl

theorem exists_bitPoly_eq {p : (ZMod 2)[X]} {w : Nat} (h : p.degree < w) : ∃ n < 2 ^ w, bitPoly n = p := by
  refine ⟨Nat.ofBits fun i : Fin w => decide (p.coeff i = 1), Nat.ofBits_lt_two_pow _, ?_⟩
  ext i
  have hbit : ∀ c : ZMod 2, (if c = 1 then 1 else 0) = c := by decide
  by_cases hi : i < w
  · simp [coeff_bitPoly, Nat.testBit_ofBits_lt _ i hi, hbit]
  · simp [coeff_bitPoly, Nat.testBit_ofBits_ge _ i (Nat.le_of_not_lt hi),
      (degree_lt_iff_coeff_zero p w).mp h i (Nat.le_of_not_lt hi)]

theorem testBit_log2 {n : Nat} (h : n ≠ 0) : n.testBit n.log2 = true :=
  Nat.testBit_of_two_pow_le_and_two_pow_add_one_gt (Nat.log2_self_le h) Nat.lt_log2_self

theorem natDegree_bitPoly (n : Nat) : (bitPoly n).natDegree = n.log2 := by
  by_cases h : n = 0
  · simp [h]
  · have hle : (bitPoly n).natDegree ≤ n.log2 := natDegree_le_iff_coeff_eq_zero.mpr fun i hi => by
      rw [coeff_bitPoly, Nat.testBit_lt_two_pow ((Nat.log2_lt h).mp hi)]
      rfl
    refine natDegree_eq_of_le_of_coeff_ne_zero hle ?_
    rw [coeff_bitPoly, testBit_log2 h]
    decide

theorem monic_bitPoly {n : Nat} (h : n ≠ 0) : (bitPoly n).Monic := by
  rw [Monic, leadingCoeff, natDegree_bitPoly, coeff_bitPoly, testBit_log2 h, if_pos rfl]

end Sys2Proof.Machine
end

section
/-! PROOF. O6, O7: the field functions are those of the quotient ring GF(2)[x]/(POLY) (R120, R121, R123). -/

namespace Sys2Proof.Machine

open Polynomial

/-- The ring of polynomials over GF(2) modulo `POLY`. -/
abbrev GFRing (poly : BitVec 9) : Type := AdjoinRoot (bitPoly poly.toNat)

/-- The residue a byte stands for (R121); `toRing_gfAdd` and `toRing_gfMul` tie it to the field functions. -/
noncomputable def toRing (poly : BitVec 9) (a : Byte) : GFRing poly := AdjoinRoot.mk _ (bitPoly a.toNat)

variable {poly : BitVec 9}

@[simp] theorem toRing_zero : toRing poly 0 = 0 := map_zero (AdjoinRoot.mk (bitPoly poly.toNat))

@[simp] theorem toRing_one : toRing poly 1 = 1 := by
  rw [toRing, show (1 : Byte).toNat = 1 from rfl, bitPoly_one, map_one]

@[simp] theorem toRing_gfAdd (a b : Byte) : toRing poly (gfAdd a b) = toRing poly a + toRing poly b := by
  rw [toRing, gfAdd, BitVec.toNat_xor, bitPoly_xor, map_add]
  rfl

theorem gfAdd_self (a : Byte) : gfAdd a a = 0 := BitVec.xor_self

theorem gfAdd_zero (a : Byte) : gfAdd a 0 = a := BitVec.xor_zero

/-! ### Moduli of degree 8 -/

theorem le_toNat_of_bit8 (hp : poly.getLsbD 8 = true) : 256 ≤ poly.toNat := Nat.ge_two_pow_of_testBit hp

theorem log2_of_bit8 (hp : poly.getLsbD 8 = true) : poly.toNat.log2 = 8 :=
  have hle := le_toNat_of_bit8 hp
  (Nat.log2_eq_iff (by omega)).mpr ⟨hle, poly.isLt⟩

theorem monic_of_bit8 (hp : poly.getLsbD 8 = true) : (bitPoly poly.toNat).Monic :=
  have hle := le_toNat_of_bit8 hp
  monic_bitPoly (by omega)

theorem degree_of_bit8 (hp : poly.getLsbD 8 = true) : (bitPoly poly.toNat).degree = 8 := by
  rw [degree_eq_natDegree (monic_of_bit8 hp).ne_zero, natDegree_bitPoly, log2_of_bit8 hp]
  rfl

/-- A byte stands for the residue of `q` exactly when it reads as the remainder of `q` modulo `POLY`. -/
theorem toRing_eq_mk_iff (hp : poly.getLsbD 8 = true) {a : Byte} {q : (ZMod 2)[X]} :
    toRing poly a = AdjoinRoot.mk _ q ↔ bitPoly a.toNat = q %ₘ bitPoly poly.toNat := by
  have hm := monic_of_bit8 hp
  have ha : bitPoly a.toNat %ₘ bitPoly poly.toNat = bitPoly a.toNat := by
    rw [modByMonic_eq_self_iff hm, degree_of_bit8 hp]
    exact degree_bitPoly_lt_iff.mpr a.isLt
  rw [toRing, AdjoinRoot.mk_eq_mk, ← modByMonic_eq_zero_iff_dvd hm, sub_modByMonic, ha, sub_eq_zero]

theorem toRing_injective (hp : poly.getLsbD 8 = true) : Function.Injective (toRing poly) := by
  intro a b h
  have hb : toRing poly b = AdjoinRoot.mk _ (bitPoly b.toNat) := rfl
  have hmod := (toRing_eq_mk_iff hp).mp (h.trans hb)
  rw [← (toRing_eq_mk_iff hp).mp hb] at hmod
  exact BitVec.eq_of_toNat_eq (bitPoly_injective hmod)

theorem toRing_surjective (hp : poly.getLsbD 8 = true) : Function.Surjective (toRing poly) := by
  intro z
  obtain ⟨q, rfl⟩ := AdjoinRoot.mk_surjective z
  have hdeg : (q %ₘ bitPoly poly.toNat).degree < (8 : Nat) :=
    (degree_modByMonic_lt q (monic_of_bit8 hp)).trans_eq (degree_of_bit8 hp)
  obtain ⟨n, hn, hq⟩ := exists_bitPoly_eq hdeg
  refine ⟨BitVec.ofNat 8 n, (toRing_eq_mk_iff hp).mpr ?_⟩
  rw [BitVec.toNat_ofNat, Nat.mod_eq_of_lt hn, hq]

/-! ### The multiplier -/

theorem getLsbD_gfShift (a : Byte) (i : Nat) : (gfShift poly a).getLsbD i =
    (decide (i < 8) && ((decide (1 ≤ i) && a.getLsbD (i - 1)) ^^ (a.getLsbD 7 && poly.getLsbD i))) := by
  have hshift : (a <<< 1).getLsbD i = (decide (i < 8) && (decide (1 ≤ i) && a.getLsbD (i - 1))) := by
    rw [BitVec.getLsbD_shiftLeft, Bool.and_assoc]
    cases i <;> simp
  unfold gfShift
  cases a.getLsbD 7
  · simpa using hshift
  · rw [if_pos rfl, BitVec.getLsbD_xor, hshift, BitVec.getLsbD_setWidth, Bool.true_and, Bool.and_xor_distrib_left]

/-- The shift of R123 drops no bit: what leaves at bit 7 cancels bit 8 of `POLY`. -/
theorem gfShift_toNat (hp : poly.getLsbD 8 = true) (a : Byte) :
    (gfShift poly a).toNat = a.toNat <<< 1 ^^^ if a.getLsbD 7 then poly.toNat else 0 := by
  refine Nat.eq_of_testBit_eq fun i => ?_
  have hpoly : (if a.getLsbD 7 then poly.toNat else 0).testBit i = (a.getLsbD 7 && poly.getLsbD i) := by
    cases a.getLsbD 7 <;> simp [BitVec.testBit_toNat]
  rw [Nat.testBit_xor, Nat.testBit_shiftLeft, BitVec.testBit_toNat, BitVec.testBit_toNat, hpoly, getLsbD_gfShift]
  rcases Nat.lt_trichotomy i 8 with hi | rfl | hi
  · simp [hi]
  · simp [hp]
  · simp [BitVec.getLsbD_of_ge a (i - 1) (by omega), BitVec.getLsbD_of_ge poly i (by omega)]

theorem toRing_gfShift (hp : poly.getLsbD 8 = true) (a : Byte) :
    toRing poly (gfShift poly a) = AdjoinRoot.root _ * toRing poly a := by
  have hmod : AdjoinRoot.mk (bitPoly poly.toNat) (bitPoly (if a.getLsbD 7 then poly.toNat else 0)) = 0 := by
    cases a.getLsbD 7 <;> simp
  rw [toRing, gfShift_toNat hp, bitPoly_xor, bitPoly_shiftLeft, map_add, hmod, map_mul, pow_one, AdjoinRoot.mk_X, add_zero]
  rfl

/-- The rounds of R123 from bit `i` of `b` on add `a` times the rest of `b` to the product so far. -/
theorem toRing_gfMulRounds (hp : poly.getLsbD 8 = true) (b : Byte) (rounds i : Nat) (a p : Byte)
    (hi : 8 ≤ i + rounds) : toRing poly (gfMulRounds poly b rounds i a p) =
      toRing poly p + toRing poly a * AdjoinRoot.mk _ (bitPoly (b.toNat >>> i)) := by
  induction rounds generalizing i a p with
  | zero =>
    have hb : b.toNat >>> i = 0 := Nat.shiftRight_eq_zero _ _ (b.isLt.trans_le (Nat.pow_le_pow_right (by omega) hi))
    simp [gfMulRounds, hb]
  | succ n ih =>
    have hbit : toRing poly (if b.getLsbD i then p ^^^ a else p) =
        toRing poly p + toRing poly a * if b.getLsbD i then 1 else 0 := by
      cases b.getLsbD i
      · simp
      · rw [if_pos rfl, if_pos rfl, mul_one]
        exact toRing_gfAdd p a
    have hrest : bitPoly (b.toNat >>> i) =
        (if b.getLsbD i then 1 else 0 : (ZMod 2)[X]) + X * bitPoly (b.toNat >>> (i + 1)) := by
      rw [bitPoly_eq_bit_add, Nat.testBit_shiftRight, ← Nat.shiftRight_add]
      rfl
    rw [gfMulRounds, ih (i + 1) _ _ (by omega), hbit, toRing_gfShift hp, hrest, map_add, map_mul, AdjoinRoot.mk_X,
      apply_ite (AdjoinRoot.mk _), map_one, map_zero]
    ring

theorem toRing_gfMul (hp : poly.getLsbD 8 = true) (a b : Byte) :
    toRing poly (gfMul poly a b) = toRing poly a * toRing poly b := by
  rw [gfMul, toRing_gfMulRounds hp b 8 0 a 0 (by omega), toRing_zero, zero_add, Nat.shiftRight_zero]
  rfl

/-! ### The laws of R125, for every modulus of degree 8 -/

theorem gfMul_comm (hp : poly.getLsbD 8 = true) (a b : Byte) : gfMul poly a b = gfMul poly b a :=
  toRing_injective hp (by simp only [toRing_gfMul hp, mul_comm])

theorem gfMul_assoc (hp : poly.getLsbD 8 = true) (a b c : Byte) :
    gfMul poly (gfMul poly a b) c = gfMul poly a (gfMul poly b c) :=
  toRing_injective hp (by simp only [toRing_gfMul hp, mul_assoc])

theorem gfMul_gfAdd (hp : poly.getLsbD 8 = true) (a b c : Byte) :
    gfMul poly a (gfAdd b c) = gfAdd (gfMul poly a b) (gfMul poly a c) :=
  toRing_injective hp (by simp only [toRing_gfMul hp, toRing_gfAdd, mul_add])

theorem gfMul_zero (hp : poly.getLsbD 8 = true) (a : Byte) : gfMul poly a 0 = 0 :=
  toRing_injective hp (by rw [toRing_gfMul hp, toRing_zero, mul_zero])

theorem zero_gfMul (hp : poly.getLsbD 8 = true) (a : Byte) : gfMul poly 0 a = 0 :=
  (gfMul_comm hp 0 a).trans (gfMul_zero hp a)

theorem gfMul_one (hp : poly.getLsbD 8 = true) (a : Byte) : gfMul poly a 1 = a :=
  toRing_injective hp (by rw [toRing_gfMul hp, toRing_one, mul_one])

end Sys2Proof.Machine

namespace Sys2Proof.Proofs

open Sys2Proof.Machine Sys2Proof.Safety

/-- Settles O6: the adder is the exclusive or, which cancels itself. -/
theorem additionIsExclusiveOr : Obligations.AdditionIsExclusiveOr := by
  unfold Obligations.AdditionIsExclusiveOr
  exact fun a b => ⟨rfl, gfAdd_self a, gfAdd_zero a⟩

/-- Settles O7: the rounds of R123 compute the product in the quotient ring, and a byte reads as the remainder of all the
polynomials it stands for. -/
theorem multiplicationIsTheProductModuloPoly : Obligations.MultiplicationIsTheProductModuloPoly := by
  unfold Obligations.MultiplicationIsTheProductModuloPoly
  intro poly a b pm pa pb hp hm ha hb
  rw [readsAs_iff] at hm ha hb ⊢
  rw [hm, ha, hb]
  refine ((toRing_eq_mk_iff hp).mp ?_).symm
  rw [toRing_gfMul hp, map_mul]
  rfl

end Sys2Proof.Proofs
end

section
/-! PROOF. O8: the legal moduli are the irreducible polynomials of degree 8 (R122). A polynomial of degree 8 is irreducible
when none of degree 1 to 4 divides it, and long division tells. -/

namespace Sys2Proof.Machine

open Polynomial

/-- The last `k` steps of the long division of `r` by `q` over GF(2), which leave the remainder. -/
def longDivision (q : Nat) : (k r : Nat) → Nat
  | 0, r => r
  | k + 1, r => longDivision q k (if r.testBit (q.log2 + k) then r ^^^ q <<< k else r)

theorem bitPoly_dvd_longDivision_iff (q k r : Nat) : bitPoly q ∣ bitPoly (longDivision q k r) ↔ bitPoly q ∣ bitPoly r := by
  induction k generalizing r with
  | zero => rfl
  | succ k ih =>
    rw [longDivision, ih]
    split_ifs
    · rw [bitPoly_xor, bitPoly_shiftLeft]
      exact dvd_add_left (dvd_mul_left _ _)
    · rfl

/-- A step of the division clears the highest bit. -/
theorem divisionStep_lt {q k r : Nat} (hq : q ≠ 0) (hr : r < 2 ^ (q.log2 + (k + 1))) :
    (if r.testBit (q.log2 + k) then r ^^^ q <<< k else r) < 2 ^ (q.log2 + k) := by
  refine Nat.lt_pow_two_of_testBit _ fun i hi => ?_
  have habove (hi' : q.log2 + k < i) : r.testBit i = false :=
    Nat.testBit_lt_two_pow (hr.trans_le (Nat.pow_le_pow_right (by omega) hi'))
  split_ifs with htop
  · rw [Nat.testBit_xor, Nat.testBit_shiftLeft, decide_eq_true (by omega), Bool.true_and]
    rcases Nat.eq_or_lt_of_le hi with rfl | hi
    · rw [htop, Nat.add_sub_cancel, testBit_log2 hq]
      rfl
    · rw [habove hi, Nat.testBit_lt_two_pow ((Nat.log2_lt hq).mp (by omega))]
      rfl
  · rcases Nat.eq_or_lt_of_le hi with rfl | hi
    · simpa using htop
    · exact habove hi

theorem longDivision_lt {q k r : Nat} (hq : q ≠ 0) (hr : r < 2 ^ (q.log2 + k)) : longDivision q k r < 2 ^ q.log2 := by
  induction k generalizing r with
  | zero => exact hr
  | succ k ih => exact ih (divisionStep_lt hq hr)

/-- `q` divides a number of at most `q.log2 + k` bits exactly when `k` steps leave the remainder 0. -/
theorem bitPoly_dvd_iff {q k r : Nat} (hq : q ≠ 0) (hr : r < 2 ^ (q.log2 + k)) :
    bitPoly q ∣ bitPoly r ↔ longDivision q k r = 0 := by
  rw [← bitPoly_dvd_longDivision_iff q k r]
  constructor
  · intro hdvd
    refine bitPoly_injective (eq_zero_of_dvd_of_degree_lt hdvd ?_)
    rw [degree_eq_natDegree (monic_bitPoly hq).ne_zero, natDegree_bitPoly]
    exact degree_bitPoly_lt_iff.mpr (longDivision_lt hq hr)
  · intro h
    rw [h, bitPoly_zero]
    exact dvd_zero _

/-- A polynomial of degree 8 is irreducible when none of the polynomials of degree 1 to 4 divides it. -/
theorem irreducible_bitPoly_iff {n : Nat} (hlow : 256 ≤ n) (hhigh : n < 512) :
    Irreducible (bitPoly n) ↔ ∀ q ∈ List.range' 2 30, longDivision q (9 - q.log2) n ≠ 0 := by
  have hn0 : n ≠ 0 := by omega
  have hlog : n.log2 = 8 := (Nat.log2_eq_iff hn0).mpr ⟨hlow, hhigh⟩
  have hn1 : bitPoly n ≠ 1 := fun h => by
    have := bitPoly_injective (h.trans bitPoly_one.symm)
    omega
  rw [(monic_bitPoly hn0).irreducible_iff_lt_natDegree_lt hn1, natDegree_bitPoly, hlog]
  have hlog2 {q : Nat} (hq : 2 ≤ q ∧ q < 32) : 1 ≤ q.log2 ∧ q.log2 < 5 :=
    ⟨(Nat.le_log2 (by omega)).mpr hq.1, (Nat.log2_lt (by omega)).mpr hq.2⟩
  have hdvd {q : Nat} (hq : 2 ≤ q ∧ q < 32) : bitPoly q ∣ bitPoly n ↔ longDivision q (9 - q.log2) n = 0 := by
    have hq5 := hlog2 hq
    exact bitPoly_dvd_iff (by omega) (by rwa [show q.log2 + (9 - q.log2) = 9 by omega])
  simp only [List.mem_range'_1, Finset.mem_Ioc]
  constructor
  · intro h q hq
    have hq5 := hlog2 hq
    rw [Ne, ← hdvd hq]
    exact h _ (monic_bitPoly (by omega)) (by rw [natDegree_bitPoly]; omega)
  · rintro h p hp ⟨hp1, hp4⟩
    have hdeg : p.degree < (5 : Nat) := by
      rw [degree_eq_natDegree hp.ne_zero]
      exact_mod_cast hp4.trans_lt (by norm_num)
    obtain ⟨q, hq, rfl⟩ := exists_bitPoly_eq hdeg
    have hq2 : 2 ≤ q := by
      by_contra hq2
      rcases (by omega : q = 0 ∨ q = 1) with rfl | rfl <;> simp at hp1
    rw [hdvd ⟨hq2, hq⟩]
    exact h q ⟨hq2, hq⟩

/-- The sieve of R122, run by the kernel: the numbers of degree 8 that no number of degree 1 to 4 divides are the list. -/
theorem sieve_eq_legalPolys :
    (List.range' 256 256).filter (fun n => (List.range' 2 30).all fun q => longDivision q (9 - q.log2) n != 0) =
      Config.legalPolys.map BitVec.toNat := by
  decide +kernel

theorem mem_legalPolys_iff {poly : BitVec 9} (hp : poly.getLsbD 8 = true) :
    poly ∈ Config.legalPolys ↔ Irreducible (bitPoly poly.toNat) := by
  have hlow := le_toNat_of_bit8 hp
  have hhigh : poly.toNat < 256 + 256 := poly.isLt
  rw [irreducible_bitPoly_iff hlow hhigh, ← List.mem_map_of_injective BitVec.toNat_injective, ← sieve_eq_legalPolys,
    List.mem_filter, List.all_eq_true]
  simp only [bne_iff_ne, List.mem_range'_1, hlow, hhigh, and_self, true_and]

theorem bit8_of_legal {poly : BitVec 9} (h : poly ∈ Config.legalPolys) : poly.getLsbD 8 = true := by
  revert poly
  decide

theorem irreducible_of_legal {poly : BitVec 9} (h : poly ∈ Config.legalPolys) : Irreducible (bitPoly poly.toNat) :=
  (mem_legalPolys_iff (bit8_of_legal h)).mp h

end Sys2Proof.Machine

namespace Sys2Proof.Proofs

open Sys2Proof.Machine Sys2Proof.Safety

/-- Settles O8: the sieve by long division leaves exactly the list of R122. -/
theorem legalModuliAreTheIrreducibles : Obligations.LegalModuliAreTheIrreducibles := by
  unfold Obligations.LegalModuliAreTheIrreducibles
  intro poly p hp hread
  rw [readsAs_iff.mp hread]
  exact mem_legalPolys_iff hp

end Sys2Proof.Proofs
end

section
/-! PROOF. O9, O10, O11, O12: a legal modulus makes the 256 bytes a field, in which the inverse unit's a^254 is the inverse
(R124 to R129). -/

namespace Sys2Proof.Machine

open Polynomial

variable {poly : BitVec 9}

theorem toRing_eq_zero_iff (hp : poly.getLsbD 8 = true) {a : Byte} : toRing poly a = 0 ↔ a = 0 := by
  rw [← toRing_zero (poly := poly), (toRing_injective hp).eq_iff]

theorem card_gfRing (hp : poly.getLsbD 8 = true) : Nat.card (GFRing poly) = 256 := by
  rw [← Nat.card_congr (Equiv.ofBijective _ ⟨toRing_injective hp, toRing_surjective hp⟩),
    Nat.card_congr BitVec.equivFin.toEquiv, Nat.card_fin]
  rfl

/-- Fermat's theorem in the field of a legal modulus. -/
theorem toRing_pow_255 (hlegal : poly ∈ Config.legalPolys) {a : Byte} (ha : a ≠ 0) : toRing poly a ^ 255 = 1 := by
  have hp := bit8_of_legal hlegal
  have : Fact (Irreducible (bitPoly poly.toNat)) := ⟨irreducible_of_legal hlegal⟩
  have : Finite (GFRing poly) := Finite.of_surjective _ (toRing_surjective hp)
  have : Fintype (GFRing poly) := Fintype.ofFinite _
  have hcard : Fintype.card (GFRing poly) = 256 := Nat.card_eq_fintype_card.symm.trans (card_gfRing hp)
  have hpow := FiniteField.pow_card_sub_one_eq_one (toRing poly a) ((toRing_eq_zero_iff hp).not.mpr ha)
  rwa [hcard] at hpow

/-- The square-and-multiply rounds of R128 with the exponent 1111_1110. -/
theorem toRing_gfPowRounds (hp : poly.getLsbD 8 = true) (a : Byte) :
    toRing poly (gfPowRounds poly a [true, true, true, true, true, true, true, false] 0x01) = toRing poly a ^ 254 := by
  simp only [gfPowRounds, toRing_gfMul hp, toRing_one]
  ring

/-- The inverse unit gives, for a nonzero element, the one factor that makes 1 (R126). -/
theorem gfInv_spec (hlegal : poly ∈ Config.legalPolys) {a : Byte} (ha : a ≠ 0) :
    ∃ b, gfInv poly a = some b ∧ ∀ c, gfMul poly a c = 1 ↔ c = b := by
  have hp := bit8_of_legal hlegal
  have : Fact (Irreducible (bitPoly poly.toNat)) := ⟨irreducible_of_legal hlegal⟩
  have ha' : toRing poly a ≠ 0 := (toRing_eq_zero_iff hp).not.mpr ha
  refine ⟨_, if_neg ha, fun c => ?_⟩
  rw [← (toRing_injective hp).eq_iff, ← (toRing_injective hp).eq_iff (a := c), toRing_gfMul hp, toRing_one,
    toRing_gfPowRounds hp, ← mul_right_inj' ha' (b := toRing poly c), ← pow_succ', toRing_pow_255 hlegal ha]

theorem gfInv_zero : gfInv poly 0 = none := (gfInv_eq_none poly 0).mpr rfl

theorem gfInv_eq_some_iff (hlegal : poly ∈ Config.legalPolys) {a b : Byte} (ha : a ≠ 0) :
    gfInv poly a = some b ↔ gfMul poly a b = 1 := by
  obtain ⟨d, hd, hiff⟩ := gfInv_spec hlegal ha
  rw [hd, hiff, Option.some_inj, eq_comm]

/-- The inverses of 1 to `n` are the entries of a table in which every entry makes 1 with its row. -/
theorem map_gfInv_eq (hlegal : poly ∈ Config.legalPolys) {n : Nat} (hn : n ≤ 255) {table : List Byte}
    (hlen : table.length = n) (htable : ∀ a < n, gfMul poly (BitVec.ofNat 8 (a + 1)) (table.getD a 0) = 1) :
    (List.range n).map (fun a => gfInv poly (BitVec.ofNat 8 (a + 1))) = table.map some := by
  refine List.ext_getElem (by simp [hlen]) fun a ha _ => ?_
  rw [List.length_map, List.length_range] at ha
  have hne : BitVec.ofNat 8 (a + 1) ≠ 0 := fun h => by
    have h' := congrArg BitVec.toNat h
    rw [BitVec.toNat_ofNat, Nat.mod_eq_of_lt (by omega)] at h'
    exact absurd h' (by simp)
  rw [List.getElem_map, List.getElem_map, List.getElem_range, gfInv_eq_some_iff hlegal hne, ← htable a ha,
    List.getD_eq_getElem _ _ (hlen ▸ ha)]

/-- Division is multiplication with the inverse (R129). -/
theorem gfDiv_of_gfInv {a b r : Byte} (h : gfInv poly b = some r) : gfDiv poly a b = some (gfMul poly a r) := by
  rw [gfDiv, h]

/-- Multiplication with the divisor undoes division. -/
theorem gfMul_mul_inverse (hp : poly.getLsbD 8 = true) (a : Byte) {b r : Byte} (h : gfMul poly b r = 1) :
    gfMul poly (gfMul poly a r) b = a := by
  rw [gfMul_assoc hp, gfMul_comm hp r b, h, gfMul_one hp]

theorem gfDiv_zero (a : Byte) : gfDiv poly a 0 = none := (gfDiv_eq_none poly a 0).mpr rfl

end Sys2Proof.Machine

namespace Sys2Proof.Proofs

open Sys2Proof.Machine Sys2Proof.Safety

/-- Settles O9: the ring laws come from the quotient ring, the inverses from the inverse unit. -/
theorem fieldLaws : Obligations.FieldLaws := by
  unfold Obligations.FieldLaws
  intro poly hlegal a b c
  have hp := bit8_of_legal hlegal
  refine ⟨gfMul_comm hp a b, gfMul_assoc hp a b c, gfMul_gfAdd hp a b c, gfMul_zero hp a, gfMul_one hp a, gfAdd_self a,
    gfAdd_zero a, fun ha => ?_⟩
  obtain ⟨d, _, hiff⟩ := gfInv_spec hlegal ha
  exact ⟨d, (hiff d).mpr rfl, fun c hc => (hiff c).mp hc⟩

/-- Settles O10: a^254 is the inverse, by Fermat's theorem, and 0 is refused. -/
theorem inverseUnit : Obligations.InverseUnit := by
  unfold Obligations.InverseUnit
  refine fun poly hlegal => ⟨gfInv_zero, fun a ha => ?_⟩
  obtain ⟨b, hb, hiff⟩ := gfInv_spec hlegal ha
  exact ⟨b, hb, (hiff b).mpr rfl, fun c hc => (hiff c).mp hc⟩

/-- Settles O11: every entry of the printed table makes 1 with its row, and inverses are unique. -/
theorem inverseTable : Obligations.InverseTable := by
  unfold Obligations.InverseTable
  refine ⟨gfInv_zero, map_gfInv_eq ?legal (by decide) ?length ?inverses⟩
  case legal => decide
  case length => decide +kernel
  case inverses => decide +kernel

/-- Settles O12: the quotient is a product with the inverse, so the laws of O9 give the rest. -/
theorem divisionLaws : Obligations.DivisionLaws := by
  unfold Obligations.DivisionLaws
  refine fun poly hlegal a b => ⟨gfDiv_zero a, fun hb => ?_⟩
  have hp := bit8_of_legal hlegal
  obtain ⟨r, hr, hiff⟩ := gfInv_spec hlegal hb
  have hbr : gfMul poly b r = 1 := (hiff r).mpr rfl
  refine ⟨⟨r, hr, gfDiv_of_gfInv hr⟩, ⟨_, gfDiv_of_gfInv hr, gfMul_mul_inverse hp a hbr⟩, ?_, ?_⟩
  · rw [gfDiv_of_gfInv hr, zero_gfMul hp]
  · rw [gfDiv_of_gfInv hr, hbr]

end Sys2Proof.Proofs
end

section
/-! PROOF. O13 to O16: the four field commands (R130 to R133), each by its pseudocode and by the word it is decoded from. -/

namespace Sys2Proof.Machine

open Sys2Proof.Safety

/-! ### How a command ends, by how its pseudocode leaves off -/

theorem exec_endsAs {i : Instr} {s t : State} (h : bodyOf i s = (.ok, t)) : EndsAs (exec i s) t .ok :=
  ⟨t.endOk, (exec_eq_runCommand i s).trans (runCommand_ok h), rfl, rfl⟩

theorem exec_haltsFrom {i : Instr} {s t : State} (h : bodyOf i s = (.fatal, t)) : HaltsFrom (exec i s) t :=
  ⟨t.raiseFatal, (exec_eq_runCommand i s).trans (runCommand_fatal h), rfl, rfl⟩

/-! ### The words of an opcode -/

/-- The words of an opcode run as the decoder says of them. -/
theorem wordRuns_of_decode {op : Byte} {legal : Word → Prop} {i : Word → Instr}
    (hlegal : ∀ w, fieldOp w = op → legal w → decode w = .ok (i w))
    (hillegal : ∀ w, fieldOp w = op → ¬legal w → ∃ why, decode w = .illegal why) : WordRuns op legal i := by
  intro s hs hst hop
  refine ⟨fun hl => step_decoded hs hst (hlegal _ hop hl), fun hl => ?_⟩
  obtain ⟨why, hwhy⟩ := hillegal _ hop hl
  rw [step_illegal hs hst hwhy]
  exact raiseError_endsAs s .illegalCommand

/-- The words of an opcode whose one check is that a `zero` field is zero (R91, R92). -/
theorem wordRuns_of_decodeZero {op : Byte} {len : Nat} {zero : Word → BitVec len} {i : Word → Instr}
    (h : ∀ w, fieldOp w = op → decode w = decodeZero (zero w == 0) (i w)) : WordRuns op (fun w => zero w = 0) i := by
  refine wordRuns_of_decode (fun w hop hz => ?_) fun w hop hz => ⟨.nonzeroZeroField, ?_⟩
  · rw [h w hop, hz]
    rfl
  · rw [h w hop, decodeZero, if_neg (by simpa using hz)]

end Sys2Proof.Machine

namespace Sys2Proof.Proofs

open Sys2Proof.Machine Sys2Proof.Safety

/-- Settles O13: the adder needs nothing of the state. -/
theorem gfaddCommand : Obligations.GfaddCommand := by
  unfold Obligations.GfaddCommand
  refine ⟨fun a b s => exec_endsAs rfl, wordRuns_of_decodeZero (zero := fieldZeroS) fun w hop => ?_⟩
  simp only [decode, hop]
  rfl

/-- Settles O14: the multiplier reads `POLY` only. -/
theorem gfmulCommand : Obligations.GfmulCommand := by
  unfold Obligations.GfmulCommand
  refine ⟨fun a b s => exec_endsAs rfl, wordRuns_of_decodeZero (zero := fieldZeroS) fun w hop => ?_⟩
  simp only [decode, hop]
  rfl

/-- Settles O15: the inverse unit gives the inverse of a nonzero operand, and refuses 0. -/
theorem gfinvCommand : Obligations.GfinvCommand := by
  unfold Obligations.GfinvCommand
  refine ⟨fun a s hcfg ha => ?_, fun s => exec_haltsFrom rfl,
    wordRuns_of_decodeZero (zero := fieldZeroInv) fun w hop => ?_⟩
  · obtain ⟨hlegal, _⟩ := hcfg
    obtain ⟨b, hb, hiff⟩ := gfInv_spec hlegal ha
    refine ⟨b, (hiff b).mpr rfl, exec_endsAs ?_⟩
    rw [bodyOf, gfinvBody, hb]
    rfl
  · simp only [decode, hop]
    rfl

/-- Settles O16: the quotient is the product with the inverse of the divisor, and divisor 0 is refused for every dividend. -/
theorem gfdivCommand : Obligations.GfdivCommand := by
  unfold Obligations.GfdivCommand
  refine ⟨fun a b s hcfg hb => ?_, fun a s => exec_haltsFrom rfl,
    wordRuns_of_decodeZero (zero := fieldZeroS) fun w hop => ?_⟩
  · obtain ⟨hlegal, _⟩ := hcfg
    obtain ⟨r, hr, hiff⟩ := gfInv_spec hlegal hb
    refine ⟨_, gfMul_mul_inverse (bit8_of_legal hlegal) a ((hiff r).mpr rfl), exec_endsAs ?_⟩
    rw [bodyOf, gfdivBody, gfDiv_of_gfInv hr]
    rfl
  · simp only [decode, hop]
    rfl

end Sys2Proof.Proofs
end

section
/-! PROOF. O17, O19 and O20: the polynomial generator and the Horner evaluator (R150 to R156). -/

namespace Sys2Proof.Machine

open Sys2Proof.Safety

/-! ### The words of format V, and commands that end in an error -/

theorem legalV_iff (w : Word) : LegalV w ↔ fieldZeroV w = 0 ∧ Instr.cntInRange (fieldN w) = true := by
  simp only [LegalV, Instr.cntInRange, Bool.and_eq_true, decide_eq_true_eq]
  rfl

/-- The words of an opcode of format V run as the `zero` field and the count allow (R92, R93). -/
theorem wordRuns_of_decodeV {op : Byte} {i : Word → Instr} (h : ∀ w, fieldOp w = op → decode w = decodeV w (i w)) :
    WordRuns op LegalV i := by
  refine wordRuns_of_decode (fun w hop hl => ?_) fun w hop hl => ?_
  · obtain ⟨hzero, hcnt⟩ := (legalV_iff w).mp hl
    exact (h w hop).trans (decodeV_eq_ok.mpr ⟨hzero, hcnt, rfl⟩)
  · cases hd : decode w with
    | illegal why => exact ⟨why, rfl⟩
    | ok j =>
      obtain ⟨hzero, hcnt, _⟩ := decodeV_eq_ok.mp ((h w hop).symm.trans hd)
      exact absurd ((legalV_iff w).mpr ⟨hzero, hcnt⟩) hl

theorem exec_endsAs_error {i : Instr} {s t : State} {e : ECode} (h : bodyOf i s = (.error e, t)) :
    EndsAs (exec i s) t e := by
  rw [exec_eq_runCommand, runCommand_error h]
  exact raiseError_endsAs t e

/-! ### The generator -/

/-- `COEF` once `Generate` has written the intercept and the drawn bytes (R150); `generate_eq_generatedCoef` and
`generate_fail` tie it to the model. -/
def generatedCoef (c0 : Byte) (bytes : List Byte) (v : Vector Byte Config.slotCount) : Vector Byte Config.slotCount :=
  (bytes.zipIdx 1).foldl (fun v p => setEntry v p.2 p.1) (setEntry v 0 c0)

theorem entry_generatedCoef (c0 : Byte) {bytes : List Byte} (v : Vector Byte Config.slotCount) (hlen : bytes.length < 256)
    (c : Nat) : entry (generatedCoef c0 bytes v) c =
      if c = 0 then c0 else if c ≤ bytes.length then bytes.getD (c - 1) 0 else entry v c := by
  have hdrawn : (1 ≤ c ∧ c < 1 + bytes.length) ↔ c ≠ 0 ∧ c ≤ bytes.length := by omega
  rw [generatedCoef, entry_writes 1 bytes _ (by omega), entry_setEntry _ _ _ (by omega)]
  by_cases hc : c = 0 <;> simp [hdrawn, hc]

theorem generate_eq_generatedCoef {cnt : Nat} (c0 : Byte) {bytes : List Byte} {rest : List Answer} {s : State}
    (hlen : bytes.length = cnt - 1) (h : s.entropy = bytes.map .ok ++ rest) :
    generate cnt c0 s = (.ok, { s with entropy := rest, coef := generatedCoef c0 bytes s.coef }) :=
  generate_ok hlen h

theorem drawCoef_fail (c : Nat) {rest : List Answer} {s : State} (h : s.entropy = .fail :: rest) :
    drawCoef c s = (.error .randomnessFailure, { s with entropy := rest }) := by
  rcases drawCoef_cases c s with ⟨h', _⟩ | ⟨rest', h', hd⟩ | ⟨_, _, h', _⟩
  · simp [h] at h'
  · obtain rfl : rest = rest' := by simpa [h] using h'
    exact hd
  · simp [h] at h'

/-- `Generate` keeps what it wrote before a draw that fails, and makes no further draw (R151). -/
theorem generate_fail {cnt : Nat} (c0 : Byte) {bytes : List Byte} {rest : List Answer} {s : State}
    (hlen : bytes.length < cnt - 1) (h : s.entropy = bytes.map .ok ++ .fail :: rest) :
    generate cnt c0 s =
      (.error .randomnessFailure, { s with entropy := rest, coef := generatedCoef c0 bytes s.coef }) := by
  obtain ⟨n, hn⟩ : ∃ n, cnt - 1 = bytes.length + (n + 1) := ⟨cnt - 1 - bytes.length - 1, by omega⟩
  unfold generate
  rw [hn, ← List.range'_append_1, forEach_append, Body.andThen_ok (drawCoefs_ok 1 bytes _ (s.setCoef 0 c0) h),
    List.range'_succ, forEach_cons, Body.andThen_stop (drawCoef_fail _ rfl) (by simp)]
  rfl

theorem pgenBody_legal {cnt : BitVec 12} (hlow : 1 ≤ cnt.toNat) (hhigh : cnt.toNat ≤ 256) (c0 : Byte) (s : State) :
    pgenBody cnt c0 s = generate cnt.toNat c0 s :=
  withCount_legal ((countLegal_iff cnt).mpr ⟨hlow, hhigh⟩) _ s

/-! ### The evaluator -/

theorem pevalBody_legal {cnt : BitVec 12} (hlow : 1 ≤ cnt.toNat) (hhigh : cnt.toNat ≤ 256) (x : Byte) (s : State) :
    pevalBody cnt x s = (.ok, s.setResult (s.horner cnt.toNat x)) :=
  withCount_legal ((countLegal_iff cnt).mpr ⟨hlow, hhigh⟩) _ s

/-- `PEVAL` with a legal count leaves the value of `Horner` in `RESULT`. -/
theorem exec_peval_endsAs {cnt : BitVec 12} (hlow : 1 ≤ cnt.toNat) (hhigh : cnt.toNat ≤ 256) (x : Byte) (s : State) :
    EndsAs (exec (.peval cnt x) s) { s with result := s.horner cnt.toNat x } .ok :=
  exec_endsAs (pevalBody_legal hlow hhigh x s)

section
variable {poly : BitVec 9}

theorem toRing_fieldPow (hp : poly.getLsbD 8 = true) (x : Byte) (n : Nat) :
    toRing poly (fieldPow poly x n) = toRing poly x ^ n := by
  induction n with
  | zero => exact toRing_one.trans (pow_zero _).symm
  | succ n ih => rw [fieldPow, toRing_gfMul hp, ih, pow_succ]

theorem toRing_polyValue_succ (hp : poly.getLsbD 8 = true) (c : Nat → Byte) (n : Nat) (x : Byte) :
    toRing poly (polyValue poly c (n + 1) x) =
      toRing poly (polyValue poly c n x) + toRing poly (c n) * toRing poly x ^ n := by
  rw [polyValue, fieldSum, toRing_gfAdd, toRing_gfMul hp, toRing_fieldPow hp]
  rfl

/-- The loop of R152 multiplies what it has by `x^i` and adds the value of the coefficients below index `i`. -/
theorem toRing_hornerRounds (hp : poly.getLsbD 8 = true) (coef : Vector Byte Config.slotCount) (x : Byte) (i : Nat)
    (acc : Byte) : toRing poly (hornerRounds poly coef x i acc) =
      toRing poly acc * toRing poly x ^ i + toRing poly (polyValue poly (entry coef) i x) := by
  induction i generalizing acc with
  | zero =>
    have hnone : toRing poly (polyValue poly (entry coef) 0 x) = 0 := toRing_zero
    rw [hornerRounds, hnone, pow_zero, mul_one, add_zero]
  | succ i ih =>
    rw [hornerRounds, ih, toRing_gfAdd, toRing_gfMul hp, toRing_polyValue_succ hp]
    ring

/-- Horner's scheme computes the value of the polynomial (R152). -/
theorem horner_eq_polyValue (hp : poly.getLsbD 8 = true) (coef : Vector Byte Config.slotCount) {cnt : Nat}
    (hcnt : 1 ≤ cnt) (x : Byte) : horner poly coef cnt x = polyValue poly (entry coef) cnt x := by
  obtain ⟨n, rfl⟩ := Nat.exists_eq_add_of_le' hcnt
  refine toRing_injective hp ?_
  rw [horner, Nat.add_sub_cancel, toRing_hornerRounds hp, toRing_polyValue_succ hp, add_comm]

/-! ### Multiplication by 0 and evaluation at 0, for every modulus -/

theorem gfMulRounds_zero (rounds i : Nat) (a p : Byte) : gfMulRounds poly 0 rounds i a p = p := by
  induction rounds generalizing i a with
  | zero => rfl
  | succ n ih =>
    have hbit : (0 : Byte).getLsbD i = false := BitVec.getLsbD_zero
    rw [gfMulRounds, hbit, if_neg Bool.false_ne_true, ih]

/-- `gfMul_zero` without its condition on the modulus: no round adds to the product. -/
theorem gfMul_zero_of_any (a : Byte) : gfMul poly a 0 = 0 := gfMulRounds_zero 8 0 a 0

/-- At 0 every round of R152 discards what it has and takes its own coefficient. -/
theorem hornerRounds_succ_zero (coef : Vector Byte Config.slotCount) (i : Nat) (acc : Byte) :
    hornerRounds poly coef 0 (i + 1) acc = entry coef 0 := by
  have hround (j : Nat) (b : Byte) : gfAdd (gfMul poly b 0) (entry coef j) = entry coef j := by
    rw [gfMul_zero_of_any]
    exact BitVec.zero_xor
  induction i generalizing acc with
  | zero => exact hround 0 acc
  | succ i ih => exact ih _

/-- R153. -/
theorem horner_zero (coef : Vector Byte Config.slotCount) (cnt : Nat) : horner poly coef cnt 0 = entry coef 0 := by
  unfold horner
  cases cnt - 1 with
  | zero => rfl
  | succ n => exact hornerRounds_succ_zero coef n _

end

end Sys2Proof.Machine

namespace Sys2Proof.Proofs

open Sys2Proof.Machine Sys2Proof.Safety

/-- Settles O17: the draws that succeed are written in order, and the first that fails ends the loop. -/
theorem pgenCommand : Obligations.PgenCommand := by
  unfold Obligations.PgenCommand
  refine ⟨fun cnt c0 s bytes rest hlow hhigh hlen h => ?_, fun cnt c0 s bytes rest hhigh hlen h => ?_,
    wordRuns_of_decodeV fun w hop => ?_⟩
  · refine ⟨generatedCoef c0 bytes s.coef,
      exec_endsAs ((pgenBody_legal hlow hhigh c0 s).trans (generate_eq_generatedCoef c0 hlen h)), fun c => ?_⟩
    have hbelow : c ≤ bytes.length ↔ c < cnt.toNat := by omega
    rw [entry_generatedCoef c0 _ (by omega)]
    simp only [hbelow]
  · exact ⟨generatedCoef c0 bytes s.coef,
      exec_endsAs_error ((pgenBody_legal (by omega) hhigh c0 s).trans (generate_fail c0 hlen h)),
      entry_generatedCoef c0 _ (by omega)⟩
  · simp only [decode, hop]
    rfl

/-- Settles O19: Horner's scheme gives the value of the polynomial. -/
theorem pevalCommand : Obligations.PevalCommand := by
  unfold Obligations.PevalCommand
  refine ⟨fun cnt x s hcfg hlow hhigh => ?_, wordRuns_of_decodeV fun w hop => ?_⟩
  · obtain ⟨hlegal, _⟩ := hcfg
    rw [← horner_eq_polyValue (bit8_of_legal hlegal) s.coef hlow x]
    exact exec_peval_endsAs hlow hhigh x s
  · simp only [decode, hop]
    rfl

/-- Settles O20: Horner's scheme at 0 keeps the last coefficient it adds, and a product with 0 is 0 for every modulus. -/
theorem evaluationAtTheOrigin : Obligations.EvaluationAtTheOrigin := by
  unfold Obligations.EvaluationAtTheOrigin
  intro cnt s hlow hhigh
  rw [← horner_zero (poly := s.cfg.poly) s.coef cnt.toNat]
  exact exec_peval_endsAs hlow hhigh 0 s

end Sys2Proof.Proofs
end

section
/-! PROOF. O21, O22 and O23: the interpolator (R170 to R176). For every modulus its two loops either compute the Lagrange
formula or stop at two equal coordinates; for a legal modulus the formula is Mathlib's interpolation polynomial over the
field GF(2)[x]/(POLY). -/

namespace Sys2Proof.Machine

open Polynomial Sys2Proof.Safety

variable {poly : BitVec 9}

/-! ### The loops of R172, for every modulus -/

theorem gfAdd_eq_zero_iff (a b : Byte) : gfAdd a b = 0 ↔ a = b := BitVec.xor_eq_zero_iff

/-- `gfMul_one` without its condition on the modulus: only the first round adds to the product. -/
theorem gfMul_one_of_any (a : Byte) : gfMul poly a 1 = a := by
  simp [gfMul, gfMulRounds]

/-- The factor of point `j` in the basis of point `i` (R171), the one by which `lagrangeBasis_cons` multiplies; point `i`
itself gives none. -/
def basisFactor (poly : BitVec 9) (xs : Nat → Byte) (x : Byte) (i j : Nat) : Byte :=
  if j = i then 0x01 else quotient poly (gfAdd x (xs j)) (gfAdd (xs i) (xs j))

theorem lagrangeValue_eq (xs ys : Nat → Byte) (m : Nat) (x : Byte) : lagrangeValue poly xs ys m x =
    fieldSum (fun i => gfMul poly (ys i) (fieldProd poly (basisFactor poly xs x i) m)) m := rfl

theorem fieldProd_eq_foldl (f : Nat → Byte) (n : Nat) :
    fieldProd poly f n = (List.range n).foldl (fun p j => gfMul poly p (f j)) 1 := by
  induction n with
  | zero => rfl
  | succ n ih => rw [fieldProd, ih, List.range_succ, List.foldl_append]; rfl

theorem fieldSum_eq_foldl (f : Nat → Byte) (n : Nat) :
    fieldSum f n = (List.range n).foldl (fun a i => gfAdd a (f i)) 0 := by
  induction n with
  | zero => rfl
  | succ n ih => rw [fieldSum, ih, List.range_succ, List.foldl_append]; rfl

section
variable {xc py : Vector Byte Config.slotCount} {m i : Nat} {x : Byte}

/-- One pass of the inner loop: the fatal division is that of a point, other than `i`, with the coordinate of `i`. -/
theorem lagrangeBasis_cons (j : Nat) (js : List Nat) (b : Byte) : lagrangeBasis poly xc x i (j :: js) b =
    if j ≠ i ∧ entry xc i = entry xc j then none
    else lagrangeBasis poly xc x i js (gfMul poly b (basisFactor poly (entry xc) x i j)) := by
  have hfatal := (gfDiv_eq_none poly (gfAdd x (entry xc j)) _).trans (gfAdd_eq_zero_iff (entry xc i) (entry xc j))
  rw [lagrangeBasis, basisFactor]
  by_cases hj : j = i
  · rw [if_pos hj, if_pos hj, if_neg fun h => h.1 hj, gfMul_one_of_any]
  · simp only [← hfatal, hj, quotient, ne_eq, not_false_eq_true, true_and, if_false]
    cases gfDiv poly (gfAdd x (entry xc j)) (gfAdd (entry xc i) (entry xc j)) <;> rfl

/-- The inner loop is the product of the factors, unless it meets a point with the coordinate of `i`. -/
theorem lagrangeBasis_eq (js : List Nat) (b : Byte) : lagrangeBasis poly xc x i js b =
    if ∃ j ∈ js, j ≠ i ∧ entry xc i = entry xc j then none
    else some (js.foldl (fun p j => gfMul poly p (basisFactor poly (entry xc) x i j)) b) := by
  induction js generalizing b with
  | nil => simp [lagrangeBasis]
  | cons j js ih =>
    rw [lagrangeBasis_cons, ih]
    by_cases hj : j ≠ i ∧ entry xc i = entry xc j <;> simp [hj]

theorem lagrangeBasis_of_distinct (h : DistinctXc xc m) (hi : i < m) :
    lagrangeBasis poly xc x i (List.range m) 0x01 = some (fieldProd poly (basisFactor poly (entry xc) x i) m) := by
  have hnone : ¬∃ j ∈ List.range m, j ≠ i ∧ entry xc i = entry xc j := fun ⟨j, hj, hne, heq⟩ =>
    hne (h i j hi (List.mem_range.mp hj) heq).symm
  rw [lagrangeBasis_eq, if_neg hnone, fieldProd_eq_foldl]

theorem lagrangeBasis_of_equal {j : Nat} (hj : j < m) (hne : j ≠ i) (heq : entry xc i = entry xc j) (b : Byte) :
    lagrangeBasis poly xc x i (List.range m) b = none := by
  rw [lagrangeBasis_eq, if_pos ⟨j, List.mem_range.mpr hj, hne, heq⟩]

theorem lagrangeSum_of_basis {basis : Nat → Byte} {is : List Nat} (acc : Byte)
    (h : ∀ i ∈ is, lagrangeBasis poly xc x i (List.range m) 0x01 = some (basis i)) :
    lagrangeSum poly xc py m x is acc =
      some (is.foldl (fun a i => gfAdd a (gfMul poly (entry py i) (basis i))) acc) := by
  induction is generalizing acc with
  | nil => rfl
  | cons i is ih =>
    obtain ⟨hi, his⟩ := List.forall_mem_cons.mp h
    rw [lagrangeSum, hi]
    exact ih _ his

theorem lagrangeSum_of_no_basis {is : List Nat} (acc : Byte) (hi : i ∈ is)
    (h : lagrangeBasis poly xc x i (List.range m) 0x01 = none) : lagrangeSum poly xc py m x is acc = none := by
  induction is generalizing acc with
  | nil => cases hi
  | cons k is ih =>
    rw [lagrangeSum]
    rcases List.mem_cons.mp hi with rfl | hi
    · rw [h]
    · cases lagrangeBasis poly xc x k (List.range m) 0x01 with
      | none => rfl
      | some b => exact ih _ hi

/-- On distinct coordinates `Lagrange` is the formula of R171. -/
theorem lagrange_of_distinct (h : DistinctXc xc m) (py : Vector Byte Config.slotCount) (x : Byte) :
    lagrange poly xc py m x = some (lagrangeValue poly (entry xc) (entry py) m x) := by
  rw [lagrange, lagrangeSum_of_basis _ fun i hi => lagrangeBasis_of_distinct h (List.mem_range.mp hi), lagrangeValue_eq,
    fieldSum_eq_foldl]

/-- On two equal coordinates `Lagrange` divides by zero (R173). -/
theorem lagrange_of_not_distinct (h : ¬DistinctXc xc m) (py : Vector Byte Config.slotCount) (x : Byte) :
    lagrange poly xc py m x = none := by
  unfold DistinctXc at h
  push Not at h
  obtain ⟨i, j, hi, hj, heq, hne⟩ := h
  exact lagrangeSum_of_no_basis _ (List.mem_range.mpr hi) (lagrangeBasis_of_equal hj hne.symm heq _)

end

/-! ### The command -/

theorem linterpBody_legal {cnt : BitVec 12} (hlow : 1 ≤ cnt.toNat) (hhigh : cnt.toNat ≤ 256) (x : Byte) (s : State) :
    linterpBody cnt x s = putResult (lagrange s.cfg.poly s.xc s.py cnt.toNat x) s :=
  withCount_legal ((countLegal_iff cnt).mpr ⟨hlow, hhigh⟩) _ s

/-- `LINTERP` with a legal count and distinct coordinates leaves the value of the Lagrange formula in `RESULT`. -/
theorem exec_linterp_endsAs {cnt : BitVec 12} (hlow : 1 ≤ cnt.toNat) (hhigh : cnt.toNat ≤ 256) (x : Byte) {s : State}
    (h : DistinctXc s.xc cnt.toNat) : EndsAs (exec (.linterp cnt x) s)
      { s with result := lagrangeValue s.cfg.poly (entry s.xc) (entry s.py) cnt.toNat x } .ok := by
  refine exec_endsAs ((linterpBody_legal hlow hhigh x s).trans ?_)
  rw [lagrange_of_distinct h]
  rfl

theorem exec_linterp_haltsFrom {cnt : BitVec 12} (hlow : 1 ≤ cnt.toNat) (hhigh : cnt.toNat ≤ 256) (x : Byte) {s : State}
    (h : ¬DistinctXc s.xc cnt.toNat) : HaltsFrom (exec (.linterp cnt x) s) s := by
  refine exec_haltsFrom ((linterpBody_legal hlow hhigh x s).trans ?_)
  rw [lagrange_of_not_distinct h]
  rfl

/-! ### The formula in the field of a legal modulus -/

/-- Subtraction is the same function as addition (R120). -/
theorem toRing_gfAdd_eq_sub (a b : Byte) : toRing poly (gfAdd a b) = toRing poly a - toRing poly b := by
  refine eq_sub_of_add_eq ?_
  rw [← toRing_gfAdd, gfAdd, gfAdd, BitVec.xor_assoc, BitVec.xor_self, BitVec.xor_zero]

theorem toRing_fieldSum (f : Nat → Byte) (n : Nat) :
    toRing poly (fieldSum f n) = ∑ i ∈ Finset.range n, toRing poly (f i) := by
  induction n with
  | zero => exact toRing_zero
  | succ n ih => rw [fieldSum, toRing_gfAdd, ih, Finset.sum_range_succ]

theorem toRing_fieldProd (hp : poly.getLsbD 8 = true) (f : Nat → Byte) (n : Nat) :
    toRing poly (fieldProd poly f n) = ∏ j ∈ Finset.range n, toRing poly (f j) := by
  induction n with
  | zero => exact toRing_one
  | succ n ih => rw [fieldProd, toRing_gfMul hp, ih, Finset.prod_range_succ]

theorem gfMul_quotient (hlegal : poly ∈ Config.legalPolys) (a : Byte) {b : Byte} (hb : b ≠ 0) :
    gfMul poly (quotient poly a b) b = a := by
  obtain ⟨r, hr, hiff⟩ := gfInv_spec hlegal hb
  rw [quotient, gfDiv_of_gfInv hr]
  exact gfMul_mul_inverse (bit8_of_legal hlegal) a ((hiff r).mpr rfl)

/-- The polynomial with the given coefficients, over the field; `toRing_polyValue` ties its value to the model's. -/
noncomputable def coefPoly (poly : BitVec 9) (c : Nat → Byte) (n : Nat) : (GFRing poly)[X] :=
  ∑ i ∈ Finset.range n, C (toRing poly (c i)) * X ^ i

theorem degree_coefPoly_lt (c : Nat → Byte) (n : Nat) : (coefPoly poly c n).degree < n := by
  refine mem_degreeLT.mp (Submodule.sum_mem _ fun i hi => mem_degreeLT.mpr ?_)
  exact (degree_C_mul_X_pow_le i _).trans_lt (by exact_mod_cast Finset.mem_range.mp hi)

theorem toRing_polyValue (hp : poly.getLsbD 8 = true) (c : Nat → Byte) (n : Nat) (x : Byte) :
    toRing poly (polyValue poly c n x) = (coefPoly poly c n).eval (toRing poly x) := by
  simp only [polyValue, toRing_fieldSum, toRing_gfMul hp, toRing_fieldPow hp, coefPoly, eval_finsetSum, eval_mul, eval_C,
    eval_pow, eval_X]

section
variable [Fact (Irreducible (bitPoly poly.toNat))] {xs : Nat → Byte} {m : Nat}

theorem toRing_quotient (hlegal : poly ∈ Config.legalPolys) (a : Byte) {b : Byte} (hb : b ≠ 0) :
    toRing poly (quotient poly a b) = toRing poly a / toRing poly b := by
  have hp := bit8_of_legal hlegal
  refine eq_div_of_mul_eq ((toRing_eq_zero_iff hp).not.mpr hb) ?_
  rw [← toRing_gfMul hp, gfMul_quotient hlegal a hb]

/-- The factors of R171 make the value of Mathlib's basis polynomial. -/
theorem toRing_fieldProd_basisFactor (hlegal : poly ∈ Config.legalPolys) (hinj : Set.InjOn xs (Finset.range m)) {i : Nat}
    (hi : i < m) (x : Byte) : toRing poly (fieldProd poly (basisFactor poly xs x i) m) =
      (Lagrange.basis (Finset.range m) (fun j => toRing poly (xs j)) i).eval (toRing poly x) := by
  have hi' := Finset.mem_range.mpr hi
  have hself : toRing poly (basisFactor poly xs x i i) = 1 := by rw [basisFactor, if_pos rfl, toRing_one]
  rw [toRing_fieldProd (bit8_of_legal hlegal), ← Finset.mul_prod_erase _ _ hi', hself, one_mul, Lagrange.basis, eval_prod]
  refine Finset.prod_congr rfl fun j hj => ?_
  obtain ⟨hne, hj⟩ := Finset.mem_erase.mp hj
  have hdiff : gfAdd (xs i) (xs j) ≠ 0 := fun h => hne (hinj hj hi' ((gfAdd_eq_zero_iff _ _).mp h).symm)
  rw [basisFactor, if_neg hne, toRing_quotient hlegal _ hdiff, toRing_gfAdd_eq_sub, toRing_gfAdd_eq_sub, div_eq_inv_mul]
  simp [Lagrange.basisDivisor]

/-- The formula of R171 is the value of Mathlib's interpolation polynomial. -/
theorem toRing_lagrangeValue (hlegal : poly ∈ Config.legalPolys) (hinj : Set.InjOn xs (Finset.range m)) (ys : Nat → Byte)
    (x : Byte) : toRing poly (lagrangeValue poly xs ys m x) =
      (Lagrange.interpolate (Finset.range m) (fun j => toRing poly (xs j)) fun j => toRing poly (ys j)).eval
        (toRing poly x) := by
  rw [lagrangeValue_eq, toRing_fieldSum, Lagrange.interpolate_apply, eval_finsetSum]
  refine Finset.sum_congr rfl fun i hi => ?_
  rw [toRing_gfMul (bit8_of_legal hlegal), toRing_fieldProd_basisFactor hlegal hinj (Finset.mem_range.mp hi), eval_mul,
    eval_C]

end

section
variable {xs : Nat → Byte} {m : Nat}

theorem injOn_toRing (hp : poly.getLsbD 8 = true) (hinj : Set.InjOn xs (Finset.range m)) :
    Set.InjOn (fun j => toRing poly (xs j)) (Finset.range m) :=
  (toRing_injective hp).comp_injOn hinj

/-- R174: the formula passes through its points. -/
theorem lagrangeValue_node (hlegal : poly ∈ Config.legalPolys) (hinj : Set.InjOn xs (Finset.range m)) (ys : Nat → Byte)
    {i : Nat} (hi : i < m) : lagrangeValue poly xs ys m (xs i) = ys i := by
  have hp := bit8_of_legal hlegal
  have : Fact (Irreducible (bitPoly poly.toNat)) := ⟨irreducible_of_legal hlegal⟩
  refine toRing_injective hp ?_
  rw [toRing_lagrangeValue hlegal hinj]
  exact Lagrange.eval_interpolate_at_node _ (injOn_toRing hp hinj) (Finset.mem_range.mpr hi)

/-- R176: a polynomial of at most `m` coefficients is determined by its values at `m` distinct points. -/
theorem lagrangeValue_polyValue (hlegal : poly ∈ Config.legalPolys) (hinj : Set.InjOn xs (Finset.range m))
    {c ys : Nat → Byte} {p : Nat} (hpm : p ≤ m) (hys : ∀ i < m, ys i = polyValue poly c p (xs i)) (x : Byte) :
    lagrangeValue poly xs ys m x = polyValue poly c p x := by
  have hp := bit8_of_legal hlegal
  have : Fact (Irreducible (bitPoly poly.toNat)) := ⟨irreducible_of_legal hlegal⟩
  have hdegree : (coefPoly poly c p).degree < (Finset.range m).card := by
    rw [Finset.card_range]
    exact (degree_coefPoly_lt c p).trans_le (by exact_mod_cast hpm)
  have hpoints : ∀ i ∈ Finset.range m, (coefPoly poly c p).eval (toRing poly (xs i)) = toRing poly (ys i) :=
    fun i hi => by rw [hys i (Finset.mem_range.mp hi), toRing_polyValue hp]
  refine toRing_injective hp ?_
  rw [toRing_lagrangeValue hlegal hinj, toRing_polyValue hp,
    Lagrange.eq_interpolate_of_eval_eq _ (injOn_toRing hp hinj) hdegree hpoints]

end

theorem injOn_of_distinct {xc : Vector Byte Config.slotCount} {m : Nat} (h : DistinctXc xc m) :
    Set.InjOn (entry xc) (Finset.range m) :=
  fun i hi j hj heq => h i j (Finset.mem_range.mp hi) (Finset.mem_range.mp hj) heq

end Sys2Proof.Machine

namespace Sys2Proof.Proofs

open Sys2Proof.Machine Sys2Proof.Safety

/-- Settles O21: the loops compute the formula, or stop at the first division by the difference of two equal coordinates. -/
theorem linterpCommand : Obligations.LinterpCommand := by
  unfold Obligations.LinterpCommand
  refine ⟨fun cnt x s hlow hhigh h => exec_linterp_endsAs hlow hhigh x h,
    fun cnt x s hlow hhigh h => exec_linterp_haltsFrom hlow hhigh x h, wordRuns_of_decodeV fun w hop => ?_⟩
  simp only [decode, hop]
  rfl

/-- Settles O22: the interpolation polynomial passes through its points. -/
theorem interpolationAtANode : Obligations.InterpolationAtANode := by
  unfold Obligations.InterpolationAtANode
  intro cnt i s ⟨hlegal, _⟩ hlow hhigh h hi
  have hvalue := lagrangeValue_node hlegal (injOn_of_distinct h) (entry s.py) hi
  have hend := exec_linterp_endsAs hlow hhigh (entry s.xc i) h
  rwa [hvalue] at hend

/-- Settles O23: the polynomial in `COEF` is the only one of degree below `m` through the `m` points. -/
theorem interpolationInvertsEvaluation : Obligations.InterpolationInvertsEvaluation := by
  unfold Obligations.InterpolationInvertsEvaluation
  intro m p s ⟨hlegal, _⟩ hlow hpm hhigh h hpoints x
  have hhorner (y : Byte) : s.horner p.toNat y = polyValue s.cfg.poly (entry s.coef) p.toNat y :=
    horner_eq_polyValue (bit8_of_legal hlegal) s.coef hlow y
  have hvalue : lagrangeValue s.cfg.poly (entry s.xc) (entry s.py) m.toNat x = s.horner p.toNat x :=
    (lagrangeValue_polyValue hlegal (injOn_of_distinct h) hpm
      (fun i hi => (hpoints i hi).trans (hhorner _)) x).trans (hhorner x).symm
  have hend := exec_linterp_endsAs (hlow.trans hpm) hhigh x h
  rw [hvalue] at hend
  exact ⟨hend, exec_peval_endsAs hlow (hpm.trans hhigh) x s⟩

end Sys2Proof.Proofs
end

section
/-! PROOF. O24, O33, O31 and O32: the checks of `SPLIT` and `COMBINE` (R192, R211), and the draws and exchanges of the shuffle
(R197 to R199). -/

namespace Sys2Proof.Machine

open Sys2Proof.Safety

/-! ### The checks of COMBINE -/

theorem combineLengths_iff (m : BitVec 12) (s : State) (hslots : s.cfg.nslot = 256) :
    CombineLengths m s ↔ ¬(m.toNat < 2 ∨ s.cfg.nslot < m.toNat) ∧
      ((List.range m.toNat).any fun j => decide ((entry s.shlen j).toNat < 2)) = false ∧
      ((List.range' 1 (m.toNat - 1)).any fun j => entry s.shlen j != entry s.shlen 0) = false := by
  simp only [CombineLengths, List.any_eq_false, List.mem_range, List.mem_range'_1, decide_eq_true_eq, bne_iff_ne, ne_eq,
    not_not, hslots]
  constructor
  · rintro ⟨hlow, hhigh, hlen⟩
    exact ⟨by omega, fun j hj => Nat.not_lt.mpr (hlen j hj).1, fun j hj => (hlen j (by omega)).2⟩
  · rintro ⟨hm, hshort, hequal⟩
    refine ⟨by omega, by omega, fun j hj => ⟨Nat.not_lt.mp (hshort j hj), ?_⟩⟩
    rcases Nat.eq_zero_or_pos j with rfl | hpos
    · rfl
    · exact hequal j (by omega)

/-! ### Draws of an index -/

theorem rngDraw_byte {s : State} {b : Byte} {rest : List Answer} (h : s.entropy = .ok b :: rest) :
    s.rngDraw = .byte b { s with entropy := rest } := by
  rw [State.rngDraw, h]

theorem rngDraw_fail {s : State} {rest : List Answer} (h : s.entropy = .fail :: rest) :
    s.rngDraw = .fail { s with entropy := rest } := by
  rw [State.rngDraw, h]

theorem rngDraw_waiting {s : State} (h : s.entropy = []) : s.rngDraw = .waiting := by
  rw [State.rngDraw, h]

/-- Rejected bytes are drawn past at the same `t`, each using up one of the draws allowed (R199). -/
theorem drawIndex_rejected {t tries : Nat} {s : State} {rejected : List Byte} {rest : List Answer}
    (hrej : ∀ b ∈ rejected, t < drawnIndex t b) (h : s.entropy = rejected.map .ok ++ rest) :
    drawIndex t (rejected.length + tries) s = drawIndex t tries { s with entropy := rest } := by
  induction rejected generalizing s with
  | nil =>
    obtain rfl : s.entropy = rest := h
    rw [List.length_nil, Nat.zero_add]
  | cons b rejected ih =>
    obtain ⟨hb, hrej⟩ := List.forall_mem_cons.mp hrej
    rw [List.length_cons, Nat.add_right_comm, drawIndex, rngDraw_byte h]
    simp only [if_neg (Nat.not_le.mpr hb)]
    exact ih hrej rfl

section
variable {t tries : Nat} {s : State} {rejected : List Byte} {rest : List Answer} (hrej : ∀ b ∈ rejected, t < drawnIndex t b)

include hrej

theorem drawIndex_accepted {b : Byte} (hlt : rejected.length < tries) (hb : drawnIndex t b ≤ t)
    (h : s.entropy = rejected.map .ok ++ .ok b :: rest) :
    drawIndex t tries s = .byte (b &&& drawMask t) { s with entropy := rest } := by
  obtain ⟨n, rfl⟩ := Nat.exists_eq_add_of_lt hlt
  rw [Nat.add_assoc, drawIndex_rejected hrej h, drawIndex, rngDraw_byte rfl]
  exact if_pos hb

theorem drawIndex_fail (hlt : rejected.length < tries) (h : s.entropy = rejected.map .ok ++ .fail :: rest) :
    drawIndex t tries s = .fail { s with entropy := rest } := by
  obtain ⟨n, rfl⟩ := Nat.exists_eq_add_of_lt hlt
  rw [Nat.add_assoc, drawIndex_rejected hrej h, drawIndex, rngDraw_fail rfl]

theorem drawIndex_unanswered (hlt : rejected.length < tries) (h : s.entropy = rejected.map .ok) :
    drawIndex t tries s = .waiting := by
  obtain ⟨n, rfl⟩ := Nat.exists_eq_add_of_lt hlt
  rw [Nat.add_assoc, drawIndex_rejected hrej (h.trans (List.append_nil _).symm), drawIndex, rngDraw_waiting rfl]

theorem drawIndex_exhausted (heq : rejected.length = tries) (h : s.entropy = rejected.map .ok ++ rest) :
    drawIndex t tries s = .fail { s with entropy := rest } :=
  heq ▸ drawIndex_rejected (tries := 0) hrej h

end

theorem drawMask_mem (t : Nat) : drawMask t ∈ [0x01#8, 0x03, 0x07, 0x0F, 0x1F, 0x3F, 0x7F, 0xFF] := by
  unfold drawMask
  split_ifs <;> simp

theorem drawMask_least {t : Nat} (ht : t ≤ 254) : t ≤ (drawMask t).toNat ∧
    ∀ m ∈ [0x01#8, 0x03, 0x07, 0x0F, 0x1F, 0x3F, 0x7F, 0xFF], t ≤ m.toNat → (drawMask t).toNat ≤ m.toNat := by
  unfold drawMask
  split_ifs <;> simp <;> omega

end Sys2Proof.Machine

namespace Sys2Proof.Proofs

open Sys2Proof.Machine Sys2Proof.Safety

/-- Settles O24: each check in its place, the earlier ones passed. -/
theorem splitValidation : Obligations.SplitValidation := by
  unfold Obligations.SplitValidation
  intro n k s
  have stop (e : ECode) (h : splitError n k s = some e) : EndsAs (exec (.split n k) s) s e :=
    exec_endsAs_error (splitBody_stop h)
  unfold splitError at stop
  refine ⟨fun hk => stop _ (if_pos hk), fun hk hk' hn => stop _ ?count, fun hk hkn hn hlen => stop _ ?empty,
    fun hk hkn hn hlen hlmax => stop _ ?length⟩
  case count => rw [if_neg (by omega), if_pos hn]
  case empty => rw [if_neg (by omega), if_neg (by omega), if_pos hlen]
  case length => rw [if_neg (by omega), if_neg (by omega), if_neg hlen, if_pos hlmax]

/-- Settles O33: a failing check of R211 stops the command before anything is written. -/
theorem combineValidation : Obligations.CombineValidation := by
  unfold Obligations.CombineValidation
  intro m s ⟨_, _, _, _, hslots⟩
  have stop (e : ECode) (h : combineError m s = some e) : EndsAs (exec (.combine m) s) s e :=
    exec_endsAs_error (combineBody_stop h)
  have hlengths := combineLengths_iff m s hslots
  unfold combineError at stop
  refine ⟨fun h => stop _ ?lengths, fun h hlong => stop _ ?long, fun h hlong hdistinct => stop _ ?distinct⟩
  case lengths =>
    split_ifs with hm hshort hequal
    · rfl
    · rfl
    · rfl
    all_goals exact absurd (hlengths.mpr ⟨hm, Bool.not_eq_true _ ▸ hshort, Bool.not_eq_true _ ▸ hequal⟩) h
  all_goals
    obtain ⟨hm, hshort, hequal⟩ := hlengths.mp h
    rw [if_neg hm, hshort, if_neg Bool.false_ne_true, hequal, if_neg Bool.false_ne_true]
  case long => rw [if_pos hlong]
  case distinct =>
    rw [if_neg (Nat.not_lt.mpr hlong), if_pos]
    exact Bool.eq_true_of_not_eq_false ((sameCoordinate_eq_false m s).not.mpr hdistinct)

/-- Settles O31: the mask by the ranges of `t`, and the draws by the rejected bytes they begin with. -/
theorem drawIndexStaysInRange : Obligations.DrawIndexStaysInRange := by
  unfold Obligations.DrawIndexStaysInRange
  refine ⟨fun t _ ht => ⟨drawMask_mem t, drawMask_least ht⟩, fun t tries s u r h => ?_, fun t tries s rejected hrej => ?_⟩
  · rcases drawIndex_cases t tries s with ⟨h', _⟩ | ⟨_, _, _, _, h'⟩ | ⟨_, _, r', _, _, _, hr, h'⟩ <;> rw [h'] at h
    · nomatch h
    · nomatch h
    · obtain ⟨rfl, _⟩ := Drawn.byte.inj h
      exact hr
  · exact ⟨fun b rest hlt hb h => drawIndex_accepted hrej hlt hb h, fun rest hlt h => drawIndex_fail hrej hlt h,
      fun hlt h => drawIndex_unanswered hrej hlt h, fun rest heq h => drawIndex_exhausted hrej heq h⟩

/-- Settles O32: the exchanges are inside the first 255 entries. -/
theorem shuffleKeepsAPermutation : Obligations.ShuffleKeepsAPermutation := by
  unfold Obligations.ShuffleKeepsAPermutation
  refine ⟨fun s hst => ?_, fun s hst hlow hhigh hperm => ?_⟩
  · simp only [coreTransition, hst, true_and]
    exact identityXc_permutes (clearShlen s)
  · have exchanged (r : Nat) (rest : List Answer) (hr : r ≤ s.seq.t) :
        PermutesNonzero (exchangeXc s.seq.t r { s with entropy := rest }).xc :=
      exchangeXc_permutes (s := { s with entropy := rest }) (by omega) (by omega) hperm
    simp only [coreTransition, hst]
    rcases shuffleVisit_cases s with
      hv | ⟨rest, hv⟩ | ⟨rest, _, hv⟩ | ⟨r, rest, hr, _, hv⟩ | ⟨r, rest, hr, hmore, hv⟩ <;> rw [hv]
    · exact ⟨hperm, fun _ => ⟨hlow, hhigh⟩⟩
    · exact ⟨hperm, by simp⟩
    · exact ⟨hperm, fun _ => ⟨hlow, hhigh⟩⟩
    · exact ⟨exchanged r rest hr, by simp⟩
    · exact ⟨exchanged r rest hr, fun _ => ⟨Nat.le_sub_one_of_lt hmore, (Nat.sub_le _ _).trans hhigh⟩⟩

end Sys2Proof.Proofs
end

section
/-! PROOF. O34: the run of `COMBINE` past its checks (R214 to R216). -/

namespace Sys2Proof.Machine

open Sys2Proof.Safety

/-! ### The formula depends on the points below `m` only -/

theorem fieldSum_congr {f g : Nat → Byte} {n : Nat} (h : ∀ i < n, f i = g i) : fieldSum f n = fieldSum g n := by
  induction n with
  | zero => rfl
  | succ n ih => rw [fieldSum, fieldSum, h n (Nat.lt_succ_self n), ih fun i hi => h i (Nat.lt_succ_of_lt hi)]

theorem fieldProd_congr {poly : BitVec 9} {f g : Nat → Byte} {n : Nat} (h : ∀ i < n, f i = g i) :
    fieldProd poly f n = fieldProd poly g n := by
  induction n with
  | zero => rfl
  | succ n ih => rw [fieldProd, fieldProd, h n (Nat.lt_succ_self n), ih fun i hi => h i (Nat.lt_succ_of_lt hi)]

theorem lagrangeValue_congr {poly : BitVec 9} {xs xs' ys ys' : Nat → Byte} {m : Nat} (hx : ∀ i < m, xs i = xs' i)
    (hy : ∀ i < m, ys i = ys' i) (x : Byte) : lagrangeValue poly xs ys m x = lagrangeValue poly xs' ys' m x := by
  rw [lagrangeValue_eq, lagrangeValue_eq]
  refine fieldSum_congr fun i hi => ?_
  rw [hy i hi, fieldProd_congr fun j hj => ?_]
  rw [basisFactor, basisFactor, hx i hi, hx j hj]

/-! ### The byte positions -/

/-- What the first `n` byte positions of `COMBINE m` have made of `u`, whose coordinates are loaded (R215). -/
structure CombinedTo (m : Nat) (u : State) (n : Nat) (v : State) : Prop where
  frame : v = { u with py := v.py, mem := v.mem }
  wf : Memory.wf v.mem
  points : ∀ j, entry v.py j = if j < m ∧ 0 < n then u.share j (n - 1) else entry u.py j
  secret : ∀ o, o < n → v.secret o = lagrangeValue u.cfg.poly (entry u.xc) (fun j => u.share j o) m 0x00
  memory : ∀ a, (∀ o, o < n → a ≠ secretAddr o) → v.memRead a = u.memRead a

/-- No secret cell is a share cell, so the shares stay. -/
theorem CombinedTo.share {m n : Nat} {u v : State} (h : CombinedTo m u n v) {j o : Nat} (hj : j < 256)
    (ho : o < 0x10000) : v.share j o = u.share j o :=
  h.memory _ fun x _ => shareAddr_ne_secretAddr hj ho x

theorem State.secret_setSecret {s : State} (h : Memory.wf s.mem) (i o : Nat) (b : Byte) :
    (s.setSecret i b).secret o = if o = i then b else s.secret o := by
  rw [State.secret, State.setSecret, State.memRead_memWrite s h]
  simp only [secretAddr_inj]
  rfl

theorem interpolateByte_some {m i : Nat} {s : State} {b : Byte} (h : s.lagrange m 0x00 = some b) :
    interpolateByte m i s = (.ok, s.setSecret i b) := by
  rw [interpolateByte, h]

theorem interpolateByte_none {m i : Nat} {s : State} (h : s.lagrange m 0x00 = none) :
    interpolateByte m i s = (.fatal, s) := by
  rw [interpolateByte, h]

theorem CombinedTo.byte {m n : Nat} {u v : State} (h : CombinedTo m u n v) (hm : m ≤ 256) (hn : n < 0x10000)
    (hdistinct : DistinctXc u.xc m) : ∃ w, combineByte m n v = (.ok, w) ∧ CombinedTo m u (n + 1) w := by
  have hy : loadY m n v = { u with py := (loadY m n v).py, mem := v.mem } :=
    (loadY_frame m n v).trans (by rw [h.frame])
  have hpy (j : Nat) : entry (loadY m n v).py j = if j < m then u.share j n else entry u.py j := by
    rw [loadY_entry m n hm, h.points]
    by_cases hj : j < m
    · rw [if_pos hj, if_pos hj, h.share (by omega) hn]
    · rw [if_neg hj, if_neg hj, if_neg fun hj' => hj hj'.1]
  have hcombine : combineByte m n v = interpolateByte m n (loadY m n v) := rfl
  generalize loadY m n v = y at hy hpy hcombine
  have hmem : y.mem = v.mem := by rw [hy]
  have hread (a : Nat) : y.memRead a = v.memRead a := by rw [hy, h.frame]; rfl
  have hwf : Memory.wf y.mem := hmem ▸ h.wf
  have hvalue : y.lagrange m 0x00 = some (lagrangeValue u.cfg.poly (entry u.xc) (fun j => u.share j n) m 0x00) := by
    rw [State.lagrange, hy, lagrange_of_distinct hdistinct,
      lagrangeValue_congr (fun _ _ => rfl) fun j hj => (hpy j).trans (if_pos hj)]
  refine ⟨_, hcombine.trans (interpolateByte_some hvalue), ?_, Memory.wf_store _ hwf _ _, ?_, fun o ho => ?_, fun a ha => ?_⟩
  · rw [hy]
    rfl
  · exact fun j => (hpy j).trans (by simp)
  · rw [State.secret_setSecret hwf]
    split_ifs with heq
    · rw [heq]
    · exact (hread _).trans (h.secret o (by omega))
  · rw [State.setSecret, State.memRead_memWrite y hwf, if_neg (ha n (Nat.lt_succ_self n)), hread]
    exact h.memory a fun o ho => ha o (Nat.lt_succ_of_lt ho)

theorem combineBytes_run {m n : Nat} {u : State} (hwf : Memory.wf u.mem) (hm : m ≤ 256) (hn : n ≤ 0x10000)
    (hdistinct : DistinctXc u.xc m) :
    ∃ v, forEach (List.range n) (combineByte m) u = (.ok, v) ∧ CombinedTo m u n v := by
  induction n with
  | zero => exact ⟨u, rfl, rfl, hwf, by simp, by simp, fun _ _ => rfl⟩
  | succ n ih =>
    obtain ⟨v, hv, hcomb⟩ := ih (by omega)
    obtain ⟨w, hw, hcomb'⟩ := hcomb.byte hm hn hdistinct
    refine ⟨w, ?_, hcomb'⟩
    rw [List.range_succ, forEach_append, Body.andThen_ok hv, forEach_cons, Body.andThen_ok hw, forEach_nil]

/-! ### The command -/

/-- Coordinates loaded from shares with distinct trailing bytes are distinct. -/
theorem loadX_distinct {m : BitVec 12} {s : State} (hm : m.toNat ≤ 256) (h : CombineDistinct m s) :
    DistinctXc (loadX m.toNat s).xc m.toNat := by
  intro i j hi hj hij
  rw [loadX_entry _ hm, loadX_entry _ hm, if_pos hi, if_pos hj] at hij
  by_contra hne
  exact h i j hi hj hne hij

/-- A `COMBINE` that passes its checks runs to its end. -/
theorem combineBody_run {m : BitVec 12} {s : State} (hwf : Memory.wf s.mem) (hm : m.toNat ≤ 256)
    (h : combineError m s = none) (hdistinct : CombineDistinct m s) :
    ∃ v, combineBody m s = (.ok, setCombinedLen v) ∧ CombinedTo m.toNat (loadX m.toNat s) s.combinedLen v := by
  have hlen : s.combinedLen ≤ 0x10000 := (Nat.sub_le _ _).trans (entry s.shlen 0).isLt.le
  obtain ⟨v, hv, hcomb⟩ := combineBytes_run (u := loadX m.toNat s) ((loadX_mem m.toNat s).symm ▸ hwf) hm hlen
    (loadX_distinct hm hdistinct)
  exact ⟨v, by rw [combineBody_go h, Body.andThen_ok hv], hcomb⟩

end Sys2Proof.Machine

namespace Sys2Proof.Proofs

open Sys2Proof.Machine Sys2Proof.Safety

/-- Settles O34: the byte positions write secret cells, so each of them reads the shares as they were. -/
theorem combineRun : Obligations.CombineRun := by
  unfold Obligations.CombineRun
  intro m s hcfg hwf hlengths hlong hdistinct
  obtain ⟨_, _, hlmax, _, hslots⟩ := hcfg
  have hm := hlengths.2.1
  have hlen := combinedLen_le hlengths hlong
  obtain ⟨v, hrun, hcomb⟩ := combineBody_run hwf hm
    ((combineError_eq_none m s hslots).mpr ⟨hlengths, hlong, hdistinct⟩) hdistinct
  have hx := loadX_entry m.toNat hm s
  have hload := loadX_frame m.toNat s
  generalize loadX m.toNat s = u at hcomb hx hload
  have hv : v = { s with xc := u.xc, py := v.py, mem := v.mem } := hcomb.frame.trans (by rw [hload])
  have hread (a : Nat) : u.memRead a = s.memRead a := by rw [hload]; rfl
  have hlast : BitVec.ofNat 16 s.combinedLen = entry s.shlen 0 - 1 := by
    have hfirst := hlen.1
    unfold State.combinedLen at hfirst ⊢
    generalize entry s.shlen 0 = l at hfirst
    bv_omega
  refine ⟨(setCombinedLen v).endOk, ?ends, runCommand_ok hrun, fun j => ?xc, fun j => ?py, fun o ho => ?secret,
    fun a ha => ?memory⟩
  case ends =>
    have hend : setCombinedLen v = { s with len := entry s.shlen 0 - 1, xc := v.xc, py := v.py, mem := v.mem } := by
      rw [← hlast, hv]
      rfl
    exact hend ▸ exec_endsAs hrun
  case xc => exact (congrArg (fun w : State => entry w.xc j) hv).trans (hx j)
  case py =>
    refine (hcomb.points j).trans ?_
    have hpy : u.py = s.py := by rw [hload]
    have htwo : (entry s.shlen 0).toNat - 2 = s.combinedLen - 1 := (Nat.sub_sub _ 1 1).symm
    have hshare : u.share j (s.combinedLen - 1) = s.share j (s.combinedLen - 1) := hread _
    simp only [htwo, hpy, hshare, Nat.lt_of_lt_of_le Nat.zero_lt_one hlen.1, and_true]
  case secret =>
    refine (hcomb.secret o ho).trans ?_
    have hpoly : u.cfg.poly = s.cfg.poly := by rw [hload]
    rw [hpoly]
    exact lagrangeValue_congr (fun j hj => (hx j).trans (if_pos hj)) (fun j _ => hread _) _
  case memory => exact (hcomb.memory a ha).trans (hread a)

end Sys2Proof.Proofs
end

section
/-! PROOF. O40 and O55: how each piece of pseudocode can leave off (R218), and the transitions of the core (R221). -/

namespace Sys2Proof.Machine

open Sys2Proof.Safety

/-! ### How sequences and loops leave off -/

theorem Body.andThen_exit {E : Exit → Prop} {p q : Body} (hp : ∀ s, E (p s).1) (hq : ∀ s, E (q s).1) (s : State) :
    E (Body.andThen p q s).1 := by
  rcases Body.andThen_cases p q s with ⟨t, _, h⟩ | ⟨_, h⟩ <;> rw [h]
  · exact hq t
  · exact hp s

theorem forEach_exit {E : Exit → Prop} (hok : E .ok) {is : List Nat} {f : Nat → Body} (hf : ∀ i ∈ is, ∀ s, E (f i s).1)
    (s : State) : E (forEach is f s).1 := by
  induction is generalizing s with
  | nil => exact hok
  | cons i is ih =>
    obtain ⟨hi, his⟩ := List.forall_mem_cons.mp hf
    exact Body.andThen_exit hi (ih his) s

/-! ### Pseudocode that draws -/

/-- How pseudocode that draws can leave off: at its end, at an unanswered draw, or at a failing one. -/
def DrawExit (x : Exit) : Prop := x = .ok ∨ x = .waiting ∨ x = .error .randomnessFailure

theorem generate_exit (cnt : Nat) (c0 : Byte) (s : State) : DrawExit (generate cnt c0 s).1 := by
  refine forEach_exit (E := DrawExit) (.inl rfl) (fun c _ t => ?_) _
  rcases drawCoef_cases c t with ⟨_, h⟩ | ⟨_, _, h⟩ | ⟨_, _, _, h⟩ <;> rw [h]
  · exact .inr (.inl rfl)
  · exact .inr (.inr rfl)
  · exact .inl rfl

theorem shuffle_exit (s : State) : DrawExit (shuffle s).1 := by
  unfold shuffle
  refine forEach_exit (E := DrawExit) (.inl rfl) (fun t _ u => ?_) _
  rcases shuffleAt_cases t u with h | ⟨_, h⟩ | ⟨_, _, _, h⟩ <;> rw [h]
  · exact .inr (.inl rfl)
  · exact .inr (.inr rfl)
  · exact .inl rfl

theorem splitByte_exit (n k i : Nat) (s : State) : DrawExit (splitByte n k i s).1 :=
  Body.andThen_exit (E := DrawExit) (fun t => generate_exit k (t.secret i) t) (fun _ => .inl rfl) s

/-- Past its checks `SPLIT` raises no other error than that of a failing draw. -/
theorem splitBody_exit {n k : BitVec 12} {s : State} (h : splitError n k s = none) : DrawExit (splitBody n k s).1 := by
  rw [splitBody_go h]
  exact Body.andThen_exit shuffle_exit (Body.andThen_exit
    (forEach_exit (.inl rfl) fun i _ t => splitByte_exit _ _ i t) fun _ => .inl rfl) _

theorem DrawExit.ne_fatal {x : Exit} (h : DrawExit x) : x ≠ .fatal := by
  rcases h with rfl | rfl | rfl <;> simp

/-! ### Pseudocode that raises `Fatal(DivideByZero)` -/

theorem putResult_fatal {v : Option Byte} {s : State} (h : (putResult v s).1 = .fatal) : v = none := by
  cases v with
  | none => rfl
  | some r => nomatch h

theorem withCount_fatal {cnt : BitVec 12} {body : Body} {s : State} (h : (withCount cnt body s).1 = .fatal) :
    (body s).1 = .fatal := by
  cases hc : countLegal cnt with
  | true => rwa [withCount_legal hc] at h
  | false =>
    rw [withCount_illegal hc] at h
    nomatch h

/-- R218: the three causes, by the pseudocode that raises. -/
theorem bodyOf_fatal {i : Instr} {s : State} (hcfg : s.cfg.Legal) (hwf : Memory.wf s.mem)
    (h : (bodyOf i s).1 = .fatal) : i = .gfinv 0x00 ∨ (∃ a, i = .gfdiv a 0x00) ∨
      (∃ cnt x, i = .linterp cnt x ∧ ¬DistinctXc s.xc cnt.toNat) := by
  cases i with
  | gfadd a b => nomatch h
  | gfmul a b => nomatch h
  | gfinv a => exact .inl (congrArg Instr.gfinv ((gfInv_eq_none _ a).mp (putResult_fatal h)))
  | gfdiv a b => exact .inr (.inl ⟨a, congrArg (Instr.gfdiv a) ((gfDiv_eq_none _ a b).mp (putResult_fatal h))⟩)
  | pgen cnt c0 => exact absurd (withCount_fatal h) (generate_exit _ c0 s).ne_fatal
  | peval cnt x =>
    rw [bodyOf, pevalBody] at h
    exact absurd (withCount_fatal h) (by rw [putResult_some]; simp)
  | linterp cnt x =>
    refine .inr (.inr ⟨cnt, x, rfl, fun hdistinct => ?_⟩)
    have hnone : s.lagrange cnt.toNat x = none := putResult_fatal (withCount_fatal h)
    rw [State.lagrange, lagrange_of_distinct hdistinct] at hnone
    nomatch hnone
  | split n k =>
    change (splitBody n k s).1 = .fatal at h
    cases he : splitError n k s with
    | none => exact absurd h (splitBody_exit he).ne_fatal
    | some e =>
      rw [splitBody_stop he] at h
      nomatch h
  | combine m =>
    change (combineBody m s).1 = .fatal at h
    cases he : combineError m s with
    | none =>
      obtain ⟨_, _, _, _, hslots⟩ := hcfg
      obtain ⟨⟨_, hm, _⟩, _, hdistinct⟩ := (combineError_eq_none m s hslots).mp he
      obtain ⟨v, hrun, _⟩ := combineBody_run hwf hm he hdistinct
      rw [hrun] at h
      nomatch h
    | some e =>
      rw [combineBody_stop he] at h
      nomatch h

/-! ### The word behind a state of the machine -/

/-- In `EVAL` and `INTERP` the latched word is one of format V, with a legal count. -/
theorem countLegal_of_wordInv {s : State} (h : WordInv s) (hst : s.seq.st = .eval ∨ s.seq.st = .interp) :
    countLegal s.opN = true := by
  obtain ⟨i, hi, hmem⟩ := h (by rcases hst with hst | hst <;> simp [hst])
  obtain ⟨hwf, hw⟩ := decode_eq_ok_iff.mp hi
  cases i with
  | peval cnt x | linterp cnt x =>
    rw [State.opN, ← hw, encode, fieldN_encodeV, countLegal_eq_cntInRange]
    exact hwf
  | _ => rcases hst with hst | hst <;> simp [hst, statesOf] at hmem

/-! ### The transitions of the table -/

theorem toFinish_atFinish (s : State) {e : ECode} {codes : List ECode} (h : e ∈ codes) :
    AtFinish (s.toFinish e) codes := ⟨rfl, h⟩

theorem leave_putResult (v : Option Byte) (s : State) :
    AtFinish (leave (putResult v s)) [.ok] ∨ (leave (putResult v s)).seq.st = .halt := by
  cases v with
  | none => exact .inr rfl
  | some r => exact .inl (toFinish_atFinish _ (by simp))

theorem splitError_mem {n k : BitVec 12} {s : State} {e : ECode} (h : splitError n k s = some e) :
    e ∈ [ECode.invalidThreshold, .invalidCount, .emptySecret, .invalidLength] := by
  unfold splitError at h
  split_ifs at h <;> cases h <;> simp

theorem combineError_mem {m : BitVec 12} {s : State} {e : ECode} (h : combineError m s = some e) :
    e ∈ [ECode.invalidShares, .invalidLength] := by
  unfold combineError at h
  split_ifs at h <;> cases h <;> simp

end Sys2Proof.Machine

namespace Sys2Proof.Proofs

open Sys2Proof.Machine Sys2Proof.Safety

/-- Settles O40: only pseudocode that raises enters the fatal state, and the interpolation of `COMBINE` never raises. -/
theorem fatalHasThreeCauses : Obligations.FatalHasThreeCauses := by
  unfold Obligations.FatalHasThreeCauses
  intro i s t hcfg hwf hfatal h ht
  have hkeeps : (bodyOf i s).2.fatal = false := (congrArg State.fatal (bodyOf_dataWrites i s)).trans hfatal
  rcases exec_cases h with ⟨_, rfl⟩ | ⟨_, _, rfl⟩ | ⟨hraise, _⟩ | ⟨_, rfl⟩
  · exact absurd ht (by simp [hkeeps])
  · exact absurd ht (by simp [hkeeps])
  · exact bodyOf_fatal hcfg hwf hraise
  · exact absurd ht (by simp [hfatal])

theorem followsTable_decode {s : State} (hst : s.seq.st = .decode) : FollowsTable s (coreTransition s) := by
  simp only [FollowsTable, coreTransition, hst, leaveDecode]
  cases hd : decode s.cmdl with
  | illegal why => exact .inl ⟨toFinish_atFinish s (by simp), why, rfl⟩
  | ok i =>
    have hop : s.op = fieldOp (encode i) := congrArg fieldOp (encode_of_decode hd).2.symm
    cases i with
    | gfadd _ _ | gfmul _ _ | gfinv _ | gfdiv _ _ => exact .inr (.inl ⟨rfl, by simp [hop, encode, Laws.fieldOp_encodeS]⟩)
    | pgen cnt c0 => exact .inr (.inr (.inl ⟨rfl, hop.trans (Laws.OpcodeByte.pgen cnt c0)⟩))
    | peval cnt x => exact .inr (.inr (.inr (.inl ⟨rfl, hop.trans (Laws.OpcodeByte.peval cnt x)⟩)))
    | linterp cnt x => exact .inr (.inr (.inr (.inr (.inl ⟨rfl, hop.trans (Laws.OpcodeByte.linterp cnt x)⟩))))
    | split n k => exact .inr (.inr (.inr (.inr (.inr (.inl ⟨rfl, hop.trans (Laws.OpcodeByte.split n k)⟩)))))
    | combine m => exact .inr (.inr (.inr (.inr (.inr (.inr ⟨rfl, hop.trans (Laws.OpcodeByte.combine m)⟩)))))

theorem followsTable_field {s : State} (hst : s.seq.st = .field) : FollowsTable s (coreTransition s) := by
  simp only [FollowsTable, coreTransition, hst]
  unfold fieldWork
  split_ifs <;> exact leave_putResult _ s

theorem followsTable_gen {s : State} (hst : s.seq.st = .gen) : FollowsTable s (coreTransition s) := by
  simp only [FollowsTable, coreTransition, hst]
  rcases coefVisit_cases s.opN.toNat s.opX (fun t => t.toFinish .ok) s with
    hv | ⟨rest, hv⟩ | ⟨v, rest, _, hv⟩ | ⟨v, rest, _, hv⟩ <;> rw [hv]
  · exact .inl hst
  · exact .inr (toFinish_atFinish _ (by simp))
  · exact .inr (toFinish_atFinish _ (by simp))
  · exact .inl hst

theorem followsTable_spShuffle {s : State} (hst : s.seq.st = .spShuffle) (ht : 1 ≤ s.seq.t) :
    FollowsTable s (coreTransition s) := by
  simp only [FollowsTable, coreTransition, hst]
  rcases shuffleVisit_cases s with
    hv | ⟨rest, hv⟩ | ⟨rest, _, hv⟩ | ⟨r, rest, _, hlast, hv⟩ | ⟨r, rest, _, hmore, hv⟩ <;> rw [hv]
  · exact .inl ⟨hst, .inl rfl⟩
  · exact .inr (.inr (toFinish_atFinish _ (by simp)))
  · exact .inl ⟨hst, .inl rfl⟩
  · exact .inr (.inl ⟨by omega, rfl, rfl⟩)
  · exact .inl ⟨hst, .inr ⟨hmore, rfl⟩⟩

theorem followsTable_spCoef {s : State} (hst : s.seq.st = .spCoef) : FollowsTable s (coreTransition s) := by
  simp only [FollowsTable, coreTransition, hst]
  rcases coefVisit_cases s.opK.toNat (s.secret s.seq.i) (fun t => t.goto .spEval) s with
    hv | ⟨rest, hv⟩ | ⟨v, rest, _, hv⟩ | ⟨v, rest, _, hv⟩ <;> rw [hv]
  · exact .inl ⟨.inl hst, rfl⟩
  · exact .inr (toFinish_atFinish _ (by simp))
  · exact .inl ⟨.inr rfl, rfl⟩
  · exact .inl ⟨.inl hst, rfl⟩

theorem followsTable_spEval {s : State} (hst : s.seq.st = .spEval) (hi : s.seq.i < s.len.toNat) :
    FollowsTable s (coreTransition s) := by
  simp only [FollowsTable, coreTransition, hst]
  split_ifs with hnext
  · exact .inl ⟨hnext, rfl, rfl⟩
  · exact .inr ⟨by omega, rfl⟩

theorem followsTable_cbInterp {s : State} (hinv : Inv s) (hst : s.seq.st = .cbInterp) :
    FollowsTable s (coreTransition s) := by
  have hi := hinv.combine.position (by simp [hst])
  obtain ⟨_, hdistinct⟩ := hinv.combine.loaded (by simp [hst])
  simp only [FollowsTable, coreTransition, hst]
  rcases interpolateByte_cases s.opN.toNat s.seq.i s with ⟨b, _, hv⟩ | ⟨hnone, _⟩
  · rw [hv]
    simp only
    split_ifs with hnext
    · exact .inl ⟨hnext, rfl, rfl⟩
    · exact .inr ⟨by omega, rfl⟩
  · rw [State.lagrange, lagrange_of_distinct hdistinct] at hnone
    nomatch hnone

/-- Settles O55, state by state: the invariant gives the ranges of `t` and `i`, a legal count, and distinct coordinates. -/
theorem transitionsFollowTheTable : Obligations.TransitionsFollowTheTable := by
  unfold Obligations.TransitionsFollowTheTable
  intro s hinv
  cases hst : s.seq.st with
  | decode => exact followsTable_decode hst
  | field => exact followsTable_field hst
  | gen => exact followsTable_gen hst
  | spShuffle => exact followsTable_spShuffle hst (hinv.split.shuffling hst).1
  | spCoef => exact followsTable_spCoef hst
  | spEval => exact followsTable_spEval hst (hinv.split.position (by simp [hst]))
  | cbInterp => exact followsTable_cbInterp hinv hst
  | eval =>
    simp only [FollowsTable, coreTransition, hst]
    rw [pevalBody, withCount_legal (countLegal_of_wordInv hinv.word (.inl hst))]
    exact toFinish_atFinish _ (by simp)
  | interp =>
    simp only [FollowsTable, coreTransition, hst]
    rw [linterpBody, withCount_legal (countLegal_of_wordInv hinv.word (.inr hst))]
    exact leave_putResult _ s
  | spCheck =>
    simp only [FollowsTable, coreTransition, hst]
    cases he : splitError s.opN s.opK s with
    | none => exact .inl rfl
    | some e => exact .inr (toFinish_atFinish s (splitError_mem he))
  | cbCheck =>
    simp only [FollowsTable, coreTransition, hst]
    cases he : combineError s.opN s with
    | none => exact .inl rfl
    | some e => exact .inr (toFinish_atFinish s (combineError_mem he))
  | spTail | cbLen =>
    simp only [FollowsTable, coreTransition, hst]
    exact toFinish_atFinish _ (by simp)
  | cbLoadY =>
    simp only [FollowsTable, coreTransition, hst]
    rw [loadY_frame]
    exact ⟨rfl, rfl⟩
  | idle | halt | spClear | cbLoadX | finish => simp [FollowsTable, coreTransition, hst, Seq.start]

end Sys2Proof.Proofs
end

section
/-! PROOF. The machine of R220 and R221 against the one-step pseudocode (R222): what it means that the machine realises a
piece of pseudocode, and that sequences and loops of realised pieces are realised. -/

namespace Sys2Proof.Machine

open Sys2Proof.Safety

/-! ### Reaching a state -/

/-- Some number of transitions of the core leads from `s` to `t`. -/
def Reaches (s t : State) : Prop := ∃ count, transitions count s = t

theorem Reaches.refl (s : State) : Reaches s s := ⟨0, rfl⟩

theorem transitions_add (a b : Nat) (s : State) : transitions (a + b) s = transitions b (transitions a s) := by
  induction a generalizing s with
  | zero => rw [Nat.zero_add, transitions]
  | succ a ih => rw [Nat.add_right_comm, transitions, transitions, ih]

theorem Reaches.trans {s t u : State} (hst : Reaches s t) (htu : Reaches t u) : Reaches s u := by
  obtain ⟨a, rfl⟩ := hst
  obtain ⟨b, rfl⟩ := htu
  exact ⟨a + b, transitions_add a b s⟩

theorem Reaches.step {s t : State} (h : coreTransition s = t) : Reaches s t := ⟨1, h⟩

/-! ### States with another sequencing state

The one-step pseudocode neither reads nor writes the sequencing state, so the machine's state is the pseudocode's with a
sequencing state of its own. -/

/-- `s` with the sequencing state `q`. -/
def State.withSeq (s : State) (q : Seq) : State := { s with seq := q }

@[simp] theorem State.withSeq_seq (s : State) (q : Seq) : (s.withSeq q).seq = q := rfl

@[simp] theorem State.withSeq_withSeq (s : State) (q q' : Seq) : (s.withSeq q).withSeq q' = s.withSeq q' := rfl

/-- A loop of writes that keep out of the sequencing state does the same whatever it is. -/
theorem foldl_withSeq {g : State → Nat → State} {q : Seq} (hg : ∀ s j, g (s.withSeq q) j = (g s j).withSeq q)
    (js : List Nat) (s : State) : js.foldl g (s.withSeq q) = (js.foldl g s).withSeq q := by
  induction js generalizing s with
  | nil => rfl
  | cons j js ih => rw [List.foldl_cons, hg, ih, List.foldl_cons]

/-- From `END` the machine ends the command with the code it carries. -/
theorem reaches_raiseError {m u : State} {q : Seq} {e : ECode} (h : coreTransition m = (u.withSeq q).toFinish e) :
    Reaches m (u.raiseError e) :=
  (Reaches.step h).trans (Reaches.step rfl)

/-! ### Realising pseudocode -/

/-- From `m` the machine gets where the pseudocode left off as `r`: to a state of `Q`, or to the end of the command. -/
def Realises (Q : State → Seq → Prop) (m : State) (r : Exit × State) : Prop :=
  match r.1 with
  | .ok => ∃ q, Reaches m (r.2.withSeq q) ∧ Q r.2 q
  | .error e => Reaches m (r.2.raiseError e)
  | .fatal => Reaches m r.2.raiseFatal
  | .waiting => True

/-- From every state of `P` the machine realises the pseudocode `p`, arriving in `Q`. -/
def Stage (P : State → Seq → Prop) (p : Body) (Q : State → Seq → Prop) : Prop :=
  ∀ s q, P s q → Realises Q (s.withSeq q) (p s)

theorem Realises.of_reaches {Q : State → Seq → Prop} {m m' : State} {r : Exit × State} (h : Reaches m m')
    (hr : Realises Q m' r) : Realises Q m r := by
  obtain ⟨x, u⟩ := r
  cases x with
  | ok =>
    obtain ⟨q, hq, hQ⟩ := hr
    exact ⟨q, h.trans hq, hQ⟩
  | error e => exact h.trans hr
  | fatal => exact h.trans hr
  | waiting => trivial

/-- One transition to the state that the pseudocode leaves. -/
theorem realises_step {Q : State → Seq → Prop} {m u : State} {q : Seq} (h : coreTransition m = u.withSeq q)
    (hQ : Q u q) : Realises Q m (.ok, u) :=
  ⟨q, Reaches.step h, hQ⟩

section
variable {P Q R : State → Seq → Prop} {p p' : Body}

theorem Stage.andThen (hp : Stage P p Q) (hp' : Stage Q p' R) : Stage P (Body.andThen p p') R := by
  intro s q hP
  have hr := hp s q hP
  obtain ⟨⟨x, u⟩, hpu⟩ : ∃ r, p s = r := ⟨_, rfl⟩
  rw [hpu] at hr
  cases x with
  | ok =>
    obtain ⟨q', hreach, hQ⟩ := hr
    rw [Body.andThen_ok hpu]
    exact (hp' u q' hQ).of_reaches hreach
  | error e => rwa [Body.andThen_stop hpu (by simp)]
  | fatal => rwa [Body.andThen_stop hpu (by simp)]
  | waiting => rwa [Body.andThen_stop hpu (by simp)]

end

/-- A loop over rising indices, one stage for each. -/
theorem Stage.forEach_range' {P : Nat → State → Seq → Prop} {f : Nat → Body} {a n : Nat}
    (h : ∀ i, a ≤ i → i < a + n → Stage (P i) (f i) (P (i + 1))) :
    Stage (P a) (forEach (List.range' a n) f) (P (a + n)) := by
  induction n generalizing a with
  | zero => exact fun s q hP => ⟨q, Reaches.refl _, hP⟩
  | succ n ih =>
    rw [List.range'_succ, Nat.add_comm n 1, ← Nat.add_assoc]
    exact (h a (Nat.le_refl a) (by omega)).andThen (ih fun i hi hi' => h i (by omega) (by omega))

/-- A loop over falling indices, one stage for each. -/
theorem Stage.forEach_downFrom {P : Nat → State → Seq → Prop} {f : Nat → Body} {n : Nat}
    (h : ∀ t, t < n → Stage (P (t + 1)) (f (t + 1)) (P t)) : Stage (P n) (forEach (downFrom n) f) (P 0) := by
  induction n with
  | zero => exact fun s q hP => ⟨q, Reaches.refl _, hP⟩
  | succ n ih => exact (h n (Nat.lt_succ_self n)).andThen (ih fun t ht => h t (Nat.lt_succ_of_lt ht))

/-! ### Whole commands -/

/-- At `END` with code 0. -/
def AtEnd (_ : State) (q : Seq) : Prop := q.st = .finish ∧ q.e = .ok

/-- As acceptance leaves it, with a word that decodes to `i`. -/
def Latched (i : Instr) (s : State) (q : Seq) : Prop := q = Seq.start .decode ∧ decode s.cmdl = .ok i

theorem coreTransition_atEnd {u : State} {q : Seq} (h : AtEnd u q) : coreTransition (u.withSeq q) = u.endOk := by
  obtain ⟨hst, he⟩ := h
  simp only [coreTransition, State.withSeq_seq, hst, he]
  rfl

/-- The machine agrees with the one step of a command whose pseudocode it realises. -/
theorem machineAgrees_of_stage {i : Instr}
    (h : ∀ s, s.cfg.Legal → Latched i s s.seq → Realises AtEnd s (bodyOf i s)) : MachineAgrees i := by
  intro s t hcfg hbusy hseq hi hexec ht
  have hr := h s hcfg ⟨hseq, hi⟩
  unfold Realises at hr
  rcases exec_cases hexec with ⟨hx, rfl⟩ | ⟨e, hx, rfl⟩ | ⟨hx, rfl⟩ | ⟨_, rfl⟩
  · rw [hx] at hr
    obtain ⟨q, hreach, hend⟩ := hr
    exact hreach.trans (Reaches.step (coreTransition_atEnd hend))
  · rwa [hx] at hr
  · rwa [hx] at hr
  · simp [hbusy] at ht

end Sys2Proof.Machine
end

section
/-! PROOF. O41: the machine realises the field and vector commands (R221, R222). -/

namespace Sys2Proof.Machine

open Sys2Proof.Safety

/-! ### Commands whose whole work is one visit of one state -/

theorem encode_eq_of_decode {s : State} {i : Instr} (h : decode s.cmdl = .ok i) : s.cmdl = encode i :=
  (encode_of_decode h).2.symm

/-- Leaving `DECODE` for the state of the command. -/
theorem latched_step {i : Instr} {s : State} {q : Seq} {st : ST} (h : Latched i s q) (hst : (statesOf i).head? = some st) :
    coreTransition (s.withSeq q) = s.withSeq (Seq.start st) := by
  obtain ⟨rfl, hi⟩ := h
  have hd : decode (s.withSeq (Seq.start .decode)).cmdl = .ok i := hi
  have hdecode : coreTransition (s.withSeq (Seq.start .decode)) = leaveDecode (s.withSeq (Seq.start .decode)) := rfl
  rw [hdecode, leaveDecode, hd]
  cases i <;> cases hst <;> rfl

/-- The machine realises a result computed from the state, whether it is there or not (R221: `FIELD`, `EVAL`, `INTERP`). -/
theorem realises_putResult {v : Option Byte} {s : State} {q : Seq}
    (h : coreTransition (s.withSeq q) = leave (putResult v (s.withSeq q))) :
    Realises AtEnd (s.withSeq q) (putResult v s) := by
  cases v with
  | none => exact Reaches.step h
  | some r => exact ⟨_, Reaches.step h, rfl, rfl⟩

/-- The state, visited once, in which the machine does the whole work of a command of the field units, the evaluator or the
interpolator; none for the other commands. -/
def visitedState : Instr → Option ST
  | .gfadd _ _ | .gfmul _ _ | .gfinv _ | .gfdiv _ _ => some .field
  | .peval _ _ => some .eval
  | .linterp _ _ => some .interp
  | .pgen _ _ | .split _ _ | .combine _ => none

/-- The one visit does the pseudocode of the command (R221). -/
theorem coreTransition_visit {i : Instr} {s : State} {st : ST} (hvisit : visitedState i = some st)
    (hi : decode s.cmdl = .ok i) (hst : s.seq.st = st) : coreTransition s = leave (bodyOf i s) := by
  have hw := encode_eq_of_decode hi
  cases i with
  | gfadd _ _ | gfmul _ _ | gfinv _ | gfdiv _ _ =>
    cases hvisit
    simp only [coreTransition, hst, fieldWork, State.op, State.opA, State.opB, hw, encode, Laws.fieldOp_encodeS,
      fieldA_encodeS, fieldB_encodeS]
    rfl
  | peval _ _ | linterp _ _ =>
    cases hvisit
    simp only [coreTransition, hst, State.opN, State.opX, hw, encode, fieldN_encodeV, fieldX_encodeV]
    rfl
  | pgen _ _ | split _ _ | combine _ => cases hvisit

theorem horner_withSeq (s : State) (q : Seq) (cnt : Nat) (x : Byte) : (s.withSeq q).horner cnt x = s.horner cnt x := rfl

theorem lagrange_withSeq (s : State) (q : Seq) (m : Nat) (x : Byte) : (s.withSeq q).lagrange m x = s.lagrange m x := rfl

/-- The result that such a command computes, when its word is legal, from the state but not from the sequencing state. -/
theorem bodyOf_eq_putResult {i : Instr} {st : ST} (hvisit : visitedState i = some st) (hwf : i.wf = true) (s : State) :
    ∃ v, ∀ q, bodyOf i (s.withSeq q) = putResult v (s.withSeq q) := by
  cases i with
  | gfadd a b => exact ⟨some (gfAdd a b), fun _ => rfl⟩
  | gfmul a b => exact ⟨some (gfMul s.cfg.poly a b), fun _ => rfl⟩
  | gfinv a => exact ⟨gfInv s.cfg.poly a, fun _ => rfl⟩
  | gfdiv a b => exact ⟨gfDiv s.cfg.poly a b, fun _ => rfl⟩
  | peval cnt x =>
    have hcnt : countLegal cnt = true := (countLegal_eq_cntInRange cnt).trans hwf
    exact ⟨some (s.horner cnt.toNat x), fun q => by rw [bodyOf, pevalBody, withCount_legal hcnt, horner_withSeq]⟩
  | linterp cnt x =>
    have hcnt : countLegal cnt = true := (countLegal_eq_cntInRange cnt).trans hwf
    exact ⟨s.lagrange cnt.toNat x, fun q => by rw [bodyOf, linterpBody, withCount_legal hcnt, lagrange_withSeq]⟩
  | pgen _ _ | split _ _ | combine _ => cases hvisit

theorem head_statesOf_of_visit {i : Instr} {st : ST} (hvisit : visitedState i = some st) :
    (statesOf i).head? = some st := by
  cases i <;> cases hvisit <;> rfl

theorem machineAgrees_of_visit {i : Instr} {st : ST} (hvisit : visitedState i = some st) : MachineAgrees i := by
  refine machineAgrees_of_stage fun s _ h => ?_
  obtain ⟨v, hv⟩ := bodyOf_eq_putResult hvisit (encode_of_decode h.2).1 s
  have hstep : Reaches s (s.withSeq (Seq.start st)) := Reaches.step (latched_step h (head_statesOf_of_visit hvisit))
  refine Realises.of_reaches hstep ?_
  rw [show bodyOf i s = putResult v s from hv s.seq]
  refine realises_putResult ?_
  rw [← hv]
  exact coreTransition_visit hvisit h.2 rfl

/-! ### The generator -/

theorem drawCoef_byte (c : Nat) {b : Byte} {rest : List Answer} {s : State} (h : s.entropy = .ok b :: rest) :
    drawCoef c s = (.ok, { s with entropy := rest, coef := setEntry s.coef c b }) := by
  rw [drawCoef, rngDraw_byte h]
  rfl

section
variable {cnt : Nat} {c0 : State → Byte} {after : State → State} {D Q : State → Seq → Prop}

/-- The machine visits `Generate(cnt, c0)` in the states of `D`, and leaves through `after` to the states of `Q`. -/
structure Generates (cnt : Nat) (c0 : State → Byte) (after : State → State) (D Q : State → Seq → Prop) : Prop where
  visit : ∀ s q, D s q → coreTransition (s.withSeq q) = coefVisit cnt (c0 s) after (s.withSeq q)
  keep : ∀ s q v rest c, D s q → D { s with coef := v, entropy := rest } { q with c := c }
  leaves : ∀ s q, D s q → ∃ q', after (s.withSeq q) = s.withSeq q' ∧ Q s q'

/-- Before the draw of `COEF[c]`, or, when there is none, past the generator. -/
def BeforeDraw (cnt : Nat) (D Q : State → Seq → Prop) (c : Nat) (s : State) (q : Seq) : Prop :=
  if c < cnt then D s q ∧ q.c = c else Q s q

theorem beforeDraw_inside {c : Nat} {s : State} {q : Seq} (hc : c < cnt) (hD : D s q) (hq : q.c = c) :
    BeforeDraw cnt D Q c s q := by
  rw [BeforeDraw, if_pos hc]
  exact ⟨hD, hq⟩

theorem beforeDraw_past {c : Nat} {s : State} {q : Seq} (hc : cnt ≤ c) (hQ : Q s q) : BeforeDraw cnt D Q c s q := by
  rwa [BeforeDraw, if_neg (Nat.not_lt.mpr hc)]

variable (h : Generates cnt c0 after D Q)

include h

/-- A visit that has written its coefficient goes on to the next, or leaves. -/
theorem Generates.next {m s : State} {q : Seq} {c : Nat} {v : Vector Byte Config.slotCount} {rest : List Answer}
    (hD : D s q) (hcont : cnt ≤ c → coreTransition m = after (State.withSeq { s with coef := v, entropy := rest } q))
    (hnext : ¬cnt ≤ c → coreTransition m = State.withSeq { s with coef := v, entropy := rest } { q with c := c }) :
    ∃ q', coreTransition m = State.withSeq { s with coef := v, entropy := rest } q' ∧
      BeforeDraw cnt D Q c { s with coef := v, entropy := rest } q' := by
  by_cases hc : cnt ≤ c
  · obtain ⟨q', hafter, hQ⟩ := h.leaves { s with coef := v, entropy := rest } q (h.keep s q v rest q.c hD)
    exact ⟨q', (hcont hc).trans hafter, beforeDraw_past hc hQ⟩
  · exact ⟨_, hnext hc, beforeDraw_inside (Nat.lt_of_not_le hc) (h.keep s q v rest c hD) rfl⟩

theorem Generates.draw {c : Nat} (hc : c ≠ 0) (hlt : c < cnt) :
    Stage (BeforeDraw cnt D Q c) (drawCoef c) (BeforeDraw cnt D Q (c + 1)) := by
  intro s q hP
  rw [BeforeDraw, if_pos hlt] at hP
  obtain ⟨hD, rfl⟩ := hP
  have hvisit := h.visit s q hD
  rw [coefVisit, State.withSeq_seq, if_neg hc] at hvisit
  rcases drawCoef_cases q.c s with ⟨_, hd⟩ | ⟨rest, he, hd⟩ | ⟨b, rest, he, hd⟩ <;> rw [hd]
  · trivial
  · rw [drawCoef_fail q.c (s := s.withSeq q) he] at hvisit
    exact reaches_raiseError (u := { s with entropy := rest }) hvisit
  · rw [drawCoef_byte q.c (s := s.withSeq q) he] at hvisit
    obtain ⟨q', hstep, hnext⟩ := h.next (c := q.c + 1) (v := setEntry s.coef q.c b) (rest := rest) hD
      (fun hle => hvisit.trans (if_pos hle)) fun hle => hvisit.trans (if_neg hle)
    exact realises_step hstep hnext

/-- The machine realises `Generate` (R150). -/
theorem Generates.stage (hcnt : 1 ≤ cnt) : Stage (fun s q => D s q ∧ q.c = 0) (fun s => generate cnt (c0 s) s) Q := by
  intro s q ⟨hD, hc⟩
  have hvisit := h.visit s q hD
  rw [coefVisit, State.withSeq_seq, if_pos hc] at hvisit
  obtain ⟨q', hstep, hnext⟩ := h.next (c := 1) (v := setEntry s.coef 0 (c0 s)) (rest := s.entropy) hD
    (fun hle => hvisit.trans (if_pos hle)) fun hle => hvisit.trans (if_neg hle)
  have hdraws := Stage.forEach_range' (P := BeforeDraw cnt D Q) (f := drawCoef) (a := 1) (n := cnt - 1)
    fun c hlow hhigh => h.draw (by omega) (by omega)
  have hend : BeforeDraw cnt D Q (1 + (cnt - 1)) = Q := by
    funext s q
    exact if_neg (by omega)
  exact (hend ▸ hdraws _ q' hnext).of_reaches (Reaches.step hstep)

end

/-- In `GEN` with the word of `PGEN cnt, c0`. -/
def InGen (cnt : BitVec 12) (c0 : Byte) (s : State) (q : Seq) : Prop := q.st = .gen ∧ decode s.cmdl = .ok (.pgen cnt c0)

theorem inGen_generates (cnt : BitVec 12) (c0 : Byte) :
    Generates cnt.toNat (fun _ => c0) (fun t => t.toFinish .ok) (InGen cnt c0) AtEnd where
  visit s q := fun ⟨hst, hi⟩ => by
    have hw : (s.withSeq q).cmdl = encode (.pgen cnt c0) := encode_eq_of_decode hi
    simp only [coreTransition, State.withSeq_seq, hst, State.opN, State.opX, hw, encode, fieldN_encodeV, fieldX_encodeV]
  keep _ _ _ _ _ h := h
  leaves _ _ _ := ⟨_, rfl, rfl, rfl⟩

theorem machineAgrees_pgen (cnt : BitVec 12) (c0 : Byte) : MachineAgrees (.pgen cnt c0) := by
  refine machineAgrees_of_stage fun s _ h => ?_
  have hcnt : countLegal cnt = true := (countLegal_eq_cntInRange cnt).trans (encode_of_decode h.2).1
  have hbody : bodyOf (.pgen cnt c0) s = generate cnt.toNat c0 s := withCount_legal hcnt _ s
  have hstep : Reaches s (s.withSeq (Seq.start .gen)) := Reaches.step (latched_step h rfl)
  rw [hbody]
  exact ((inGen_generates cnt c0).stage ((countLegal_iff cnt).mp hcnt).1 s (Seq.start .gen) ⟨⟨rfl, h.2⟩, rfl⟩).of_reaches
    hstep

end Sys2Proof.Machine

namespace Sys2Proof.Proofs

open Sys2Proof.Machine Sys2Proof.Safety

/-- Settles O41: six of the commands are one visit of one state, and `PGEN` is a visit for each coefficient. -/
theorem machineAgreesOnFieldAndVectorCommands : Obligations.MachineAgreesOnFieldAndVectorCommands := by
  unfold Obligations.MachineAgreesOnFieldAndVectorCommands
  exact ⟨fun _ _ => machineAgrees_of_visit rfl, fun _ _ => machineAgrees_of_visit rfl, fun _ => machineAgrees_of_visit rfl,
    fun _ _ => machineAgrees_of_visit rfl, machineAgrees_pgen, fun _ _ => machineAgrees_of_visit rfl,
    fun _ _ => machineAgrees_of_visit rfl⟩

end Sys2Proof.Proofs
end

section
/-! PROOF. O42: the machine realises `SPLIT`, with the same draws (R221, R222). -/

namespace Sys2Proof.Machine

open Sys2Proof.Safety

/-! ### The pseudocode keeps out of the sequencing state -/

theorem identityXc_withSeq (s : State) (q : Seq) : identityXc (s.withSeq q) = (identityXc s).withSeq q :=
  foldl_withSeq (fun _ _ => rfl) _ s

theorem evalShares_withSeq (n k i : Nat) (s : State) (q : Seq) :
    evalShares n k i (s.withSeq q) = (evalShares n k i s).withSeq q :=
  foldl_withSeq (fun _ _ => rfl) _ s

theorem tailShares_withSeq (n : Nat) (s : State) (q : Seq) : tailShares n (s.withSeq q) = (tailShares n s).withSeq q :=
  foldl_withSeq (fun _ _ => rfl) _ s

theorem markShares_withSeq (n : Nat) (s : State) (q : Seq) : markShares n (s.withSeq q) = (markShares n s).withSeq q :=
  foldl_withSeq (fun _ _ => rfl) _ s

/-! ### What the machine carries along -/

/-- The word is `SPLIT n, k`, the secret has `len` bytes, and at least one draw is allowed per index. -/
def Splitting (n k : BitVec 12) (len : Nat) (s : State) : Prop :=
  decode s.cmdl = .ok (.split n k) ∧ s.len.toNat = len ∧ 1 ≤ s.cfg.rejLimit

theorem Splitting.of_splitWrites {n k : BitVec 12} {len : Nat} {s t : State} (h : Splitting n k len s)
    (hw : SplitWrites s t) : Splitting n k len t := by
  rw [hw]
  exact h

theorem Splitting.operands {n k : BitVec 12} {len : Nat} {s : State} (h : Splitting n k len s) (q : Seq) :
    (s.withSeq q).opN = n ∧ (s.withSeq q).opK = k := by
  have hw : (s.withSeq q).cmdl = encode (.split n k) := encode_eq_of_decode h.1
  simp only [State.opN, State.opK, hw, encode, fieldN_encodeO, fieldK_encodeO, and_self]

section
variable {n k : BitVec 12} {len : Nat}

/-- Before the draws for index `t`, or, after those for index 1, at the first byte position. -/
def BeforeIndex (n k : BitVec 12) (len t : Nat) (s : State) (q : Seq) : Prop :=
  Splitting n k len s ∧
    if t = 0 then q.st = .spCoef ∧ q.i = 0 ∧ q.c = 0 else q.st = .spShuffle ∧ q.t = t ∧ q.tries = 0

/-- Before byte position `i`, or, after the last, at the tail. -/
def BeforeByte (n k : BitVec 12) (len i : Nat) (s : State) (q : Seq) : Prop :=
  Splitting n k len s ∧ if i < len then q.st = .spCoef ∧ q.i = i ∧ q.c = 0 else q.st = .spTail

/-! ### The shuffle -/

/-- How one `t` of the shuffle leaves off, by what its draws gave. -/
def drawnExit (t : Nat) (s : State) : Drawn → Exit × State
  | .waiting => (.waiting, s)
  | .fail u => (.error .randomnessFailure, u)
  | .byte r u => (.ok, exchangeXc t r.toNat u)

theorem shuffleAt_eq (t : Nat) (s : State) : shuffleAt t s = drawnExit t s (drawIndex t s.cfg.rejLimit s) := by
  unfold shuffleAt
  cases drawIndex t s.cfg.rejLimit s <;> rfl

theorem coreTransition_spShuffle {s : State} (h : s.seq.st = .spShuffle) : coreTransition s = shuffleVisit s := by
  simp only [coreTransition, h]

/-- What the machine makes of a drawn byte (R198, R199): an accepted one exchanges, a rejected one counts. -/
theorem shuffleVisit_byte {s : State} {q : Seq} {b : Byte} {rest : List Answer} (he : s.entropy = .ok b :: rest) :
    shuffleVisit (s.withSeq q) =
      if drawnIndex q.t b ≤ q.t then
        if q.t ≤ 1 then ((exchangeXc q.t (drawnIndex q.t b) { s with entropy := rest }).withSeq q).toCoef 0
        else (exchangeXc q.t (drawnIndex q.t b) { s with entropy := rest }).withSeq { q with t := q.t - 1, tries := 0 }
      else if s.cfg.rejLimit ≤ q.tries + 1 then
        (State.withSeq { s with entropy := rest } q).toFinish .randomnessFailure
      else State.withSeq { s with entropy := rest } { q with tries := q.tries + 1 } := by
  unfold shuffleVisit
  rw [rngDraw_byte (s := s.withSeq q) he]
  rfl

/-- An accepted byte takes the machine to `t - 1` or to the byte positions. -/
theorem shuffleVisit_accepted {s : State} {q : Seq} {b : Byte} {rest : List Answer} (hs : Splitting n k len s)
    (hst : q.st = .spShuffle) (he : s.entropy = .ok b :: rest) (hb : drawnIndex q.t b ≤ q.t) :
    ∃ q', shuffleVisit (s.withSeq q) = (exchangeXc q.t (drawnIndex q.t b) { s with entropy := rest }).withSeq q' ∧
      BeforeIndex n k len (q.t - 1) (exchangeXc q.t (drawnIndex q.t b) { s with entropy := rest }) q' := by
  rw [shuffleVisit_byte he, if_pos hb]
  by_cases hlast : q.t ≤ 1
  · rw [if_pos hlast]
    exact ⟨_, rfl, hs, (if_pos (Nat.sub_eq_zero_of_le hlast)).symm ▸ ⟨rfl, rfl, rfl⟩⟩
  · rw [if_neg hlast]
    exact ⟨_, rfl, hs, (if_neg (Nat.sub_ne_zero_of_lt (Nat.lt_of_not_le hlast))).symm ▸ ⟨hst, rfl, rfl⟩⟩

/-- One draw, with `left` draws left after it: what is to be shown is the case of a rejected byte. -/
theorem drawIndex_realises_of_rejected {left : Nat} {s₀ s : State} {q : Seq} (hs : Splitting n k len s)
    (hst : q.st = .spShuffle)
    (hrejected : ∀ b rest, s.entropy = .ok b :: rest → ¬drawnIndex q.t b ≤ q.t →
      Realises (BeforeIndex n k len (q.t - 1)) (s.withSeq q) (drawnExit q.t s₀ (drawIndex q.t left { s with entropy := rest }))) :
    Realises (BeforeIndex n k len (q.t - 1)) (s.withSeq q) (drawnExit q.t s₀ (drawIndex q.t (left + 1) s)) := by
  have hvisit : coreTransition (s.withSeq q) = shuffleVisit (s.withSeq q) := coreTransition_spShuffle hst
  rw [drawIndex]
  rcases s.rngDraw_cases with ⟨_, hd⟩ | ⟨rest, he, hd⟩ | ⟨b, rest, he, hd⟩ <;> rw [hd]
  · trivial
  · rw [shuffleVisit, rngDraw_fail (s := s.withSeq q) he] at hvisit
    exact reaches_raiseError (u := { s with entropy := rest }) hvisit
  · by_cases hb : drawnIndex q.t b ≤ q.t
    · obtain ⟨q', hstep, hnext⟩ := shuffleVisit_accepted hs hst he hb
      simp only [if_pos hb]
      exact realises_step (hvisit.trans hstep) hnext
    · simp only [if_neg hb]
      exact hrejected b rest he hb

/-- With `left + 1` draws left for the index, the machine draws on as the pseudocode does (R198, R199). -/
theorem drawIndex_realises {left : Nat} {s₀ s : State} {q : Seq} (hs : Splitting n k len s) (hst : q.st = .spShuffle)
    (ht : q.t ≠ 0) (hleft : q.tries + (left + 1) = s.cfg.rejLimit) :
    Realises (BeforeIndex n k len (q.t - 1)) (s.withSeq q) (drawnExit q.t s₀ (drawIndex q.t (left + 1) s)) := by
  have hvisit : coreTransition (s.withSeq q) = shuffleVisit (s.withSeq q) := coreTransition_spShuffle hst
  induction left generalizing s q with
  | zero =>
    refine drawIndex_realises_of_rejected hs hst fun b rest he hb => ?_
    rw [shuffleVisit_byte he, if_neg hb, if_pos (by omega)] at hvisit
    exact reaches_raiseError (u := { s with entropy := rest }) hvisit
  | succ left ih =>
    refine drawIndex_realises_of_rejected hs hst fun b rest he hb => ?_
    rw [shuffleVisit_byte he, if_neg hb, if_neg (by omega)] at hvisit
    exact (ih (s := { s with entropy := rest }) (q := { q with tries := q.tries + 1 }) hs hst ht
      (Eq.trans (by simp only; omega) hleft) (coreTransition_spShuffle hst)).of_reaches (Reaches.step hvisit)

theorem shuffleAt_stage {t : Nat} (ht : t ≠ 0) :
    Stage (BeforeIndex n k len t) (shuffleAt t) (BeforeIndex n k len (t - 1)) := by
  intro s q ⟨hs, hq⟩
  rw [if_neg ht] at hq
  obtain ⟨hst, rfl, htries⟩ := hq
  obtain ⟨left, hleft⟩ := Nat.exists_eq_add_of_le' hs.2.2
  rw [shuffleAt_eq, hleft]
  exact drawIndex_realises hs hst ht (by omega)

theorem shuffle_stage : Stage (BeforeIndex n k len 254) shuffle (BeforeIndex n k len 0) := by
  unfold shuffle
  exact Stage.forEach_downFrom fun t _ => shuffleAt_stage (Nat.succ_ne_zero t)

/-! ### The byte positions -/

/-- In `SP_COEF` for byte position `i`. -/
def InCoef (n k : BitVec 12) (len i : Nat) (s : State) (q : Seq) : Prop := Splitting n k len s ∧ q.st = .spCoef ∧ q.i = i

/-- In `SP_EVAL` for byte position `i`. -/
def InEval (n k : BitVec 12) (len i : Nat) (s : State) (q : Seq) : Prop := Splitting n k len s ∧ q.st = .spEval ∧ q.i = i

theorem inCoef_generates (i : Nat) :
    Generates k.toNat (fun s => s.secret i) (fun t => t.goto .spEval) (InCoef n k len i) (InEval n k len i) where
  visit s q := fun ⟨hs, hst, hi⟩ => by
    simp only [coreTransition, State.withSeq_seq, hst, hi, (hs.operands q).2]
    rfl
  keep _ _ _ _ _ h := h
  leaves _ _ := fun ⟨hs, _, hi⟩ => ⟨_, rfl, hs, rfl, hi⟩

theorem evalShares_stage (i : Nat) :
    Stage (InEval n k len i) (fun s => (.ok, evalShares n.toNat k.toNat i s)) (BeforeByte n k len (i + 1)) := by
  intro s q ⟨hs, hst, hqi⟩
  have hs' : Splitting n k len (evalShares n.toNat k.toNat i s) := hs.of_splitWrites (by
    unfold SplitWrites
    rw [evalShares_frame])
  obtain ⟨hn, hk⟩ := hs.operands q
  have hvisit : coreTransition (s.withSeq q) =
      if i + 1 < len then ((evalShares n.toNat k.toNat i s).withSeq q).toCoef (i + 1)
      else ((evalShares n.toNat k.toNat i s).withSeq q).goto .spTail := by
    simp only [coreTransition, State.withSeq_seq, hst, hqi, hn, hk, evalShares_withSeq]
    rw [show (s.withSeq q).len.toNat = len from hs.2.1]
  by_cases hnext : i + 1 < len
  · exact realises_step (hvisit.trans (if_pos hnext)) ⟨hs', (if_pos hnext).symm ▸ ⟨rfl, rfl, rfl⟩⟩
  · exact realises_step (hvisit.trans (if_neg hnext)) ⟨hs', (if_neg hnext).symm ▸ rfl⟩

theorem splitByte_stage (hk : 1 ≤ k.toNat) {i : Nat} (hi : i < len) :
    Stage (BeforeByte n k len i) (splitByte n.toNat k.toNat i) (BeforeByte n k len (i + 1)) := by
  refine Stage.andThen (fun s q ⟨hs, hq⟩ => ?_) (evalShares_stage i)
  rw [if_pos hi] at hq
  obtain ⟨hst, hqi, hc⟩ := hq
  exact (inCoef_generates i).stage hk s q ⟨⟨hs, hst, hqi⟩, hc⟩

theorem splitBytes_stage (hk : 1 ≤ k.toNat) :
    Stage (BeforeByte n k len 0) (forEach (List.range len) (splitByte n.toNat k.toNat)) (BeforeByte n k len len) := by
  rw [List.range_eq_range']
  simpa using Stage.forEach_range' (P := BeforeByte n k len) (a := 0) (n := len) fun i _ hi => splitByte_stage hk (by simpa using hi)

/-! ### The tail, and the whole command -/

theorem splitTail_stage :
    Stage (BeforeByte n k len len) (fun s => (.ok, markShares n.toNat (tailShares n.toNat s))) AtEnd := by
  intro s q ⟨hs, hst⟩
  rw [if_neg (Nat.lt_irrefl len)] at hst
  have hvisit : coreTransition (s.withSeq q) =
      ((markShares n.toNat (tailShares n.toNat s)).withSeq q).toFinish .ok := by
    simp only [coreTransition, State.withSeq_seq, hst, (hs.operands q).1, tailShares_withSeq, markShares_withSeq]
  exact realises_step hvisit ⟨rfl, rfl⟩

theorem coreTransition_spCheck_stop {s : State} {q : Seq} {e : ECode} (hs : Splitting n k len s) (hst : q.st = .spCheck)
    (he : splitError n k s = some e) : coreTransition (s.withSeq q) = (s.withSeq q).toFinish e := by
  obtain ⟨hn, hk⟩ := hs.operands q
  have he' : splitError n k (s.withSeq q) = some e := he
  simp only [coreTransition, State.withSeq_seq, hst, hn, hk, he']

theorem coreTransition_spCheck_go {s : State} {q : Seq} (hs : Splitting n k len s) (hst : q.st = .spCheck)
    (he : splitError n k s = none) : coreTransition (s.withSeq q) = s.withSeq { q with st := .spClear } := by
  obtain ⟨hn, hk⟩ := hs.operands q
  have he' : splitError n k (s.withSeq q) = none := he
  simp only [coreTransition, State.withSeq_seq, hst, hn, hk, he']
  rfl

/-- Past `SP_CHECK` and `SP_CLEAR`, the machine stands before the shuffle of the identity arrangement. -/
theorem coreTransition_spClear {s : State} {q : Seq} (hs : Splitting n k len s) (hst : q.st = .spClear) :
    ∃ q', coreTransition (s.withSeq q) = (identityXc (clearShlen s)).withSeq q' ∧
      BeforeIndex n k len 254 (identityXc (clearShlen s)) q' := by
  have hs' : Splitting n k len (identityXc (clearShlen s)) :=
    hs.of_splitWrites ((clearShlen_splitWrites s).trans (identityXc_splitWrites _))
  have hvisit : coreTransition (s.withSeq q) =
      (identityXc (clearShlen (s.withSeq q))).withSeq { q with st := .spShuffle, t := 254, tries := 0 } := by
    simp only [coreTransition, State.withSeq_seq, hst]
    rfl
  have hclear : clearShlen (s.withSeq q) = (clearShlen s).withSeq q := rfl
  rw [hclear, identityXc_withSeq, State.withSeq_withSeq] at hvisit
  exact ⟨_, hvisit, hs', (if_neg (Nat.succ_ne_zero 253)).symm ▸ ⟨rfl, rfl, rfl⟩⟩

/-- Past its checks, the machine realises `SPLIT` from `SP_CLEAR` on. -/
theorem split_stage (hk : 1 ≤ k.toNat) (hlen : 1 ≤ len) {s : State} {q : Seq} (hs : Splitting n k len s)
    (hst : q.st = .spClear) : Realises AtEnd (s.withSeq q)
      (Body.andThen shuffle (Body.andThen (forEach (List.range len) (splitByte n.toNat k.toNat))
        fun s => (.ok, markShares n.toNat (tailShares n.toNat s))) (identityXc (clearShlen s))) := by
  obtain ⟨q', hstep, hq'⟩ := coreTransition_spClear hs hst
  have hfirst : Stage (BeforeIndex n k len 254) shuffle (BeforeByte n k len 0) := by
    have hboth : BeforeIndex n k len 0 = BeforeByte n k len 0 := by
      funext s q
      rw [BeforeIndex, BeforeByte, if_pos rfl, if_pos (show 0 < len from hlen)]
    exact hboth ▸ shuffle_stage
  exact (hfirst.andThen ((splitBytes_stage hk).andThen splitTail_stage) _ q' hq').of_reaches (Reaches.step hstep)

theorem machineAgrees_split (n k : BitVec 12) : MachineAgrees (.split n k) := by
  refine machineAgrees_of_stage fun s hcfg h => ?_
  obtain ⟨_, _, _, hlimit, _⟩ := hcfg
  have hs : Splitting n k s.len.toNat s := ⟨h.2, rfl, hlimit⟩
  have hcheck : Reaches s (s.withSeq (Seq.start .spCheck)) := Reaches.step (latched_step h rfl)
  refine Realises.of_reaches hcheck ?_
  rw [show bodyOf (.split n k) = splitBody n k from rfl]
  cases he : splitError n k s with
  | some e =>
    rw [splitBody_stop he]
    exact reaches_raiseError (coreTransition_spCheck_stop hs rfl he)
  | none =>
    obtain ⟨hk2, _, _, hlen, _⟩ := (splitError_eq_none n k s).mp he
    rw [splitBody_go he]
    exact (split_stage (Nat.le_of_succ_le hk2) hlen hs rfl).of_reaches
      (Reaches.step (coreTransition_spCheck_go hs rfl he))

end

end Sys2Proof.Machine

namespace Sys2Proof.Proofs

open Sys2Proof.Machine Sys2Proof.Safety

/-- Settles O42: stage by stage, the checks, the shuffle, the byte positions, and the tail. -/
theorem machineAgreesOnSplit : Obligations.MachineAgreesOnSplit := by
  unfold Obligations.MachineAgreesOnSplit
  exact machineAgrees_split

end Sys2Proof.Proofs
end

section
/-! PROOF. O43: the machine realises `COMBINE` (R221, R222). -/

namespace Sys2Proof.Machine

open Sys2Proof.Safety

/-! ### The pseudocode keeps out of the sequencing state -/

theorem loadX_withSeq (m : Nat) (s : State) (q : Seq) : loadX m (s.withSeq q) = (loadX m s).withSeq q :=
  foldl_withSeq (fun _ _ => rfl) _ s

theorem loadY_withSeq (m i : Nat) (s : State) (q : Seq) : loadY m i (s.withSeq q) = (loadY m i s).withSeq q :=
  foldl_withSeq (fun _ _ => rfl) _ s

/-! ### What the machine carries along -/

section
variable {m : BitVec 12} {len : Nat}

/-- The word is `COMBINE m`, and the shares give a secret of `len` bytes. -/
def Combining (m : BitVec 12) (len : Nat) (s : State) : Prop :=
  decode s.cmdl = .ok (.combine m) ∧ s.combinedLen = len

theorem Combining.of_combineWrites {s t : State} (h : Combining m len s) (hw : CombineWrites s t) :
    Combining m len t := by
  rw [hw]
  exact h

theorem Combining.operand {s : State} (h : Combining m len s) (q : Seq) : (s.withSeq q).opN = m := by
  have hw : (s.withSeq q).cmdl = encode (.combine m) := encode_eq_of_decode h.1
  rw [State.opN, hw, encode, fieldN_encodeO]

/-- Before byte position `i`, or, after the last, before the length is written. -/
def BeforePosition (m : BitVec 12) (len i : Nat) (s : State) (q : Seq) : Prop :=
  Combining m len s ∧ if i < len then q.st = .cbLoadY ∧ q.i = i else q.st = .cbLen

/-- In `CB_INTERP` for byte position `i`. -/
def InInterp (m : BitVec 12) (len i : Nat) (s : State) (q : Seq) : Prop := Combining m len s ∧ q.st = .cbInterp ∧ q.i = i

/-! ### The byte positions -/

theorem loadY_stage {i : Nat} (hi : i < len) :
    Stage (BeforePosition m len i) (fun s => (.ok, loadY m.toNat i s)) (InInterp m len i) := by
  intro s q ⟨hs, hq⟩
  rw [if_pos hi] at hq
  obtain ⟨hst, rfl⟩ := hq
  have hvisit : coreTransition (s.withSeq q) = (loadY m.toNat q.i s).withSeq { q with st := .cbInterp } := by
    simp only [coreTransition, State.withSeq_seq, hst, hs.operand q, loadY_withSeq]
    rfl
  exact realises_step hvisit ⟨hs.of_combineWrites (loadY_combineWrites _ _ s), rfl, rfl⟩

theorem interpolateByte_stage (i : Nat) :
    Stage (InInterp m len i) (interpolateByte m.toNat i) (BeforePosition m len (i + 1)) := by
  intro s q ⟨hs, hst, rfl⟩
  cases hb : s.lagrange m.toNat 0x00 with
  | none =>
    rw [interpolateByte_none hb]
    refine Reaches.step (t := s.raiseFatal) ?_
    simp only [coreTransition, State.withSeq_seq, hst, hs.operand q, interpolateByte_none (s := s.withSeq q) hb]
    rfl
  | some b =>
    have hvisit : coreTransition (s.withSeq q) = (s.setSecret q.i b).withSeq
        (if q.i + 1 < len then { q with st := .cbLoadY, i := q.i + 1 } else { q with st := .cbLen }) := by
      have hlen : (s.withSeq q).combinedLen = len := hs.2
      simp only [coreTransition, State.withSeq_seq, hst, hs.operand q, interpolateByte_some (s := s.withSeq q) hb, hlen]
      split_ifs <;> rfl
    rw [interpolateByte_some hb]
    refine realises_step hvisit ⟨hs.of_combineWrites rfl, ?_⟩
    split_ifs with hnext
    · exact ⟨rfl, rfl⟩
    · rfl

theorem combineByte_stage {i : Nat} (hi : i < len) :
    Stage (BeforePosition m len i) (combineByte m.toNat i) (BeforePosition m len (i + 1)) :=
  (loadY_stage hi).andThen (interpolateByte_stage i)

theorem combineBytes_stage :
    Stage (BeforePosition m len 0) (forEach (List.range len) (combineByte m.toNat)) (BeforePosition m len len) := by
  rw [List.range_eq_range']
  simpa using Stage.forEach_range' (P := BeforePosition m len) (a := 0) (n := len)
    fun i _ hi => combineByte_stage (by simpa using hi)

/-! ### The length, and the whole command -/

theorem setCombinedLen_stage :
    Stage (BeforePosition m len len) (fun s => (.ok, setCombinedLen s)) AtEnd := by
  intro s q ⟨hs, hst⟩
  rw [if_neg (Nat.lt_irrefl len)] at hst
  have hvisit : coreTransition (s.withSeq q) = ((setCombinedLen s).withSeq q).toFinish .ok := by
    simp only [coreTransition, State.withSeq_seq, hst]
    rfl
  exact realises_step hvisit ⟨rfl, rfl⟩

theorem coreTransition_cbCheck_stop {s : State} {q : Seq} {e : ECode} (hs : Combining m len s) (hst : q.st = .cbCheck)
    (he : combineError m s = some e) : coreTransition (s.withSeq q) = (s.withSeq q).toFinish e := by
  have he' : combineError m (s.withSeq q) = some e := he
  simp only [coreTransition, State.withSeq_seq, hst, hs.operand q, he']

theorem coreTransition_cbCheck_go {s : State} {q : Seq} (hs : Combining m len s) (hst : q.st = .cbCheck)
    (he : combineError m s = none) : coreTransition (s.withSeq q) = s.withSeq { q with st := .cbLoadX } := by
  have he' : combineError m (s.withSeq q) = none := he
  simp only [coreTransition, State.withSeq_seq, hst, hs.operand q, he']
  rfl

/-- Past its checks, the machine realises `COMBINE` from `CB_LOADX` on. -/
theorem combine_stage (hlen : 0 < len) {s : State} {q : Seq} (hs : Combining m len s) (hst : q.st = .cbLoadX) :
    Realises AtEnd (s.withSeq q) (Body.andThen (forEach (List.range len) (combineByte m.toNat))
      (fun s => (.ok, setCombinedLen s)) (loadX m.toNat s)) := by
  have hvisit : coreTransition (s.withSeq q) = (loadX m.toNat s).withSeq { q with st := .cbLoadY, i := 0 } := by
    simp only [coreTransition, State.withSeq_seq, hst, hs.operand q, loadX_withSeq]
    rfl
  exact (combineBytes_stage.andThen setCombinedLen_stage _ _ ⟨hs.of_combineWrites (loadX_combineWrites _ s),
    (if_pos hlen).symm ▸ ⟨rfl, rfl⟩⟩).of_reaches (Reaches.step hvisit)

theorem machineAgrees_combine (m : BitVec 12) : MachineAgrees (.combine m) := by
  refine machineAgrees_of_stage fun s hcfg h => ?_
  obtain ⟨_, _, _, _, hslots⟩ := hcfg
  have hs : Combining m s.combinedLen s := ⟨h.2, rfl⟩
  have hcheck : Reaches s (s.withSeq (Seq.start .cbCheck)) := Reaches.step (latched_step h rfl)
  refine Realises.of_reaches hcheck ?_
  rw [show bodyOf (.combine m) = combineBody m from rfl]
  cases he : combineError m s with
  | some e =>
    rw [combineBody_stop he]
    exact reaches_raiseError (coreTransition_cbCheck_stop hs rfl he)
  | none =>
    obtain ⟨hlengths, hlong, _⟩ := (combineError_eq_none m s hslots).mp he
    rw [combineBody_go he]
    exact (combine_stage (Proofs.combinedLen_le hlengths hlong).1 hs rfl).of_reaches
      (Reaches.step (coreTransition_cbCheck_go hs rfl he))

end

end Sys2Proof.Machine

namespace Sys2Proof.Proofs

open Sys2Proof.Machine Sys2Proof.Safety

/-- Settles O43: stage by stage, the checks, the coordinates, the byte positions, and the length. -/
theorem machineAgreesOnCombine : Obligations.MachineAgreesOnCombine := by
  unfold Obligations.MachineAgreesOnCombine
  exact machineAgrees_combine

end Sys2Proof.Proofs
end

section
/-! PROOF. O27: what `SPLIT` leaves alone (R190), and what holds of the coordinates and the lengths whatever was drawn (R198,
R205). -/

namespace Sys2Proof.Machine

open Sys2Proof.Safety

section
variable {n k : BitVec 12} {s : State}

/-! ### How SPLIT ends -/

theorem splitBody_ne_fatal : (splitBody n k s).1 ≠ .fatal := by
  cases he : splitError n k s with
  | none => exact (splitBody_exit he).ne_fatal
  | some e => simp [splitBody_stop he]

/-- An error of `SPLIT` is one of its checks' or that of a failing draw. -/
theorem splitBody_error {e : ECode} (h : (splitBody n k s).1 = .error e) :
    splitError n k s = some e ∨ (splitError n k s = none ∧ e = .randomnessFailure) := by
  cases he : splitError n k s with
  | none =>
    rcases splitBody_exit he with h' | h' | h' <;> rw [h'] at h <;> cases h
    exact .inr ⟨rfl, rfl⟩
  | some e' =>
    rw [splitBody_stop he] at h
    cases h
    exact .inl rfl

/-- `SPLIT` waits with nothing changed, or ends with a code and what its pseudocode wrote. -/
theorem exec_split_cases {t : State} (h : exec (.split n k) s = .next t) :
    t = s ∨ ∃ e, t = (splitBody n k s).2.raiseError e ∧
      ((splitBody n k s).1 = .ok ∧ e = .ok ∨ (splitBody n k s).1 = .error e) := by
  rcases exec_cases h with ⟨hx, ht⟩ | ⟨e, hx, ht⟩ | ⟨hx, _⟩ | ⟨_, ht⟩
  · exact .inr ⟨.ok, ht, .inl ⟨hx, rfl⟩⟩
  · exact .inr ⟨e, ht, .inr hx⟩
  · exact absurd hx splitBody_ne_fatal
  · exact .inl ht

/-! ### What every part of SPLIT keeps -/

/-- However a byte position leaves off, it has written `COEF`, consumed answers, and written to the memory. -/
theorem splitByte_frame (n k i : Nat) (s : State) : (splitByte n k i s).2 =
    { s with coef := (splitByte n k i s).2.coef, entropy := (splitByte n k i s).2.entropy,
             mem := (splitByte n k i s).2.mem } := by
  refine Body.andThen_rel (R := fun a b => b = { a with coef := b.coef, entropy := b.entropy, mem := b.mem })
    (fun hab hbc => by rw [hbc, hab]) (fun t => ?_) (fun t => ?_) s
  · rw [generate_frame]
  · show evalShares n k i t = _
    rw [evalShares_frame]

/-- What the shuffle, the byte positions and the tail keep, `SPLIT` keeps past its first writes. -/
theorem splitBody_inv {P : State → Prop} (he : splitError n k s = none) (hstart : P (identityXc (clearShlen s)))
    (hshuffle : ∀ u, P u → P (shuffle u).2) (hbyte : ∀ i u, P u → P (splitByte n.toNat k.toNat i u).2)
    (htail : ∀ u, P u → P (markShares n.toNat (tailShares n.toNat u))) : P (splitBody n k s).2 := by
  rw [splitBody_go he]
  exact Body.andThen_inv hshuffle
    (Body.andThen_inv (fun u hu => forEach_inv _ _ (fun i _ => hbyte i) u hu) htail) _ hstart

/-! ### The coordinates -/

/-- What every exchange keeps of the coordinates, the shuffle keeps. -/
theorem shuffle_xc_inv {Q : Vector Byte Config.slotCount → Prop}
    (hQ : ∀ t r (u : State), t < 255 → r < 255 → Q u.xc → Q (exchangeXc t r u).xc) (h : Q s.xc) : Q (shuffle s).2.xc := by
  unfold shuffle
  refine forEach_inv (P := fun u => Q u.xc) _ _ (fun t ht u hu => ?_) s h
  have ht' := mem_downFrom.mp ht
  rcases shuffleAt_cases t u with hs | ⟨rest, hs⟩ | ⟨r, rest, hr, hs⟩ <;> rw [hs]
  · exact hu
  · exact hu
  · exact hQ t r { u with entropy := rest } (by omega) (by omega) hu

theorem splitBody_xc_inv {Q : Vector Byte Config.slotCount → Prop} (he : splitError n k s = none)
    (hQ : ∀ t r (u : State), t < 255 → r < 255 → Q u.xc → Q (exchangeXc t r u).xc)
    (h : Q (identityXc (clearShlen s)).xc) : Q (splitBody n k s).2.xc := by
  refine splitBody_inv (P := fun u => Q u.xc) he h (fun u hu => shuffle_xc_inv hQ hu) (fun i u hu => ?_) fun u hu => ?_
  · rw [splitByte_frame]
    exact hu
  · rw [splitTail_frame]
    exact hu

theorem splitBody_permutes (he : splitError n k s = none) : PermutesNonzero (splitBody n k s).2.xc :=
  splitBody_xc_inv he (fun _ _ _ ht hr hu => exchangeXc_permutes ht hr hu) (identityXc_permutes _)

theorem splitBody_xc_255 : entry (splitBody n k s).2.xc 255 = entry s.xc 255 := by
  cases he : splitError n k s with
  | some e => rw [splitBody_stop he]
  | none =>
    refine splitBody_xc_inv (Q := fun v => entry v 255 = entry s.xc 255) he (fun t r u ht hr hu => ?_) ?_
    · rw [exchangeXc_entry t r (by omega) (by omega), if_neg (by omega), if_neg (by omega)]
      exact hu
    · rw [identityXc_entry, if_neg (by omega)]
      rfl

/-! ### The coefficients -/

theorem generate_coef_above {cnt c : Nat} (c0 : Byte) (u : State) (hcnt : 1 ≤ cnt) (hc : cnt ≤ c) (hcnt' : cnt ≤ 256) :
    entry (generate cnt c0 u).2.coef c = entry u.coef c := by
  refine forEach_inv (P := fun v => entry v.coef c = entry u.coef c) _ _ (fun i hi v hv => ?_) _ ?_
  · have hi' := List.mem_range'_1.mp hi
    rcases drawCoef_cases i v with ⟨_, hd⟩ | ⟨_, _, hd⟩ | ⟨_, _, _, hd⟩ <;> rw [hd]
    · exact hv
    · exact hv
    · exact (entry_setEntry _ _ _ (by omega) c).trans ((if_neg (by omega)).trans hv)
  · exact (entry_setEntry _ _ _ (by omega) c).trans (if_neg (by omega))

theorem splitBody_coef_above {c : Nat} (hc : k.toNat ≤ c) : entry (splitBody n k s).2.coef c = entry s.coef c := by
  cases he : splitError n k s with
  | some e => rw [splitBody_stop he]
  | none =>
    obtain ⟨hk, hkn, hn, _⟩ := (splitError_eq_none n k s).mp he
    refine splitBody_inv (P := fun u => entry u.coef c = entry s.coef c) he ?_ (fun u hu => ?_) (fun i u hu => ?_)
      fun u hu => ?_
    · rw [identityXc_frame]
      rfl
    · rw [shuffle_frame]
      exact hu
    · refine Body.andThen_inv (P := fun u => entry u.coef c = entry s.coef c) (fun w hw => ?_) (fun w hw => ?_) u hu
      · exact (generate_coef_above _ w (by omega) hc (by omega)).trans hw
      · show entry (evalShares n.toNat k.toNat i w).coef c = _
        rw [evalShares_frame]
        exact hw
    · rw [splitTail_frame]
      exact hu

/-! ### The memory -/

theorem memRead_congr {u v : State} {a : Nat} (hmem : Memory.lookup u.mem a = Memory.lookup v.mem a)
    (hres : u.residue = v.residue) : u.memRead a = v.memRead a := by
  rw [State.memRead, State.memRead, State.unwritten, State.unwritten, hmem, hres]

/-- A memory in canonical form that reads like `m` where no share of `n` slots and offsets up to `len` lies. -/
def SameOutsideShares (n len : Nat) (m m' : Memory) : Prop :=
  Memory.wf m' ∧ ∀ a, (∀ j o, j < n → o ≤ len → a ≠ shareAddr j o) → Memory.lookup m' a = Memory.lookup m a

theorem splitBody_memRead (hwf : Memory.wf s.mem) {a : Nat}
    (ha : ∀ j o, j < n.toNat → o ≤ s.len.toNat → a ≠ shareAddr j o) : (splitBody n k s).2.memRead a = s.memRead a := by
  have hmem : SameOutsideShares n.toNat s.len.toNat s.mem (splitBody n k s).2.mem := by
    refine splitBody_mem_inv (fun _ j o m b hj ho ⟨hm, hsame⟩ => ⟨Memory.wf_store m hm _ _, fun a ha => ?_⟩)
      ⟨hwf, fun _ _ => rfl⟩
    rw [Memory.lookup_store m hm, if_neg (ha j o hj ho)]
    exact hsame a ha
  exact memRead_congr (hmem.2 a ha) (congrArg State.residue (splitBody_splitWrites n k s) :)

/-! ### The lengths -/

/-- A `SPLIT` that has not run to its end has marked no share (R205). -/
theorem splitBody_shlen_of_ne_ok (he : splitError n k s = none) (hx : (splitBody n k s).1 ≠ .ok) (j : Nat) :
    entry (splitBody n k s).2.shlen j = 0 := by
  rw [splitBody_go he] at hx ⊢
  have hstart : (identityXc (clearShlen s)).shlen = Vector.replicate Config.slotCount 0 := by
    rw [identityXc_frame]
    rfl
  generalize identityXc (clearShlen s) = u at hx hstart ⊢
  have hbytes (v : State) : (forEach (List.range s.len.toNat) (splitByte n.toNat k.toNat) v).2.shlen = v.shlen :=
    forEach_inv (P := fun w => w.shlen = v.shlen) _ _ (fun i _ w hw => by rw [splitByte_frame]; exact hw) v rfl
  rcases Body.andThen_cases shuffle _ u with ⟨v, hv, hrun⟩ | ⟨_, hrun⟩
  · have hv' : v.shlen = u.shlen := (congrArg (fun r : Exit × State => r.2.shlen) hv).symm.trans (by rw [shuffle_frame])
    rcases Body.andThen_cases (forEach (List.range s.len.toNat) (splitByte n.toNat k.toNat)) _ v with
      ⟨w, _, hrun'⟩ | ⟨_, hrun'⟩
    · exact absurd (by rw [hrun, hrun']) hx
    · rw [hrun, hrun', hbytes v, hv', hstart]
      exact entry_replicate_zero j
  · rw [hrun, shuffle_frame, hstart]
    exact entry_replicate_zero j

end

end Sys2Proof.Machine

namespace Sys2Proof.Proofs

open Sys2Proof.Machine Sys2Proof.Safety

/-- Settles O27: the frame is that of the pseudocode, and each array keeps its entries out of reach. -/
theorem splitFrame : Obligations.SplitFrame := by
  unfold Obligations.SplitFrame
  intro n k s t _ hwf h
  have hw : (splitBody n k s).2 = _ := splitBody_splitWrites n k s
  rcases exec_split_cases h with rfl | ⟨e, rfl, _⟩
  · exact ⟨rfl, rfl, fun _ _ => rfl, fun _ _ => rfl⟩
  · refine ⟨?_, splitBody_xc_255, fun c hc => splitBody_coef_above hc, fun a ha => splitBody_memRead hwf ha⟩
    rw [hw]
    rfl

end Sys2Proof.Proofs
end

section
/-! PROOF. O29: the shuffle over given draws (R197 to R199), to its end or to the draw that fails. -/

namespace Sys2Proof.Machine

open Sys2Proof.Safety

/-! ### Draws, one more at a time -/

theorem shuffled_append (bytes : List Byte) (b : Byte) : shuffled (bytes ++ [b]) =
    swapped (shuffled bytes) (254 - bytes.length) (drawnIndex (254 - bytes.length) b) := by
  simp [shuffled, List.zipIdx_append]

theorem indexBytes_append (draws : List (List Byte × Byte)) (d : List Byte × Byte) :
    indexBytes (draws ++ [d]) = indexBytes draws ++ (d.1 ++ [d.2]) := by
  simp [indexBytes]

theorem acceptedBytes_append (draws : List (List Byte × Byte)) (d : List Byte × Byte) :
    acceptedBytes (draws ++ [d]) = acceptedBytes draws ++ [d.2] :=
  List.map_append

theorem length_acceptedBytes (draws : List (List Byte × Byte)) : (acceptedBytes draws).length = draws.length :=
  List.length_map _

theorem indexDraws_nil (limit : Nat) : IndexDraws limit [] := fun _ hq => absurd hq (Nat.not_lt_zero _)

/-- Fewer than `limit` rejected bytes, and then an accepted one, for index `t` (R199). -/
def DrawsIndex (limit t : Nat) (d : List Byte × Byte) : Prop :=
  d.1.length < limit ∧ (∀ b ∈ d.1, t < drawnIndex t b) ∧ drawnIndex t d.2 ≤ t

theorem indexDraws_append (limit : Nat) (draws : List (List Byte × Byte)) (d : List Byte × Byte) :
    IndexDraws limit (draws ++ [d]) ↔ IndexDraws limit draws ∧ DrawsIndex limit (254 - draws.length) d := by
  have hold (q : Nat) (hq : q < draws.length) : (draws ++ [d]).getD q ([], 0) = draws.getD q ([], 0) :=
    List.getD_append _ _ _ _ hq
  have hnew : (draws ++ [d]).getD draws.length ([], 0) = d := by simp
  simp only [IndexDraws, List.length_append, List.length_cons, List.length_nil, Nat.zero_add]
  constructor
  · intro h
    refine ⟨fun q hq => hold q hq ▸ h q (Nat.lt_succ_of_lt hq), ?_⟩
    have hlast := h draws.length (Nat.lt_succ_self _)
    rwa [hnew] at hlast
  · rintro ⟨h, hlast⟩ q hq
    rcases Nat.lt_succ_iff_lt_or_eq.mp hq with hq | rfl
    · rw [hold q hq]
      exact h q hq
    · rwa [hnew]

theorem downFrom_of_pos {n : Nat} (h : 0 < n) : downFrom n = n :: downFrom (n - 1) := by
  obtain ⟨n, rfl⟩ := Nat.exists_eq_add_of_lt h
  rw [Nat.zero_add, downFrom, Nat.add_sub_cancel]

/-! ### One index of the shuffle -/

theorem shuffleAt_accepted {t : Nat} {d : List Byte × Byte} {rest : List Answer} {s : State}
    (hd : DrawsIndex s.cfg.rejLimit t d) (h : s.entropy = d.1.map .ok ++ .ok d.2 :: rest) :
    shuffleAt t s = (.ok, exchangeXc t (drawnIndex t d.2) { s with entropy := rest }) := by
  obtain ⟨hlimit, hrej, hacc⟩ := hd
  rw [shuffleAt_eq, drawIndex_accepted hrej hlimit hacc h]
  rfl

/-- The ways in which all the draws for index `t` can come to nothing (R199): a failing answer, or `REJ_LIMIT` rejections. -/
def DrawsFail (limit t : Nat) (rejected : List Byte) (rest answers : List Answer) : Prop :=
  (∀ b ∈ rejected, t < drawnIndex t b) ∧
    (rejected.length < limit ∧ answers = rejected.map .ok ++ .fail :: rest ∨
      rejected.length = limit ∧ answers = rejected.map .ok ++ rest)

theorem shuffleAt_fail {t : Nat} {rejected : List Byte} {rest : List Answer} {s : State}
    (h : DrawsFail s.cfg.rejLimit t rejected rest s.entropy) :
    shuffleAt t s = (.error .randomnessFailure, { s with entropy := rest }) := by
  obtain ⟨hrej, ⟨hlt, h⟩ | ⟨heq, h⟩⟩ := h
  · rw [shuffleAt_eq, drawIndex_fail hrej hlt h]
    rfl
  · rw [shuffleAt_eq, drawIndex_exhausted hrej heq h]
    rfl

/-! ### The shuffle so far -/

/-- `u` is `w` with the permutation that accepted bytes make in `XC[0..254]`, and the answers `rest` to come. -/
structure ShuffledTo (w : State) (accepted : List Byte) (rest : List Answer) (u : State) : Prop where
  frame : u = { w with entropy := rest, xc := u.xc }
  coordinates : ∀ j, j < 255 → entry u.xc j = shuffled accepted j
  last : entry u.xc 255 = entry w.xc 255

theorem identityXc_shuffledTo (w : State) : ShuffledTo w [] w.entropy (identityXc w) where
  frame := identityXc_frame w
  coordinates j hj := by
    rw [identityXc_entry, if_pos hj]
    rfl
  last := by rw [identityXc_entry, if_neg (Nat.lt_irrefl 255)]

theorem ShuffledTo.exchange {w u : State} {accepted : List Byte} {rest rest' : List Answer} {b : Byte}
    (h : ShuffledTo w accepted rest u) (hb : drawnIndex (254 - accepted.length) b ≤ 254 - accepted.length) :
    ShuffledTo w (accepted ++ [b]) rest' (exchangeXc (254 - accepted.length) (drawnIndex (254 - accepted.length) b)
      { u with entropy := rest' }) where
  frame := by
    rw [h.frame]
    rfl
  coordinates j hj := by
    have ht := h.coordinates (254 - accepted.length) (by omega)
    have hr := h.coordinates (drawnIndex (254 - accepted.length) b) (by omega)
    have hj' := h.coordinates j hj
    rw [exchangeXc_entry _ _ (by omega) (by omega), shuffled_append, swapped]
    generalize drawnIndex (254 - accepted.length) b = r at hr ⊢
    generalize 254 - accepted.length = t at ht ⊢
    simp only [ht, hr, hj']
    by_cases hjr : j = r
    · by_cases hjt : j = t
      · simp [← hjr, ← hjt]
      · simp [hjr, hjr ▸ hjt]
    · simp [hjr]
  last := by
    rw [exchangeXc_entry _ _ (by omega) (by omega), if_neg (by omega), if_neg (by omega)]
    exact h.last

/-- The shuffle draws on from where given draws have brought it. -/
theorem shuffle_draws {w : State} {draws : List (List Byte × Byte)} {rest : List Answer} (hlen : draws.length ≤ 254)
    (hdraws : IndexDraws w.cfg.rejLimit draws) (h : w.entropy = (indexBytes draws).map .ok ++ rest) :
    ∃ u, ShuffledTo w (acceptedBytes draws) rest u ∧
      shuffle (identityXc w) = forEach (downFrom (254 - draws.length)) shuffleAt u := by
  induction draws using List.reverseRecOn generalizing rest with
  | nil =>
    obtain rfl : w.entropy = rest := h
    exact ⟨_, identityXc_shuffledTo w, rfl⟩
  | append_singleton draws d ih =>
    rw [List.length_append, List.length_singleton] at hlen ⊢
    obtain ⟨hdraws, hd⟩ := (indexDraws_append _ draws d).mp hdraws
    rw [indexBytes_append, List.map_append, List.map_append, List.append_assoc, List.append_assoc] at h
    obtain ⟨u, hu, hrun⟩ := ih (by omega) hdraws h
    have hcfg : u.cfg = w.cfg := by rw [hu.frame]
    have hstep : shuffleAt (254 - draws.length) u = _ :=
      shuffleAt_accepted (hcfg ▸ hd) (congrArg State.entropy hu.frame :)
    have hnext := hu.exchange (rest' := rest) (b := d.2) (by rw [length_acceptedBytes]; exact hd.2.2)
    rw [← acceptedBytes_append, length_acceptedBytes] at hnext
    refine ⟨_, hnext, ?_⟩
    rw [hrun, downFrom_of_pos (by omega), forEach_cons, Body.andThen_ok hstep, Nat.sub_sub]
    rfl

/-! ### A shuffle that fails -/

/-- When all the draws for an index come to nothing, `SPLIT` ends with the exchanges so far (R205). -/
theorem splitBody_of_failing_draw {n k : BitVec 12} {s : State} {draws : List (List Byte × Byte)} {rejected : List Byte}
    {rest answers : List Answer} (he : splitError n k s = none) (hlen : draws.length < 254)
    (hdraws : IndexDraws s.cfg.rejLimit draws)
    (hfail : DrawsFail s.cfg.rejLimit (254 - draws.length) rejected rest answers)
    (h : s.entropy = (indexBytes draws).map .ok ++ answers) :
    ∃ u, ShuffledTo (clearShlen s) (acceptedBytes draws) rest u ∧ splitBody n k s = (.error .randomnessFailure, u) := by
  obtain ⟨u, hu, hrun⟩ := shuffle_draws (w := clearShlen s) hlen.le hdraws h
  have hcfg : u.cfg = s.cfg := by rw [hu.frame]; rfl
  have hentropy : u.entropy = answers := by rw [hu.frame]
  have hstep := shuffleAt_fail (s := u) (hcfg.symm ▸ hentropy.symm ▸ hfail)
  refine ⟨{ u with entropy := rest }, ⟨by rw [hu.frame], hu.coordinates, hu.last⟩, ?_⟩
  have hshuffle : shuffle (identityXc (clearShlen s)) = (.error .randomnessFailure, { u with entropy := rest }) := by
    rw [hrun, downFrom_of_pos (by omega), forEach_cons, Body.andThen_stop hstep nofun]
  rw [splitBody_go he, Body.andThen_stop hshuffle nofun]

/-- The same, as the command ends. -/
theorem exec_split_of_failing_draw {n k : BitVec 12} {s : State} {draws : List (List Byte × Byte)} {rejected : List Byte}
    {rest answers : List Answer} (hargs : SplitArgs n k s) (hlen : draws.length < 254)
    (hdraws : IndexDraws s.cfg.rejLimit draws)
    (hfail : DrawsFail s.cfg.rejLimit (254 - draws.length) rejected rest answers)
    (h : s.entropy = (indexBytes draws).map .ok ++ answers) :
    ∃ (v : Vector Byte 256) (z : Vector (BitVec 16) 256),
      EndsAs (exec (.split n k) s) { s with entropy := rest, xc := v, shlen := z } .randomnessFailure ∧
      (∀ j, j < 256 → entry z j = 0) ∧
      (∀ j, j < 255 → entry v j = shuffled (acceptedBytes draws) j) ∧ entry v 255 = entry s.xc 255 := by
  obtain ⟨u, hu, hrun⟩ := splitBody_of_failing_draw ((splitError_eq_none n k s).mpr hargs) hlen hdraws hfail h
  have hframe : u = { s with entropy := rest, xc := u.xc, shlen := Vector.replicate Config.slotCount 0 } := hu.frame
  exact ⟨u.xc, _, hframe ▸ exec_endsAs_error hrun, fun j _ => entry_replicate_zero j, hu.coordinates, hu.last⟩

end Sys2Proof.Machine

namespace Sys2Proof.Proofs

open Sys2Proof.Machine Sys2Proof.Safety

/-- Settles O29: 0xFF is rejected at `t = 254`, so the shuffle fails with no exchange made. -/
theorem rejectionLimitFailsSplit : Obligations.RejectionLimitFailsSplit := by
  unfold Obligations.RejectionLimitFailsSplit
  intro n k s rest _ hargs h
  have hrejected : ∀ b ∈ List.replicate s.cfg.rejLimit (0xFF : Byte), 254 < drawnIndex 254 b := fun b hb => by
    rw [List.eq_of_mem_replicate hb]
    decide
  exact exec_split_of_failing_draw (draws := []) (answers := .replicate s.cfg.rejLimit (.ok 0xFF) ++ rest) hargs
    (by decide) (indexDraws_nil _) ⟨hrejected, .inr ⟨List.length_replicate, by rw [List.map_replicate]⟩⟩ h

end Sys2Proof.Proofs
end

section
/-! PROOF. O25: the byte positions of `SPLIT` over given coefficient bytes, its tail, and its run (R200 to R204). -/

namespace Sys2Proof.Machine

open Sys2Proof.Safety

/-! ### A loop that writes one share cell of every slot -/

/-- `v` is `u` with the byte `val j` in `SHARE[j][o]` for every slot `j` below `n`. -/
structure WritesShares (n o : Nat) (val : Nat → Byte) (u v : State) : Prop where
  frame : v = { u with mem := v.mem }
  wf : Memory.wf v.mem
  written : ∀ j, j < n → v.share j o = val j
  others : ∀ a, (∀ j, j < n → a ≠ shareAddr j o) → v.memRead a = u.memRead a

theorem foldl_writesShares {o : Nat} {val : Nat → Byte} {u : State} {f : State → Nat → State} (hwf : Memory.wf u.mem)
    (ho : o < 0x10000) (hf : ∀ v j, v = { u with mem := v.mem } → f v j = v.setShare j o (val j)) (n : Nat) :
    WritesShares n o val u ((List.range n).foldl f u) := by
  induction n with
  | zero => exact ⟨rfl, hwf, by simp, fun _ _ => rfl⟩
  | succ n ih =>
    rw [List.range_succ, List.foldl_append, List.foldl_cons, List.foldl_nil]
    generalize (List.range n).foldl f u = v at ih
    rw [hf v n ih.frame]
    have hread (a : Nat) : (v.setShare n o (val n)).memRead a = if a = shareAddr n o then val n else v.memRead a :=
      State.memRead_memWrite v ih.wf _ _ a
    refine ⟨?_, Memory.wf_store _ ih.wf _ _, fun j hj => ?_, fun a ha => ?_⟩
    · rw [ih.frame]
      rfl
    · rw [State.share, hread]
      split_ifs with heq
      · rw [((shareAddr_inj ho ho).mp heq).1]
      · exact ih.written j (Nat.lt_of_le_of_ne (Nat.le_of_lt_succ hj) fun hjn => heq (hjn ▸ rfl))
    · rw [hread, if_neg (ha n (Nat.lt_succ_self n))]
      exact ih.others a fun j hj => ha j (Nat.lt_succ_of_lt hj)

theorem evalShares_writesShares (n k : Nat) {i : Nat} {u : State} (hwf : Memory.wf u.mem) (hi : i < 0x10000) :
    WritesShares n i (fun j => u.horner k (entry u.xc j)) u (evalShares n k i u) :=
  foldl_writesShares hwf hi (fun v j hv => by rw [hv]; rfl) n

theorem tailShares_writesShares (n : Nat) {u : State} (hwf : Memory.wf u.mem) :
    WritesShares n u.len.toNat (entry u.xc) u (tailShares n u) :=
  foldl_writesShares hwf u.len.isLt (fun v j hv => by rw [hv]) n

theorem markShares_entry {n : Nat} (hn : n ≤ 256) (u : State) (j : Nat) :
    entry (markShares n u).shlen j = if j < n then u.len + 1 else entry u.shlen j := by
  unfold markShares
  induction n with
  | zero => simp
  | succ n ih =>
    have hlen := foldl_inv (P := fun v => v.len = u.len) (List.range n) (fun v j => v.setShlen j (v.len + 1))
      (fun _ _ _ hv => hv) u rfl
    have ih := ih (by omega)
    rw [List.range_succ, List.foldl_append, List.foldl_cons, List.foldl_nil]
    generalize (List.range n).foldl (fun v j => v.setShlen j (v.len + 1)) u = v at hlen ih ⊢
    refine (entry_setEntry _ _ _ (by omega) j).trans ?_
    rw [ih, hlen]
    by_cases hjn : j = n
    · rw [if_pos hjn, if_pos (by omega)]
    · rw [if_neg hjn]
      simp only [Nat.lt_succ_iff_lt_or_eq, hjn, or_false]

/-- `t` is `u` with the coordinates behind the secret bytes of `n` shares, and their lengths (R202, R203). -/
structure TailedTo (n : Nat) (u t : State) : Prop where
  frame : t = { u with mem := t.mem, shlen := t.shlen }
  lengths : ∀ j, entry t.shlen j = if j < n then u.len + 1 else entry u.shlen j
  tails : ∀ j, j < n → t.share j u.len.toNat = entry u.xc j
  others : ∀ a, (∀ j, j < n → a ≠ shareAddr j u.len.toNat) → t.memRead a = u.memRead a

theorem splitTail_tailedTo {n : Nat} {u : State} (hn : n ≤ 256) (hwf : Memory.wf u.mem) :
    TailedTo n u (markShares n (tailShares n u)) := by
  have htail := tailShares_writesShares n hwf
  have hmark := markShares_entry hn (tailShares n u)
  have hframe := markShares_frame n (tailShares n u)
  generalize tailShares n u = w at htail hmark hframe
  generalize markShares n w = t at hmark hframe
  have hread (a : Nat) : t.memRead a = w.memRead a := by rw [hframe]; rfl
  refine ⟨by rw [hframe, htail.frame], fun j => ?_, fun j hj => (hread _).trans (htail.written j hj),
    fun a ha => (hread a).trans (htail.others a ha)⟩
  rw [hmark, htail.frame]

/-! ### The drawn coefficients -/

theorem polyValue_congr {poly : BitVec 9} {c c' : Nat → Byte} {n : Nat} (h : ∀ i < n, c i = c' i) (x : Byte) :
    polyValue poly c n x = polyValue poly c' n x :=
  fieldSum_congr fun i hi => by rw [h i hi]

/-- The coefficients of byte position `i` of `SPLIT`: the intercept and the `i`-th `k - 1` of the drawn bytes (R200). -/
def splitCoef (u : State) (k : Nat) (co : List Byte) (i : Nat) : Nat → Byte :=
  fun c => if c = 0 then u.secret i else co.getD (i * (k - 1) + (c - 1)) 0

theorem splitCoef_zero (u : State) (k : Nat) (co : List Byte) (i : Nat) : splitCoef u k co i 0 = u.secret i := rfl

theorem splitCoef_of_ne_zero (u : State) (k : Nat) (co : List Byte) (i : Nat) {c : Nat} (h : c ≠ 0) :
    splitCoef u k co i c = co.getD (i * (k - 1) + (c - 1)) 0 := if_neg h

theorem getD_take_drop (co : List Byte) (a : Nat) {b c : Nat} (h : c < b) :
    ((co.drop a).take b).getD c 0 = co.getD (a + c) 0 := by
  rw [List.getD_eq_getElem?_getD, List.getD_eq_getElem?_getD, List.getElem?_take_of_lt h, List.getElem?_drop]

/-! ### The byte positions -/

/-- What `SPLIT n, k` has made of `s` when its shuffle, with the accepted bytes `accepted`, and its first `p` byte positions
are done, while the source answers with the coefficient bytes `co` and then `rest` (R197 to R201). -/
structure EvaluatedTo (n k : Nat) (accepted co : List Byte) (rest : List Answer) (s : State) (p : Nat) (v : State) :
    Prop where
  frame : v = { s with entropy := (co.drop (p * (k - 1))).map .ok ++ rest, shlen := Vector.replicate Config.slotCount 0,
                       xc := v.xc, coef := v.coef, mem := v.mem }
  wf : Memory.wf v.mem
  coordinates : ∀ j, j < 255 → entry v.xc j = shuffled accepted j
  last : entry v.xc 255 = entry s.xc 255
  coef : ∀ c, entry v.coef c = if c < k ∧ 0 < p then splitCoef s k co (p - 1) c else entry s.coef c
  shares : ∀ j i, j < n → i < p → v.share j i = polyValue s.cfg.poly (splitCoef s k co i) k (shuffled accepted j)
  memory : ∀ a, (∀ j i, j < n → i < p → a ≠ shareAddr j i) → v.memRead a = s.memRead a

theorem ShuffledTo.evaluatedTo_zero {n k : Nat} {accepted co : List Byte} {rest : List Answer} {s u : State}
    (h : ShuffledTo (clearShlen s) accepted (co.map .ok ++ rest) u) (hwf : Memory.wf s.mem) :
    EvaluatedTo n k accepted co rest s 0 u := by
  have hframe : u = { s with entropy := co.map .ok ++ rest, shlen := Vector.replicate Config.slotCount 0,
                             xc := u.xc, coef := s.coef, mem := s.mem } := h.frame
  refine ⟨?_, ?_, h.coordinates, h.last, fun c => ?_, by simp, fun a _ => ?_⟩
  · rw [Nat.zero_mul, List.drop_zero, hframe]
  · rw [hframe]
    exact hwf
  · rw [if_neg fun hc => Nat.lt_irrefl 0 hc.2, hframe]
  · rw [hframe]
    rfl

section
variable {n k p : Nat} {accepted co : List Byte} {rest : List Answer} {s v : State}

/-- No share cell is a secret cell, so the secret stays. -/
theorem EvaluatedTo.secret (h : EvaluatedTo n k accepted co rest s p v) (hn : n ≤ 255) (hp : p ≤ 0x10000) (o : Nat) :
    v.secret o = s.secret o :=
  h.memory _ fun _ _ hj hi heq => shareAddr_ne_secretAddr (by omega) (by omega) o heq.symm

/-- `COEF` once the intercept and the first `q` coefficients of position `p` are written, `q` below `k`. -/
theorem EvaluatedTo.generatedCoef {q : Nat} (h : EvaluatedTo n k accepted co rest s p v) (hn : n ≤ 255) (hp : p ≤ 0x10000)
    (hk : k ≤ 256) (hq : q < k) (hco : p * (k - 1) + q ≤ co.length) (c : Nat) :
    entry (generatedCoef (v.secret p) ((co.drop (p * (k - 1))).take q) v.coef) c =
      if c ≤ q then splitCoef s k co p c
      else if c < k ∧ 0 < p then splitCoef s k co (p - 1) c else entry s.coef c := by
  have hlength : ((co.drop (p * (k - 1))).take q).length = q := by
    rw [List.length_take, List.length_drop]
    omega
  rw [entry_generatedCoef _ _ (by omega), hlength, h.secret hn hp, h.coef]
  by_cases hc : c = 0
  · rw [if_pos hc, if_pos (by omega), hc, splitCoef_zero]
  · rw [if_neg hc]
    by_cases hcq : c ≤ q
    · rw [if_pos hcq, if_pos hcq, getD_take_drop _ _ (by omega), splitCoef_of_ne_zero _ _ _ _ hc]
    · rw [if_neg hcq, if_neg hcq]

theorem EvaluatedTo.byte (h : EvaluatedTo n k accepted co rest s p v) (hpoly : s.cfg.poly.getLsbD 8 = true) (hn : n ≤ 255)
    (hk : 1 ≤ k) (hk' : k ≤ 256) (hp : p < 0x10000) (hco : (p + 1) * (k - 1) ≤ co.length) :
    ∃ w, splitByte n k p v = (.ok, w) ∧ EvaluatedTo n k accepted co rest s (p + 1) w := by
  have hsucc : (p + 1) * (k - 1) = p * (k - 1) + (k - 1) := Nat.succ_mul _ _
  have hlength : ((co.drop (p * (k - 1))).take (k - 1)).length = k - 1 := by
    rw [List.length_take, List.length_drop]
    omega
  have hentropy : v.entropy =
      ((co.drop (p * (k - 1))).take (k - 1)).map .ok ++ ((co.drop ((p + 1) * (k - 1))).map .ok ++ rest) := by
    rw [h.frame, hsucc, ← List.drop_drop, ← List.append_assoc, ← List.map_append, List.take_append_drop]
  have hgen := generate_eq_generatedCoef (v.secret p) hlength hentropy
  have hcoef := h.generatedCoef hn hp.le hk' (Nat.sub_lt hk Nat.zero_lt_one) (hsucc ▸ hco)
  generalize Machine.generatedCoef (v.secret p) _ v.coef = coef at hgen hcoef
  have hw := evalShares_writesShares n k
    (u := { v with entropy := (co.drop ((p + 1) * (k - 1))).map .ok ++ rest, coef := coef }) h.wf hp
  refine ⟨_, Body.andThen_ok hgen, ?_⟩
  generalize evalShares n k p _ = w at hw
  have hxc : w.xc = v.xc := by rw [hw.frame]
  refine ⟨?_, hw.wf, hxc ▸ h.coordinates, hxc ▸ h.last, fun c => ?_, fun j i hj hi => ?_, fun a ha => ?_⟩
  · rw [hw.frame, h.frame]
  · rw [hw.frame]
    refine (hcoef c).trans ?_
    by_cases hck : c < k
    · simp [hck, Nat.le_sub_one_of_lt hck]
    · rw [if_neg (by omega), if_neg fun hc => hck hc.1, if_neg fun hc => hck hc.1]
  · rcases Nat.lt_succ_iff_lt_or_eq.mp hi with hip | rfl
    · have hother := hw.others (shareAddr j i) fun _ _ heq => hip.ne ((shareAddr_inj (by omega) hp).mp heq).2
      exact hother.trans (h.shares j i hj hip)
    · have hcfg : v.cfg = s.cfg := by rw [h.frame]
      rw [hw.written j hj, State.horner, horner_eq_polyValue (hcfg.symm ▸ hpoly) _ hk, hcfg, h.coordinates j (by omega)]
      exact polyValue_congr (fun c hc => (hcoef c).trans (if_pos (by omega))) _
  · exact (hw.others a fun j hj => ha j p hj (Nat.lt_succ_self p)).trans
      (h.memory a fun j i hj hi => ha j i hj (Nat.lt_succ_of_lt hi))

theorem splitBytes_run {u : State} (h : EvaluatedTo n k accepted co rest s 0 u) (hpoly : s.cfg.poly.getLsbD 8 = true)
    (hn : n ≤ 255) (hk : 1 ≤ k) (hk' : k ≤ 256) (hp : p ≤ 0x10000) (hco : p * (k - 1) ≤ co.length) :
    ∃ v, forEach (List.range p) (splitByte n k) u = (.ok, v) ∧ EvaluatedTo n k accepted co rest s p v := by
  induction p with
  | zero => exact ⟨u, rfl, h⟩
  | succ p ih =>
    obtain ⟨v, hv, heval⟩ := ih (by omega) ((Nat.mul_le_mul_right _ (Nat.le_succ p)).trans hco)
    obtain ⟨w, hw, heval'⟩ := heval.byte hpoly hn hk hk' hp hco
    refine ⟨w, ?_, heval'⟩
    rw [List.range_succ, forEach_append, Body.andThen_ok hv, forEach_cons, Body.andThen_ok hw, forEach_nil]

end

/-! ### The command -/

/-- A `SPLIT` whose shuffle is drawn goes on with its byte positions. -/
theorem splitBody_of_draws {n k : BitVec 12} {s : State} {draws : List (List Byte × Byte)} {co : List Byte}
    {rest : List Answer} (hwf : Memory.wf s.mem) (hargs : SplitArgs n k s) (hlen : draws.length = 254)
    (hdraws : IndexDraws s.cfg.rejLimit draws)
    (h : s.entropy = (indexBytes draws).map .ok ++ co.map .ok ++ rest) :
    ∃ u, EvaluatedTo n.toNat k.toNat (acceptedBytes draws) co rest s 0 u ∧ splitBody n k s =
      Body.andThen (forEach (List.range s.len.toNat) (splitByte n.toNat k.toNat))
        (fun v => (.ok, markShares n.toNat (tailShares n.toNat v))) u := by
  rw [List.append_assoc] at h
  obtain ⟨u, hu, hrun⟩ := shuffle_draws (w := clearShlen s) hlen.le hdraws h
  rw [hlen] at hrun
  exact ⟨u, hu.evaluatedTo_zero hwf, by rw [splitBody_go ((splitError_eq_none n k s).mpr hargs), Body.andThen_ok hrun]⟩

end Sys2Proof.Machine

namespace Sys2Proof.Proofs

open Sys2Proof.Machine Sys2Proof.Safety

/-- Settles O25: the shuffle, then one polynomial for each byte position, then the tail over the whole. -/
theorem splitRun : Obligations.SplitRun := by
  unfold Obligations.SplitRun
  intro n k s draws co rest hcfg hwf hargs hlen hdraws hco h
  obtain ⟨u, hu, hrun⟩ := splitBody_of_draws hwf hargs hlen hdraws h
  obtain ⟨hk, hkn, hn, hlen1, hlmax⟩ := hargs
  obtain ⟨v, hv, heval⟩ := splitBytes_run hu (bit8_of_legal hcfg.1) hn (by omega) (by omega) s.len.isLt.le hco.ge
  have hrun' := hrun.trans (Body.andThen_ok hv)
  have htail := splitTail_tailedTo (n := n.toNat) (by omega) heval.wf
  generalize markShares n.toNat (tailShares n.toNat v) = t at hrun' htail
  have hvlen : v.len = s.len := by rw [heval.frame]
  have hxc : t.xc = v.xc := by rw [htail.frame]
  have hother : ∀ a, (∀ j, j < n.toNat → a ≠ shareAddr j s.len.toNat) → t.memRead a = v.memRead a :=
    hvlen ▸ htail.others
  refine ⟨t.endOk, ?ends, runCommand_ok hrun', fun j hj => ?xc, ?last, fun c => ?coef, fun j _ => ?shlen,
    fun j hj => ?tail, fun j i hj hi => ?shares, fun a ha => ?memory⟩
  case ends =>
    have hfinal : t = { s with entropy := rest, xc := t.xc, coef := t.coef, shlen := t.shlen, mem := t.mem } := by
      rw [htail.frame, heval.frame, ← hco, List.drop_length]
      rfl
    exact hfinal ▸ exec_endsAs hrun'
  case xc => exact (congrArg (entry · j) hxc).trans (heval.coordinates j hj)
  case last => exact (congrArg (entry · 255) hxc).trans heval.last
  case coef =>
    have hcoef : t.coef = v.coef := by rw [htail.frame]
    refine (congrArg (entry · c) hcoef).trans ((heval.coef c).trans ?_)
    by_cases hc : c = 0
    · rw [if_pos ⟨by omega, hlen1⟩, if_pos hc, hc, splitCoef_zero]
    · simp only [splitCoef_of_ne_zero _ _ _ _ hc, if_neg hc, Nat.lt_of_lt_of_le Nat.zero_lt_one hlen1, and_true]
  case shlen =>
    have hclear : entry v.shlen j = 0 := by
      rw [heval.frame]
      exact entry_replicate_zero j
    exact (htail.lengths j).trans (by rw [hvlen, hclear])
  case tail =>
    refine Eq.trans ?_ ((htail.tails j hj).trans (heval.coordinates j (by omega)))
    rw [hvlen]
    rfl
  case shares =>
    have hne : ∀ j', j' < n.toNat → shareAddr j i ≠ shareAddr j' s.len.toNat := fun j' _ heq =>
      hi.ne ((shareAddr_inj (hi.trans s.len.isLt) s.len.isLt).mp heq).2
    exact (hother _ hne).trans (heval.shares j i hj hi)
  case memory =>
    exact (hother a fun j hj => ha j _ hj le_rfl).trans (heval.memory a fun j i hj hi => ha j i hj hi.le)

end Sys2Proof.Proofs
end

section
/-! PROOF. O28: how `SPLIT` ends with RandomnessFailure (R205). -/

namespace Sys2Proof.Machine

open Sys2Proof.Safety

/-- A failing answer at a byte position ends `SPLIT` with what its bytes so far have made of `COEF` (R151, R205). -/
theorem splitByte_fail {n k p : Nat} {accepted co : List Byte} {rest : List Answer} {s v : State}
    (h : EvaluatedTo n k accepted co (.fail :: rest) s p v) (hq : co.length - p * (k - 1) < k - 1) :
    splitByte n k p v = (.error .randomnessFailure, { v with
      entropy := rest, coef := generatedCoef (v.secret p) (co.drop (p * (k - 1))) v.coef }) := by
  have hentropy : v.entropy = (co.drop (p * (k - 1))).map .ok ++ .fail :: rest := by rw [h.frame]
  exact Body.andThen_stop (generate_fail _ (by rwa [List.length_drop]) hentropy) nofun

theorem forEach_range_stop {f : Nat → Body} {s u v : State} {x : Exit} {p l : Nat} (hp : p < l)
    (hrun : forEach (List.range p) f s = (.ok, u)) (hstop : f p u = (x, v)) (hx : x ≠ .ok) :
    forEach (List.range l) f s = (x, v) := by
  obtain ⟨r, rfl⟩ := Nat.exists_eq_add_of_lt hp
  rw [Nat.add_assoc, List.range_eq_range', ← List.range'_append_1, forEach_append, ← List.range_eq_range',
    Body.andThen_ok hrun, Nat.zero_add, List.range'_succ, forEach_cons, Body.andThen_stop hstop hx]

/-! ### Whatever was drawn -/

/-- No check of `SPLIT` raises RandomnessFailure. -/
theorem splitError_ne_randomnessFailure (n k : BitVec 12) (s : State) : splitError n k s ≠ some .randomnessFailure := by
  unfold splitError
  split_ifs <;> decide

end Sys2Proof.Machine

namespace Sys2Proof.Proofs

open Sys2Proof.Machine Sys2Proof.Safety

/-- The first part of O28: a failing draw is met before any share is marked. -/
theorem failedSplit_marks_no_share {n k : BitVec 12} {s t : State} (hbusy : s.busy = true)
    (h : exec (.split n k) s = .next t) (hended : t.busy = false) (hcode : t.ecode = .randomnessFailure) :
    t.done = true ∧ (∀ j, j < 256 → entry t.shlen j = 0) ∧ PermutesNonzero t.xc := by
  rcases exec_split_cases h with rfl | ⟨e, rfl, ⟨_, he⟩ | hexit⟩
  · exact absurd (hbusy.symm.trans hended) (by decide)
  · exact absurd (he.symm.trans hcode) (by decide)
  · obtain rfl : e = .randomnessFailure := hcode
    rcases splitBody_error hexit with hcheck | ⟨hgo, _⟩
    · exact absurd hcheck (splitError_ne_randomnessFailure n k s)
    · exact ⟨rfl, fun j _ => splitBody_shlen_of_ne_ok hgo (by simp [hexit]) j, splitBody_permutes hgo⟩

/-- The third part of O28: the draw that fails is the one after `q` coefficients of byte position `p`. -/
theorem splitBody_of_failing_coefficient {n k : BitVec 12} {s : State} {draws : List (List Byte × Byte)} {co : List Byte}
    {rest : List Answer} {p q : Nat} (hcfg : s.cfg.Legal) (hwf : Memory.wf s.mem) (hargs : SplitArgs n k s)
    (hlen : draws.length = 254) (hdraws : IndexDraws s.cfg.rejLimit draws) (hp : p < s.len.toNat) (hq : q < k.toNat - 1)
    (hco : p * (k.toNat - 1) + q = co.length)
    (h : s.entropy = (indexBytes draws).map .ok ++ co.map .ok ++ .fail :: rest) :
    ∃ v, EvaluatedTo n.toNat k.toNat (acceptedBytes draws) co (.fail :: rest) s p v ∧
      splitBody n k s = (.error .randomnessFailure, { v with
        entropy := rest, coef := generatedCoef (v.secret p) ((co.drop (p * (k.toNat - 1))).take q) v.coef }) := by
  obtain ⟨u, hu, hrun⟩ := splitBody_of_draws hwf hargs hlen hdraws h
  obtain ⟨hk, hkn, hn, _⟩ := hargs
  obtain ⟨v, hv, heval⟩ := splitBytes_run (p := p) hu (bit8_of_legal hcfg.1) hn (by omega) (by omega) (by omega)
    (by omega)
  have htake : (co.drop (p * (k.toNat - 1))).take q = co.drop (p * (k.toNat - 1)) :=
    List.take_of_length_le (by rw [List.length_drop]; omega)
  refine ⟨v, heval, ?_⟩
  rw [hrun, Body.andThen_stop (forEach_range_stop hp hv (splitByte_fail heval (by omega)) nofun) nofun, htake]

/-- Settles O28: a draw that fails is one of the shuffle's or one of a coefficient's. -/
theorem failedSplitReturnsNoShare : Obligations.FailedSplitReturnsNoShare := by
  unfold Obligations.FailedSplitReturnsNoShare
  refine ⟨fun n k s t _ hbusy h hended hcode => failedSplit_marks_no_share hbusy h hended hcode, ?_, ?_⟩
  · intro n k s draws rejected rest _ hargs hlen hdraws hrej hanswers
    rcases hanswers with ⟨hlt, h⟩ | ⟨heq, h⟩ <;> rw [List.append_assoc] at h
    · exact exec_split_of_failing_draw hargs hlen hdraws ⟨hrej, .inl ⟨hlt, rfl⟩⟩ h
    · exact exec_split_of_failing_draw hargs hlen hdraws ⟨hrej, .inr ⟨heq, rfl⟩⟩ h
  · intro n k s draws co rest hcfg hwf hargs hlen hdraws hco h p q
    have hdiv : p * (k.toNat - 1) + q = co.length := Nat.div_add_mod' _ _
    have hq : q < k.toNat - 1 := Nat.mod_lt _ (Nat.sub_pos_of_lt hargs.1)
    have hp : p < s.len.toNat := Nat.div_lt_of_lt_mul (Nat.mul_comm _ _ ▸ hco)
    obtain ⟨v, heval, hrun⟩ := splitBody_of_failing_coefficient hcfg hwf hargs hlen hdraws hp hq hdiv h
    obtain ⟨hk, hkn, hn, _⟩ := hargs
    have hcoef := heval.generatedCoef (q := q) hn (by omega) (by omega) (by omega) hdiv.le
    generalize generatedCoef _ _ v.coef = coef at hcoef hrun
    refine ⟨_, ?ends, runCommand_error hrun, fun j _ => ?shlen, heval.coordinates, heval.last,
      fun c => (hcoef c).trans ?coef, heval.shares, heval.memory⟩
    case ends =>
      have hframe : { v with entropy := rest, coef := coef } =
          { s with entropy := rest, xc := v.xc, coef := coef, shlen := v.shlen, mem := v.mem } := by rw [heval.frame]
      exact hframe ▸ exec_endsAs_error hrun
    case shlen =>
      refine (congrArg (entry · j) (?_ : v.shlen = _)).trans (entry_replicate_zero j)
      rw [heval.frame]
    case coef =>
      by_cases hc : c = 0
      · rw [if_pos (by omega), if_pos hc, hc, splitCoef_zero]
      · simp only [splitCoef_of_ne_zero _ _ _ _ hc, if_neg hc]

end Sys2Proof.Proofs
end

section
/-! PROOF. O26: what a successful `SPLIT` has drawn, and so what it guarantees whatever was drawn (R206). -/

namespace Sys2Proof.Machine

open Sys2Proof.Safety

/-! ### The answers a successful draw consumed -/

/-- An index that was drawn was drawn after fewer rejected bytes than the draws allowed (R199). -/
theorem drawIndex_byte_inv {t tries : Nat} {s u : State} {r : Byte} (h : drawIndex t tries s = .byte r u) :
    ∃ d rest, DrawsIndex tries t d ∧ s.entropy = d.1.map .ok ++ .ok d.2 :: rest := by
  induction tries generalizing s with
  | zero => cases h
  | succ tries ih =>
    rw [drawIndex] at h
    rcases s.rngDraw_cases with ⟨_, hd⟩ | ⟨_, _, hd⟩ | ⟨b, rest, he, hd⟩ <;> rw [hd] at h
    · cases h
    · cases h
    · by_cases hb : drawnIndex t b ≤ t
      · exact ⟨([], b), rest, ⟨Nat.succ_pos _, by simp, hb⟩, he⟩
      · obtain ⟨d, rest', ⟨hlen, hrej, hacc⟩, he'⟩ := ih ((if_neg hb).symm.trans h)
        obtain rfl : rest = d.1.map .ok ++ .ok d.2 :: rest' := he'
        have hrej' : ∀ c ∈ b :: d.1, t < drawnIndex t c := List.forall_mem_cons.mpr ⟨Nat.lt_of_not_le hb, hrej⟩
        exact ⟨(b :: d.1, d.2), rest', ⟨Nat.succ_lt_succ hlen, hrej', hacc⟩, he⟩

theorem shuffleAt_ok_inv {t : Nat} {s u : State} (h : shuffleAt t s = (.ok, u)) :
    ∃ d rest, DrawsIndex s.cfg.rejLimit t d ∧ s.entropy = d.1.map .ok ++ .ok d.2 :: rest := by
  rw [shuffleAt_eq] at h
  cases hd : drawIndex t s.cfg.rejLimit s with
  | waiting => simp [hd, drawnExit] at h
  | fail _ => simp [hd, drawnExit] at h
  | byte r u' => exact drawIndex_byte_inv hd

theorem Body.andThen_ok_inv {p q : Body} {s u : State} (h : Body.andThen p q s = (.ok, u)) :
    ∃ t, p s = (.ok, t) ∧ q t = (.ok, u) := by
  rcases Body.andThen_cases p q s with ⟨t, ht, hrun⟩ | ⟨hne, hrun⟩
  · exact ⟨t, ht, hrun.symm.trans h⟩
  · exact absurd (by rw [← hrun, h]) hne

/-- A shuffle that has ended successfully has drawn an index for every `t` from 254 down. -/
theorem shuffle_ok_inv {w t : State} (h : shuffle (identityXc w) = (.ok, t)) {q : Nat} (hq : q ≤ 254) :
    ∃ (draws : List (List Byte × Byte)) (rest : List Answer), draws.length = q ∧ IndexDraws w.cfg.rejLimit draws ∧
      w.entropy = (indexBytes draws).map .ok ++ rest := by
  induction q with
  | zero => exact ⟨[], w.entropy, rfl, indexDraws_nil _, rfl⟩
  | succ q ih =>
    obtain ⟨draws, rest, rfl, hdraws, he⟩ := ih (by omega)
    obtain ⟨u, hu, hrun⟩ := shuffle_draws (by omega) hdraws he
    rw [hrun, downFrom_of_pos (by omega), forEach_cons] at h
    obtain ⟨_, hat, _⟩ := Body.andThen_ok_inv h
    obtain ⟨d, rest', hd, he'⟩ := shuffleAt_ok_inv hat
    have hcfg : u.cfg = w.cfg := by rw [hu.frame]
    have hentropy : u.entropy = rest := by rw [hu.frame]
    refine ⟨draws ++ [d], rest', by simp, (indexDraws_append _ _ _).mpr ⟨hdraws, hcfg ▸ hd⟩, ?_⟩
    rw [he, ← hentropy, he', indexBytes_append]
    simp

/-! ### Bytes drawn one after another -/

/-- `t` comes after `s`, `count` drawn bytes later. -/
def DrewBytes (count : Nat) (s t : State) : Prop :=
  ∃ bytes : List Byte, bytes.length = count ∧ s.entropy = bytes.map .ok ++ t.entropy

theorem DrewBytes.zero {s t : State} (h : s.entropy = t.entropy) : DrewBytes 0 s t := ⟨[], rfl, h⟩

theorem DrewBytes.trans {m n : Nat} {s t u : State} (h : DrewBytes m s t) (h' : DrewBytes n t u) :
    DrewBytes (m + n) s u := by
  obtain ⟨bytes, rfl, he⟩ := h
  obtain ⟨bytes', rfl, he'⟩ := h'
  exact ⟨bytes ++ bytes', List.length_append, by rw [he, he', List.map_append, List.append_assoc]⟩

theorem forEach_drewBytes {m : Nat} {f : Nat → Body} (hf : ∀ i s t, f i s = (.ok, t) → DrewBytes m s t) {is : List Nat}
    {s t : State} (h : forEach is f s = (.ok, t)) : DrewBytes (is.length * m) s t := by
  induction is generalizing s with
  | nil =>
    cases h
    rw [List.length_nil, Nat.zero_mul]
    exact .zero rfl
  | cons i is ih =>
    obtain ⟨u, hi, his⟩ := Body.andThen_ok_inv h
    rw [List.length_cons, Nat.succ_mul, Nat.add_comm]
    exact (hf i s u hi).trans (ih his)

theorem drawCoef_drewBytes (c : Nat) (s t : State) (h : drawCoef c s = (.ok, t)) : DrewBytes 1 s t := by
  rcases drawCoef_cases c s with ⟨_, hd⟩ | ⟨_, _, hd⟩ | ⟨b, rest, he, hd⟩ <;> rw [hd] at h <;> cases h
  exact ⟨[b], rfl, he⟩

theorem generate_drewBytes {cnt : Nat} {c0 : Byte} {s t : State} (h : generate cnt c0 s = (.ok, t)) :
    DrewBytes (cnt - 1) s t := by
  have hdrew := forEach_drewBytes drawCoef_drewBytes h
  rwa [List.length_range', Nat.mul_one] at hdrew

theorem splitByte_drewBytes (n k i : Nat) (s t : State) (h : splitByte n k i s = (.ok, t)) : DrewBytes (k - 1) s t := by
  obtain ⟨u, hgen, heval⟩ := Body.andThen_ok_inv h
  obtain rfl : evalShares n k i u = t := congrArg Prod.snd heval
  exact (generate_drewBytes hgen).trans (.zero (by rw [evalShares_frame]))

/-- A `SPLIT` that has ended successfully has drawn what `splitRun` asks for. -/
theorem splitBody_ok_inv {n k : BitVec 12} {s t : State} (he : splitError n k s = none)
    (h : splitBody n k s = (.ok, t)) :
    ∃ (draws : List (List Byte × Byte)) (co : List Byte) (rest : List Answer),
      draws.length = 254 ∧ IndexDraws s.cfg.rejLimit draws ∧ co.length = s.len.toNat * (k.toNat - 1) ∧
        s.entropy = (indexBytes draws).map .ok ++ co.map .ok ++ rest := by
  rw [splitBody_go he] at h
  obtain ⟨u, hshuffle, h⟩ := Body.andThen_ok_inv h
  obtain ⟨v, hbytes, _⟩ := Body.andThen_ok_inv h
  obtain ⟨draws, rest, hlen, hdraws, hentropy⟩ := shuffle_ok_inv (w := clearShlen s) hshuffle le_rfl
  obtain ⟨u', hu, hrun⟩ := shuffle_draws hlen.le hdraws hentropy
  rw [hlen, hshuffle] at hrun
  obtain rfl : u = u' := congrArg Prod.snd hrun
  obtain ⟨co, hco, hdrew⟩ := forEach_drewBytes (splitByte_drewBytes n.toNat k.toNat) hbytes
  rw [List.length_range] at hco
  have hrest : u.entropy = rest := by rw [hu.frame]
  refine ⟨draws, co, v.entropy, hlen, hdraws, hco, ?_⟩
  rw [List.append_assoc, ← hdrew, hrest]
  exact hentropy

/-- A command that ended with `ECODE = 0` passed its checks and ran to its end. -/
theorem exec_split_ok_inv {n k : BitVec 12} {s t : State} (hbusy : s.busy = true) (h : exec (.split n k) s = .next t)
    (hended : t.busy = false) (hcode : t.ecode = .ok) :
    splitError n k s = none ∧ splitBody n k s = (.ok, (splitBody n k s).2) ∧ t.xc = (splitBody n k s).2.xc := by
  have hne : splitError n k s ≠ some .ok := by
    unfold splitError
    split_ifs <;> decide
  rcases exec_split_cases h with rfl | ⟨e, rfl, ⟨hok, _⟩ | hexit⟩
  · exact absurd (hbusy.symm.trans hended) (by decide)
  · refine ⟨?_, Prod.ext hok rfl, rfl⟩
    cases he : splitError n k s with
    | none => rfl
    | some e' => simp [splitBody_stop he] at hok
  · obtain rfl : e = .ok := hcode
    rcases splitBody_error hexit with hcheck | ⟨_, hcheck⟩
    · exact absurd hcheck hne
    · cases hcheck

end Sys2Proof.Machine

namespace Sys2Proof.Proofs

open Sys2Proof.Machine Sys2Proof.Safety

/-- Settles O26: a successful `SPLIT` is a run of `splitRun` on what it has drawn. -/
theorem splitGuarantee : Obligations.SplitGuarantee := by
  unfold Obligations.SplitGuarantee
  intro n k s t hcfg hwf hbusy h hended hcode
  obtain ⟨he, hok, hxc⟩ := exec_split_ok_inv hbusy h hended hcode
  obtain ⟨draws, co, rest, hlen, hdraws, hco, hentropy⟩ := splitBody_ok_inv he hok
  have hargs := (splitError_eq_none n k s).mp he
  obtain ⟨t', hends, hnext, hcoords, _, _, hlengths, htails, hshares, hmem⟩ :=
    splitRun n k s draws co rest hcfg hwf hargs hlen hdraws hco hentropy
  obtain rfl : t = t' := Host.Outcome.next.inj (h.symm.trans hnext)
  have hn : n.toNat ≤ 255 := hargs.2.2.1
  have hpermutes : PermutesNonzero t.xc := hxc ▸ splitBody_permutes he
  have htail (j : Nat) (hj : j < n.toNat) : t.share j s.len.toNat = entry t.xc j :=
    (htails j hj).trans (hcoords j (by omega)).symm
  refine ⟨hlengths, htail, hpermutes, fun a b ha hb hab heq => hab ?distinct, fun i hi => ?shares, ?len, fun o => ?secret⟩
  case distinct =>
    rw [htail a ha, htail b hb] at heq
    exact hpermutes.1 a b (by omega) (by omega) heq
  case shares =>
    exact ⟨splitCoef s k.toNat co i, rfl, fun j hj => (hshares j i hj hi).trans (by rw [hcoords j (by omega)]; rfl)⟩
  case len =>
    obtain ⟨w, hw, _, hframe⟩ := hends
    obtain rfl : t = w := Host.Outcome.next.inj (h.symm.trans hw)
    rw [hframe]
  case secret =>
    exact hmem _ fun j o' _ ho' => (shareAddr_ne_secretAddr (by omega) (ho'.trans_lt s.len.isLt) o).symm

end Sys2Proof.Proofs
end

section
/-! PROOF. O35: `COMBINE` of shares of a successful `SPLIT` recovers the secret (R207). -/

namespace Sys2Proof.Machine

open Sys2Proof.Safety

/-- The value at 0 is the intercept (R153), for every modulus. -/
theorem polyValue_at_zero {poly : BitVec 9} (c : Nat → Byte) {n : Nat} (hn : 1 ≤ n) :
    polyValue poly c n 0x00 = c 0 := by
  induction n, hn using Nat.le_induction with
  | base =>
    refine (BitVec.zero_xor (x := gfMul poly (c 0) 1)).trans ?_
    exact gfMul_one_of_any _
  | succ n hn ih =>
    obtain ⟨i, rfl⟩ := Nat.exists_eq_add_of_le' hn
    have hpow : fieldPow poly 0x00 (i + 1) = 0 := gfMul_zero_of_any _
    rw [polyValue, fieldSum, hpow, gfMul_zero_of_any]
    exact BitVec.xor_zero.trans ih

end Sys2Proof.Machine

namespace Sys2Proof.Proofs

open Sys2Proof.Machine Sys2Proof.Safety

/-- Settles O35: the loaded shares are points of one polynomial per byte, and COMBINE takes its value at 0. -/
theorem splitThenCombineRecoversTheSecret : Obligations.SplitThenCombineRecoversTheSecret := by
  unfold Obligations.SplitThenCombineRecoversTheSecret
  intro n k m s t u pick hcfg hwf hbusy h hended hcode hkm hmn hpick hinj hucfg huwf hlengths hloaded
  obtain ⟨hk, _, hn, hlen, hlmax⟩ := (splitError_eq_none n k s).mp (exec_split_ok_inv hbusy h hended hcode).1
  obtain ⟨htlengths, htails, _, hdistinct, hpolys, _, _⟩ := splitGuarantee n k s t hcfg hwf hbusy h hended hcode
  have hle : s.cfg.lmax ≤ 65534 := hcfg.2.2.1
  have hcount (j : Nat) (hj : j < m.toNat) : entry u.shlen j = s.len + 1 :=
    (hlengths j hj).trans ((htlengths _ (by have := hpick j hj; omega)).trans (if_pos (hpick j hj)))
  have hcount0 : entry u.shlen 0 = s.len + 1 := hcount 0 (by omega)
  have hnat : (s.len + 1).toNat = s.len.toNat + 1 := by bv_omega
  have hnat0 : (entry u.shlen 0).toNat - 1 = s.len.toNat := by rw [hcount0, hnat, Nat.add_sub_cancel]
  have hshare (j o : Nat) (hj : j < m.toNat) (ho : o ≤ s.len.toNat) : u.share j o = t.share (pick j) o := hloaded j o hj ho
  have hudistinct : CombineDistinct m u := by
    intro a b ha hb hab
    rw [hnat0, hshare a _ ha le_rfl, hshare b _ hb le_rfl]
    exact hdistinct _ _ (hpick a ha) (hpick b hb) fun heq => hab (hinj a b ha hb heq)
  have hulengths : CombineLengths m u :=
    ⟨by omega, by omega, fun j hj => ⟨by rw [hcount j hj, hnat]; omega, (hcount j hj).trans hcount0.symm⟩⟩
  obtain ⟨v, hends, hnext, _, _, hsecret, _⟩ := combineRun m u (hucfg ▸ hcfg) huwf hulengths
    (by rw [hcount0, hnat, hucfg]; omega) hudistinct
  obtain ⟨w, hw, hidle, hframe⟩ := hends
  obtain rfl : v = w := Host.Outcome.next.inj (hnext.symm.trans hw)
  refine ⟨v, hnext, hidle, by rw [hframe], by rw [hframe], ?len, fun o ho => ?secret⟩
  case len =>
    rw [hframe]
    show entry u.shlen 0 - 1 = s.len
    rw [hcount0, BitVec.add_sub_cancel]
  case secret =>
    obtain ⟨c, hc, hvalue⟩ := hpolys o ho
    rw [hnat0] at hsecret
    have hpoints : Set.InjOn (fun j => u.share j s.len.toNat) (Finset.range m.toNat) := by
      intro a ha b hb heq
      by_contra hab
      exact hudistinct a b (Finset.mem_range.mp ha) (Finset.mem_range.mp hb) hab (hnat0.symm ▸ heq)
    have hbytes (j : Nat) (hj : j < m.toNat) :
        u.share j o = polyValue u.cfg.poly c k.toNat (u.share j s.len.toNat) := by
      rw [hshare j o hj ho.le, hvalue _ (hpick j hj), hshare j _ hj le_rfl, htails _ (hpick j hj), hucfg]
    rw [hsecret o ho, lagrangeValue_polyValue (hucfg.symm ▸ hcfg.1) hpoints hkm hbytes, polyValue_at_zero c (by omega), hc]

end Sys2Proof.Proofs
end

section
/-! PROOF. O36 and O38: how the pseudocode of each command can leave off, and how many answers it can draw (R242, R243,
R301). -/

namespace Sys2Proof.Machine

open Sys2Proof.Safety

/-! ### Leaving off -/

/-- How pseudocode that computes can leave off: at its end, or at a division by zero. -/
def ResultExit (x : Exit) : Prop := x = .ok ∨ x = .fatal

/-- Past its checks `COMBINE` neither draws nor raises an error. -/
theorem combineBody_exit {m : BitVec 12} {s : State} (h : combineError m s = none) : ResultExit (combineBody m s).1 := by
  have hbyte (i : Nat) (t : State) : ResultExit (combineByte m.toNat i t).1 := by
    unfold combineByte
    rcases interpolateByte_cases m.toNat i (loadY m.toNat i t) with ⟨_, _, hb⟩ | ⟨_, hb⟩ <;> rw [hb]
    · exact .inl rfl
    · exact .inr rfl
  rw [combineBody_go h]
  exact Body.andThen_exit (E := ResultExit) (forEach_exit (.inl rfl) fun i _ => hbyte i) (fun _ => .inl rfl) _

theorem WritesResultOnly.exit {r : Exit × State} {s : State} (h : WritesResultOnly r s) :
    ResultExit r.1 ∨ ∃ e, r = (.error e, s) := by
  rcases h with ⟨_, rfl⟩ | ⟨e, rfl⟩ | rfl
  · exact .inl (.inl rfl)
  · exact .inr ⟨e, rfl⟩
  · exact .inl (.inr rfl)

/-- The commands that draw from the entropy source (R155, R190). -/
def DrawsEntropy (i : Instr) : Prop := (∃ cnt c0, i = .pgen cnt c0) ∨ ∃ n k, i = .split n k

/-- Everything a command's pseudocode can leave off with: success or the fatal condition; an error raised before
anything was written; or, once `PGEN` or `SPLIT` has passed its checks, what drawing can lead to. -/
theorem bodyOf_exit (i : Instr) (s : State) :
    ResultExit (bodyOf i s).1 ∨ (∃ e, bodyOf i s = (.error e, s)) ∨ (DrawsEntropy i ∧ DrawExit (bodyOf i s).1) := by
  rcases bodyOf_cases i s with ⟨_, h⟩ | ⟨cnt, c0, rfl, _⟩ | ⟨n, k, rfl, _⟩ | ⟨m, rfl, _⟩
  · exact h.exit.imp_right .inl
  · refine .inr ?_
    change (∃ e, pgenBody cnt c0 s = (.error e, s)) ∨ (_ ∧ DrawExit (pgenBody cnt c0 s).1)
    unfold pgenBody
    cases hc : countLegal cnt with
    | false => exact .inl ⟨_, withCount_illegal hc _ s⟩
    | true =>
      rw [withCount_legal hc]
      exact .inr ⟨.inl ⟨cnt, c0, rfl⟩, generate_exit _ c0 s⟩
  · refine .inr ?_
    cases he : splitError n k s with
    | some e => exact .inl ⟨e, splitBody_stop he⟩
    | none => exact .inr ⟨.inr ⟨n, k, rfl⟩, splitBody_exit he⟩
  · cases he : combineError m s with
    | some e => exact .inr (.inl ⟨e, combineBody_stop he⟩)
    | none => exact .inl (combineBody_exit he)

/-! ### The number of answers drawn -/

/-- Pseudocode that led from `s` to `r` consumed at most `m` answers, and left off waiting only if fewer were ready. -/
def DrewAtMost (m : Nat) (s : State) (r : Exit × State) : Prop :=
  (∃ taken, s.entropy = taken ++ r.2.entropy ∧ taken.length ≤ m) ∧ (r.1 = .waiting → s.entropy.length < m)

theorem DrewAtMost.mono {m n : Nat} {s : State} {r : Exit × State} (h : DrewAtMost m s r) (hmn : m ≤ n) :
    DrewAtMost n s r := by
  obtain ⟨⟨taken, he, hlen⟩, hwait⟩ := h
  exact ⟨⟨taken, he, hlen.trans hmn⟩, fun hw => (hwait hw).trans_le hmn⟩

theorem drewAtMost_of_entropy_eq {m : Nat} {s : State} {r : Exit × State} (he : s.entropy = r.2.entropy)
    (hx : r.1 ≠ .waiting) : DrewAtMost m s r := ⟨⟨[], he, Nat.zero_le m⟩, fun hw => absurd hw hx⟩

/-- What was consumed before counts with what is consumed after. -/
theorem DrewAtMost.trans {m n : Nat} {s t : State} {x : Exit} {r : Exit × State} (h : DrewAtMost m s (x, t))
    (h' : DrewAtMost n t r) : DrewAtMost (m + n) s r := by
  obtain ⟨⟨taken, he, hlen⟩, _⟩ := h
  obtain ⟨⟨taken', he', hlen'⟩, hwait⟩ := h'
  have htotal : s.entropy.length = taken.length + t.entropy.length := by rw [he, List.length_append]
  refine ⟨⟨taken ++ taken', by rw [he, he', List.append_assoc], by rw [List.length_append]; omega⟩, fun hw => ?_⟩
  have := hwait hw
  omega

/-- On hardware `c`, whose `REJ_LIMIT` bounds every index draw, `p` draws at most `m` answers. -/
def DrawsAtMost (c : Config) (m : Nat) (p : Body) : Prop :=
  ∀ s, s.cfg = c → (p s).2.cfg = c ∧ DrewAtMost m s (p s)

section
variable {c : Config} {m : Nat}

theorem DrawsAtMost.andThen {n : Nat} {p q : Body} (hp : DrawsAtMost c m p) (hq : DrawsAtMost c n q) :
    DrawsAtMost c (m + n) (Body.andThen p q) := by
  intro s hs
  obtain ⟨hcfg, hdrew⟩ := hp s hs
  rcases Body.andThen_cases p q s with ⟨t, ht, h⟩ | ⟨_, h⟩ <;> rw [h]
  · rw [ht] at hcfg hdrew
    obtain ⟨hcfg', hdrew'⟩ := hq t hcfg
    exact ⟨hcfg', hdrew.trans hdrew'⟩
  · exact ⟨hcfg, hdrew.mono (Nat.le_add_right m n)⟩

theorem DrawsAtMost.forEach {is : List Nat} {f : Nat → Body} (hf : ∀ i, DrawsAtMost c m (f i)) :
    DrawsAtMost c (is.length * m) (forEach is f) := by
  induction is with
  | nil => exact fun s hs => ⟨hs, drewAtMost_of_entropy_eq rfl nofun⟩
  | cons i is ih =>
    rw [List.length_cons, Nat.succ_mul, Nat.add_comm]
    exact (hf i).andThen ih

/-- Pseudocode that draws nothing: it ends well, with the answers and the hardware as they were. -/
theorem drawsAtMost_silent {g : State → State} (hcfg : ∀ s, (g s).cfg = s.cfg)
    (he : ∀ s, (g s).entropy = s.entropy) : DrawsAtMost c 0 (fun s => (.ok, g s)) :=
  fun s hs => ⟨(hcfg s).trans hs, drewAtMost_of_entropy_eq (he s).symm nofun⟩

theorem drawCoef_drawsAtMost (j : Nat) : DrawsAtMost c 1 (drawCoef j) := by
  intro s hs
  rcases drawCoef_cases j s with ⟨he, h⟩ | ⟨rest, he, h⟩ | ⟨b, rest, he, h⟩ <;> rw [h]
  · exact ⟨hs, ⟨[], rfl, Nat.zero_le _⟩, fun _ => by simp [he]⟩
  · exact ⟨hs, ⟨[.fail], he, le_rfl⟩, nofun⟩
  · exact ⟨hs, ⟨[.ok b], he, le_rfl⟩, nofun⟩

theorem generate_drewAtMost (cnt : Nat) (c0 : Byte) (s : State) : DrewAtMost (cnt - 1) s (generate cnt c0 s) := by
  have hloop := (DrawsAtMost.forEach (is := List.range' 1 (cnt - 1)) drawCoef_drawsAtMost (s.setCoef 0 c0) rfl).2
  rwa [List.length_range', Nat.mul_one] at hloop

theorem shuffleAt_drawsAtMost (t : Nat) : DrawsAtMost c c.rejLimit (shuffleAt t) := by
  rintro s rfl
  rw [shuffleAt_eq]
  rcases drawIndex_cases t s.cfg.rejLimit s with
    ⟨h, hlen⟩ | ⟨taken, rest, he, hlen, h⟩ | ⟨taken, rest, r, he, _, hlen, _, h⟩ <;> rw [h]
  · exact ⟨rfl, ⟨[], rfl, Nat.zero_le _⟩, fun _ => hlen⟩
  · exact ⟨rfl, ⟨taken, he, hlen⟩, nofun⟩
  · exact ⟨rfl, ⟨taken, he, hlen⟩, nofun⟩

theorem shuffle_drawsAtMost : DrawsAtMost c (254 * c.rejLimit) shuffle := by
  have hloop := DrawsAtMost.forEach (is := downFrom 254) (shuffleAt_drawsAtMost (c := c))
  rwa [length_downFrom] at hloop

theorem splitByte_drawsAtMost (n k i : Nat) : DrawsAtMost c (k - 1) (splitByte n k i) :=
  DrawsAtMost.andThen (m := k - 1) (n := 0)
    (fun s hs => ⟨by rw [generate_frame]; exact hs, generate_drewAtMost k _ s⟩)
    (drawsAtMost_silent (fun s => by rw [evalShares_frame]) (fun s => by rw [evalShares_frame]))

end

/-- R301: an index draw is at most `REJ_LIMIT` answers, and there are 254; a byte position is `k - 1` answers, and there
are `LEN`. -/
theorem splitBody_drewAtMost (n k : BitVec 12) (s : State) :
    DrewAtMost (254 * s.cfg.rejLimit + s.len.toNat * (k.toNat - 1)) s (splitBody n k s) := by
  cases he : splitError n k s with
  | some e =>
    rw [splitBody_stop he]
    exact drewAtMost_of_entropy_eq rfl nofun
  | none =>
    have hbytes := DrawsAtMost.forEach (c := s.cfg) (is := List.range s.len.toNat)
      (splitByte_drawsAtMost n.toNat k.toNat)
    have htail : DrawsAtMost s.cfg 0 (fun u => (.ok, markShares n.toNat (tailShares n.toNat u))) :=
      drawsAtMost_silent (fun u => by rw [splitTail_frame]) (fun u => by rw [splitTail_frame])
    obtain ⟨_, hdrew⟩ := (shuffle_drawsAtMost.andThen (hbytes.andThen htail)) (identityXc (clearShlen s))
      (identityXc_cfg (clearShlen s))
    rw [List.length_range, Nat.add_zero, DrewAtMost, identityXc_entropy] at hdrew
    rw [splitBody_go he]
    exact hdrew

/-- A command waits only where fewer answers are ready than it may draw. -/
theorem bodyOf_waiting {i : Instr} {s : State} (h : (bodyOf i s).1 = .waiting) :
    (∃ cnt c0, i = .pgen cnt c0 ∧ s.entropy.length < cnt.toNat - 1) ∨
      ∃ n k, i = .split n k ∧ s.entropy.length < 254 * s.cfg.rejLimit + s.len.toNat * (k.toNat - 1) := by
  rcases bodyOf_exit i s with (hx | hx) | ⟨e, hx⟩ | ⟨⟨cnt, c0, rfl⟩ | ⟨n, k, rfl⟩, _⟩
  · simp [h] at hx
  · simp [h] at hx
  · simp [hx] at h
  · refine .inl ⟨cnt, c0, rfl, ?_⟩
    rw [bodyOf, pgenBody] at h
    cases hc : countLegal cnt with
    | false => simp [withCount_illegal hc] at h
    | true =>
      rw [withCount_legal hc] at h
      exact (generate_drewAtMost _ c0 s).2 h
  · exact .inr ⟨n, k, rfl, (splitBody_drewAtMost n k s).2 h⟩

end Sys2Proof.Machine

namespace Sys2Proof.Proofs

open Sys2Proof.Machine Sys2Proof.Safety

/-- Settles O36, by the ways a command can answer: the pseudocode leaves `STATUS` to its end, and only a draw waits. -/
theorem everyCommandEnds : Obligations.EveryCommandEnds := by
  unfold Obligations.EveryCommandEnds
  intro i s hbusy hdone hecode hfatal
  have hdata : (bodyOf i s).2 = _ := bodyOf_dataWrites i s
  obtain ⟨t, ht⟩ := exec_next i s
  refine ⟨t, ht, ?_⟩
  rcases exec_cases ht with ⟨_, rfl⟩ | ⟨e, _, rfl⟩ | ⟨_, rfl⟩ | ⟨hwait, rfl⟩
  · exact .inl ⟨rfl, rfl, rfl, (congrArg State.fatal hdata).trans hfatal⟩
  · exact .inl ⟨rfl, rfl, rfl, (congrArg State.fatal hdata).trans hfatal⟩
  · exact .inr (.inl ⟨rfl, rfl, (congrArg State.done hdata).trans hdone, (congrArg State.ecode hdata).trans hecode,
      rfl, rfl⟩)
  · exact .inr (.inr ⟨rfl, bodyOf_waiting hwait⟩)

/-- Settles O38: a code other than 0 and 4 is that of a check, which is made before anything is written. -/
theorem errorsLeaveTheDataState : Obligations.ErrorsLeaveTheDataState := by
  unfold Obligations.ErrorsLeaveTheDataState
  intro i s t hdone h ht hok hrandom
  have hdata : (bodyOf i s).2 = _ := bodyOf_dataWrites i s
  rcases exec_cases h with ⟨_, rfl⟩ | ⟨e, he, rfl⟩ | ⟨_, rfl⟩ | ⟨_, rfl⟩
  · exact absurd rfl hok
  · rcases bodyOf_exit i s with (hx | hx) | ⟨e', hx⟩ | ⟨_, hx | hx | hx⟩
    case inr.inl => rw [hx]; rfl
    case inr.inr.inr.inr => exact absurd (Exit.error.inj (he.symm.trans hx)) hrandom
    all_goals simp [he] at hx
  · exact absurd (ht.symm.trans ((congrArg State.done hdata).trans hdone)) (by simp)
  · exact absurd (ht.symm.trans hdone) (by simp)

end Sys2Proof.Proofs
end

section
/-! PROOF. O47: what can happen in the fatal state (R247, R248). -/

namespace Sys2Proof.Machine

theorem coreTransition_halt {s : State} (h : s.seq.st = .halt) : coreTransition s = s := by
  rw [coreTransition, h]

/-- A halted core makes no transition, and the guard keeps the host from everything but its own side. -/
theorem serve_fatal_hostSideWrites {s : State} (hfatal : s.fatal = true) (hhalt : s.seq.st = .halt) {e : Event}
    (he : e ≠ .reset) : HostSideWrites s (s.serve e) := by
  cases e with
  | hostRead ha => exact hostRead_hostSideWrites s ha
  | hostWrite ha d => exact hostWrite_hostSideWrites (.inr hfatal) ha d
  | reset => exact absurd rfl he
  | coreMove =>
    rw [State.serve, coreTransition_halt hhalt]
    rfl

end Sys2Proof.Machine

namespace Sys2Proof.Proofs

open Sys2Proof.Machine Sys2Proof.Safety

/-- Settles O47: the schedule put aside, an event other than reset writes the host side alone; without one the core is
halted. -/
theorem onlyResetLeavesTheFatalState : Obligations.OnlyResetLeavesTheFatalState := by
  unfold Obligations.OnlyResetLeavesTheFatalState
  have hfault (s : State) (hhalt : s.seq.st = .halt) (hs : s.schedule = []) :
      step s = .fault .haltedAfterDivideByZero := by
    rw [step_core hs, coreStep, hhalt]
  refine ⟨fun s t hfatal hhalt hhead h => ?_, fun s t hhead h => ?_, hfault⟩
  · rcases hs : s.schedule with _ | ⟨e, rest⟩
    · rw [hfault s hhalt hs] at h
      nomatch h
    · obtain rfl := Host.Outcome.next.inj ((step_event hs).symm.trans h)
      have hne : e ≠ .reset := fun heq => hhead (by rw [hs, heq]; rfl)
      have hwrites : State.serve _ e = _ :=
        serve_fatal_hostSideWrites (s := { s with schedule := rest }) hfatal hhalt hne
      rw [hwrites]
  · obtain ⟨rest, hs⟩ := List.head?_eq_some_iff.mp hhead
    obtain rfl := Host.Outcome.next.inj ((step_event hs).symm.trans h)
    exact ⟨rfl, rfl⟩

end Sys2Proof.Proofs
end

section
/-! PROOF. O30: how many answers `SPLIT` consumes, and that with that many ready it does not wait (R301). -/

namespace Sys2Proof.Proofs

open Sys2Proof.Machine

/-- Settles O30: the bound of its pseudocode is that of the command, which ends unless it waits. -/
theorem splitDrawsAreBounded : Obligations.SplitDrawsAreBounded := by
  unfold Obligations.SplitDrawsAreBounded
  intro n k s t h
  obtain ⟨htaken, hwait⟩ := splitBody_drewAtMost n k s
  rcases exec_cases h with ⟨_, rfl⟩ | ⟨e, _, rfl⟩ | ⟨_, rfl⟩ | ⟨hx, rfl⟩
  · exact ⟨htaken, fun _ => rfl⟩
  · exact ⟨htaken, fun _ => rfl⟩
  · exact ⟨htaken, fun _ => rfl⟩
  · exact ⟨⟨[], rfl, Nat.zero_le _⟩, fun hready => absurd (hwait hx) (Nat.not_lt.mpr hready)⟩

end Sys2Proof.Proofs
end

section
/-! PROOF. O56: what a move of a run does to `BUSY` and to the command in flight (R44, R303). -/

namespace Sys2Proof.Machine

open Sys2Proof.Safety Sys2Proof.Proofs

/-! ### The core -/

/-- `t` is `s` after a move of the core: nothing was planned, and `BUSY` stays, or the command under way has reported its
end with `DONE`, or has ended fatally. -/
def CoreMoved (s t : State) : Prop :=
  t.schedule = s.schedule ∧ (t.busy = s.busy ∨ t.busy = false ∧ (t.done = true ∨ t.fatal = true))

theorem raiseFatal_coreMoved (s : State) : CoreMoved s s.raiseFatal := ⟨rfl, .inr ⟨rfl, .inr rfl⟩⟩

theorem raiseError_coreMoved (s : State) (e : ECode) : CoreMoved s (s.raiseError e) := ⟨rfl, .inr ⟨rfl, .inl rfl⟩⟩

theorem toFinish_coreMoved (s : State) (e : ECode) : CoreMoved s (s.toFinish e) := ⟨rfl, .inl rfl⟩

theorem goto_coreMoved (s : State) (st : ST) : CoreMoved s (s.goto st) := ⟨rfl, .inl rfl⟩

theorem leave_coreMoved {r : Exit × State} {s : State} (h : WritesResultOnly r s) : CoreMoved s (leave r) := by
  rcases h with ⟨_, rfl⟩ | ⟨_, rfl⟩ | rfl
  · exact ⟨rfl, .inl rfl⟩
  · exact ⟨rfl, .inl rfl⟩
  · exact raiseFatal_coreMoved s

theorem leaveDecode_coreMoved (s : State) : CoreMoved s (leaveDecode s) := by
  unfold leaveDecode
  split <;> exact ⟨rfl, .inl rfl⟩

theorem coefVisit_coreMoved {after : State → State} (hafter : ∀ u, CoreMoved u (after u)) (cnt : Nat) (c0 : Byte)
    (s : State) : CoreMoved s (coefVisit cnt c0 after s) := by
  rcases coefVisit_cases cnt c0 after s with h | ⟨_, h⟩ | ⟨_, _, _, h⟩ | ⟨_, _, _, h⟩ <;> rw [h]
  · exact ⟨rfl, .inl rfl⟩
  · exact ⟨rfl, .inl rfl⟩
  · exact hafter _
  · exact ⟨rfl, .inl rfl⟩

theorem shuffleVisit_coreMoved (s : State) : CoreMoved s (shuffleVisit s) := by
  rcases shuffleVisit_cases s with h | ⟨_, h⟩ | ⟨_, _, h⟩ | ⟨_, _, _, _, h⟩ | ⟨_, _, _, _, h⟩ <;> rw [h] <;>
    exact ⟨rfl, .inl rfl⟩

theorem coreTransition_coreMoved (s : State) : CoreMoved s (coreTransition s) := by
  have stays {u : State} (hschedule : u.schedule = s.schedule) (hbusy : u.busy = s.busy) : CoreMoved s u :=
    ⟨hschedule, .inl hbusy⟩
  unfold coreTransition
  cases s.seq.st with
  | idle => exact stays rfl rfl
  | decode => exact leaveDecode_coreMoved s
  | field => exact leave_coreMoved (fieldWork_writesResultOnly s)
  | gen => exact coefVisit_coreMoved (fun u => toFinish_coreMoved u .ok) _ _ s
  | eval => exact leave_coreMoved (pevalBody_writesResultOnly s.opN s.opX s)
  | interp => exact leave_coreMoved (linterpBody_writesResultOnly s.opN s.opX s)
  | spCheck =>
    simp only
    split <;> exact stays rfl rfl
  | spClear =>
    rw [identityXc_frame]
    exact stays rfl rfl
  | spShuffle => exact shuffleVisit_coreMoved s
  | spCoef => exact coefVisit_coreMoved (fun u => goto_coreMoved u .spEval) _ _ s
  | spEval =>
    simp only
    rw [evalShares_frame]
    split <;> exact stays rfl rfl
  | spTail =>
    simp only
    rw [splitTail_frame]
    exact stays rfl rfl
  | cbCheck =>
    simp only
    split <;> exact stays rfl rfl
  | cbLoadX =>
    rw [loadX_frame]
    exact stays rfl rfl
  | cbLoadY =>
    simp only
    rw [loadY_frame]
    exact stays rfl rfl
  | cbInterp =>
    simp only
    rcases interpolateByte_cases s.opN.toNat s.seq.i s with ⟨_, _, h⟩ | ⟨_, h⟩ <;> rw [h] <;> simp only
    · split <;> exact stays rfl rfl
    · exact raiseFatal_coreMoved s
  | cbLen => exact stays rfl rfl
  | finish => exact raiseError_coreMoved s s.seq.e
  | halt => exact stays rfl rfl

theorem exec_coreMoved {i : Instr} {s t : State} (h : exec i s = .next t) : CoreMoved s t := by
  refine ⟨by rw [exec_frame h], ?_⟩
  rcases exec_cases h with ⟨_, rfl⟩ | ⟨_, _, rfl⟩ | ⟨_, rfl⟩ | ⟨_, rfl⟩
  · exact .inr ⟨rfl, .inl rfl⟩
  · exact .inr ⟨rfl, .inl rfl⟩
  · exact .inr ⟨rfl, .inr rfl⟩
  · exact .inl rfl

theorem step_coreMoved {s t : State} (hs : s.schedule = []) (h : step s = .next t) : CoreMoved s t := by
  rcases step_cases s with ⟨_, _, he, _⟩ | ⟨_, ⟨i, _, _, hr⟩ | ⟨_, _, _, hr⟩ | ⟨_, hr⟩ | ⟨_, _, hr⟩⟩
  · simp [hs] at he
  all_goals rw [hr] at h
  · exact exec_coreMoved h
  · cases h
    exact raiseError_coreMoved s .illegalCommand
  · cases h
  · cases h
    exact coreTransition_coreMoved s

/-! ### The host -/

theorem registerLoc_eq_cmd {a : Nat} (h : registerLoc a = .cmd) : a = 0 := by
  unfold registerLoc at h
  split at h <;> simp_all

/-- `CMD` is at address 0 alone (R62). -/
theorem locOf_eq_cmd {lmax : Nat} {ha : Word} (h : locOf lmax ha = .cmd) : ha = 0 := by
  unfold locOf at h
  split_ifs at h
  · exact BitVec.eq_of_toNat_eq (registerLoc_eq_cmd h)
  · unfold arrayLoc at h
    split at h <;> simp at h
  · unfold bufferLoc at h
    split_ifs at h

theorem State.writeLoc_schedule (s : State) (d : Word) (l : Loc) : (s.writeLoc d l).schedule = s.schedule := by
  cases l <;> rfl

theorem State.writeLoc_busy (s : State) (d : Word) {l : Loc} (h : l ≠ .cmd) : (s.writeLoc d l).busy = s.busy := by
  cases l
  case cmd => exact absurd rfl h
  all_goals rfl

theorem State.hostWrite_schedule (s : State) (ha d : Word) : (s.hostWrite ha d).schedule = s.schedule := by
  rcases s.hostWrite_cases ha d with ⟨_, h⟩ | ⟨_, h⟩ <;> rw [h]
  exact s.writeLoc_schedule d _

/-- Only a write to `CMD` can start a command (R37). -/
theorem State.hostWrite_busy (s : State) {ha : Word} (hne : ha ≠ 0) (d : Word) : (s.hostWrite ha d).busy = s.busy := by
  rcases s.hostWrite_cases ha d with ⟨_, h⟩ | ⟨_, h⟩ <;> rw [h]
  exact s.writeLoc_busy d fun hcmd => hne (locOf_eq_cmd hcmd)

theorem State.hostRead_schedule (s : State) (ha : Word) : (s.hostRead ha).schedule = s.schedule :=
  (congrArg State.schedule (hostRead_hostSideWrites s ha) :)

theorem State.hostRead_busy (s : State) (ha : Word) : (s.hostRead ha).busy = s.busy :=
  (congrArg State.busy (hostRead_hostSideWrites s ha) :)

theorem State.hostWrite_cmd_dropped {s : State} (h : s.writeRefused 0 = true) (w : Word) :
    (s.hostWrite 0 w).busy = s.busy := by
  rw [State.hostWrite_refused w h]

theorem State.hostWrite_cmd_accepted {s : State} (h : s.writeRefused 0 = false) (w : Word) :
    s.hostWrite 0 w = s.accept w :=
  if_neg (Bool.eq_false_iff.mp h)

/-- The invariant does not depend on the answers to come. -/
theorem inv_answers {s : State} (h : Inv s) (answers : List Answer) : Inv { s with entropy := answers } where
  cfg := h.cfg
  status := ⟨h.status.idle_iff, h.status.halt_iff, h.status.fatal_idle, h.status.fcode_iff, h.status.unreported⟩
  memory := h.memory
  word := h.word
  split := ⟨h.split.checked, h.split.cleared, h.split.shuffling, h.split.position, h.split.coefficient⟩
  combine := ⟨h.combine.checked, h.combine.loaded, h.combine.position, h.combine.points⟩

/-! ### The moves of a run -/

theorem State.plan_nil {s : State} (h : s.schedule = []) : s.plan [] = s := by
  rw [State.plan, ← h]

/-- Left to itself or made to take one transition, the core moves as `CoreMoved` says and keeps the invariant. -/
theorem State.after_coreMoved {s t : State} (hinv : Inv s) (hs : s.schedule = [])
    (h : s.after [] = some t ∨ s.after [.coreMove] = some t) : Inv t ∧ CoreMoved s t := by
  rw [State.after_core, State.after_event, State.plan_nil hs, Option.some.injEq] at h
  rcases h with h | rfl
  · exact ⟨stepKeepsTheInvariant s t hinv h, step_coreMoved hs h⟩
  · exact ⟨inv_serve hinv .coreMove, coreTransition_coreMoved s⟩

section
variable {r : Run} {t : State}

theorem runInv_served (h : RunInv r) (rest : List Line) (hinv : Inv t) (hschedule : t.schedule = r.state.schedule)
    (hbusy : t.busy = r.state.busy) : RunInv (r.served rest t) := by
  obtain ⟨_, hs, hflight⟩ := h
  exact ⟨hinv, hschedule.trans hs, hflight.trans hbusy.symm⟩

/-- The core starts no command of its own, so without one in flight there is none after its move. -/
theorem runInv_coreMoved (h : RunInv r) (hinv : Inv t) (hmoved : CoreMoved r.state t) : RunInv (r.coreMoved t) := by
  obtain ⟨_, hs, hflight⟩ := h
  obtain ⟨hschedule, hbusy⟩ := hmoved
  rcases r.coreMoved_cases t with ⟨hnone, hr⟩ | ⟨_, hsome, hrun, hr⟩ | ⟨_, _, hended, hr⟩ <;> rw [hr]
  · refine ⟨hinv, hschedule.trans hs, ?_⟩
    rcases hbusy with hkept | ⟨hfree, _⟩
    · exact hflight.trans hkept.symm
    · simp [hnone, hfree]
  · exact ⟨hinv, hschedule.trans hs, by simp [hsome, hrun]⟩
  · exact ⟨hinv, hschedule.trans hs, hended.symm⟩

/-- A word written to `CMD` is dropped, or it is in flight and `BUSY` is 1 (R37). -/
theorem runInv_issued (h : RunInv r) (w : Word) (meant : Bool) (rest : List Line) :
    RunInv (r.issued meant rest (r.state.hostWrite 0 w)) := by
  obtain ⟨hinv, hs, hflight⟩ := h
  have hinv' := inv_hostWrite hinv 0 w
  have hs' := (r.state.hostWrite_schedule 0 w).trans hs
  rcases r.issued_cases meant rest (r.state.hostWrite 0 w) with ⟨hclosed, hr⟩ | ⟨hopen, hr⟩ <;> rw [hr]
  · exact ⟨hinv', hs', hflight.trans (State.hostWrite_cmd_dropped hclosed w).symm⟩
  · exact ⟨hinv', hs', (congrArg State.busy (State.hostWrite_cmd_accepted hopen w)).symm⟩

theorem runInv_wasReset (h : RunInv r) (rest : List Line) : RunInv (r.wasReset rest r.state.resetEvent) := by
  obtain ⟨hinv, hs, _⟩ := h
  rcases r.wasReset_cases rest r.state.resetEvent with ⟨hnone, hr⟩ | ⟨_, _, hr⟩ <;> rw [hr]
  · exact ⟨inv_resetEvent hinv, hs, by simp [hnone]⟩
  · exact ⟨inv_resetEvent hinv, hs, rfl⟩

end

theorem runInv_start {s : State} (h : Starts s) (script : List Line) : RunInv (Run.start s script) := by
  obtain ⟨hlegal, hs⟩ := h
  have hinv : Inv s := inv_fresh hlegal (congrArg State.busy hs :) (congrArg State.fatal hs :) (congrArg State.fcode hs :)
    (congrArg State.mem hs :) (congrArg (fun u => u.seq.st) hs :)
  exact ⟨hinv, (congrArg State.schedule hs :), (congrArg State.busy hs :).symm⟩

theorem runInv_move {r r' : Run} {m : Mover} (h : RunInv r) (hmove : r.move m = some r') : RunInv r' := by
  have ⟨hinv, hs, _⟩ := h
  rcases Run.move_cases hmove with ⟨_, t, ht, rfl⟩ | ⟨_, rest, hhost⟩
  · obtain ⟨hinv', hmoved⟩ := State.after_coreMoved hinv hs ht
    exact runInv_coreMoved h hinv' hmoved
  · rw [State.plan_nil hs] at hhost
    rcases hhost with ⟨w, meant, _, rfl⟩ | ⟨ha, d, hne, _, rfl⟩ | ⟨ha, _, rfl⟩ | ⟨rest', _, _, rfl⟩ | ⟨_, rfl⟩ |
      ⟨answers, _, rfl⟩
    · exact runInv_issued h w meant rest
    · exact runInv_served h rest (inv_hostWrite hinv ha d) (State.hostWrite_schedule ..) (State.hostWrite_busy _ hne d)
    · exact runInv_served h rest (inv_hostRead hinv ha) (State.hostRead_schedule ..) (State.hostRead_busy ..)
    · exact runInv_served h rest' (inv_hostRead hinv 1) (State.hostRead_schedule ..) (State.hostRead_busy ..)
    · exact runInv_wasReset h rest
    · exact runInv_served h rest (inv_answers hinv _) rfl rfl

end Sys2Proof.Machine

namespace Sys2Proof.Proofs

open Sys2Proof.Machine

/-- Settles O56: a reset state is a fresh one, and every kind of move keeps the invariant of runs. -/
theorem runsKeepTheInvariant : Obligations.RunsKeepTheInvariant := by
  unfold Obligations.RunsKeepTheInvariant
  exact ⟨fun s script h => runInv_start h script, fun r r' m h hmove => runInv_move h hmove⟩

end Sys2Proof.Proofs
end

section
/-! PROOF. O57: what each move of a run adds to the record of the commands that are over (R37, R281, R303). -/

namespace Sys2Proof.Machine

open Sys2Proof.Safety

/-! ### The count of commands -/

theorem Run.issuesBy_eq_false {r : Run} {m : Mover} (h : m ≠ .host) : r.issuesBy m = false := by
  simp [Run.issuesBy, h]

theorem Run.issuesBy_host {r : Run} {line : Line} {rest : List Line} (h : r.script = line :: rest) :
    r.issuesBy .host = line.intention.isSome := by
  simp [Run.issuesBy, h]

/-- A command line and a write to `CMD` both write a word there (R98). -/
theorem Run.issuesBy_cmd {r : Run} {w : Word} {meant : Bool} {rest : List Line}
    (h : r.script = .command w meant :: rest ∨ r.script = .write 0 w :: rest ∧ meant = false) :
    r.issuesBy .host = true := by
  rcases h with h | ⟨h, _⟩ <;> rw [Run.issuesBy_host h] <;> rfl

section
variable (r : Run) (rest : List Line) (t : State)

theorem Run.coreMoved_state : (r.coreMoved t).state = t := by
  rcases r.coreMoved_cases t with ⟨_, h⟩ | ⟨_, _, _, h⟩ | ⟨_, _, _, h⟩ <;> rw [h]

theorem Run.coreMoved_issuedCount : (r.coreMoved t).issuedCount = r.issuedCount := by
  rcases r.coreMoved_cases t with ⟨_, h⟩ | ⟨_, _, _, h⟩ | ⟨_, hsome, _, h⟩ <;> rw [h]
  · rfl
  · rfl
  · simp [Run.issuedCount, hsome]

theorem Run.wasReset_issuedCount : (r.wasReset rest t).issuedCount = r.issuedCount := by
  rcases r.wasReset_cases rest t with ⟨_, h⟩ | ⟨_, hsome, h⟩ <;> rw [h]
  · rfl
  · simp [Run.issuedCount, hsome]

/-- A written word counts once, dropped or in flight: it is let through only when no command is in flight. -/
theorem Run.issued_issuedCount (meant : Bool) (hfree : r.state.writeRefused 0 = false → r.flight = none) :
    (r.issued meant rest t).issuedCount = r.issuedCount + 1 := by
  rcases r.issued_cases meant rest t with ⟨_, h⟩ | ⟨hopen, h⟩ <;> rw [h]
  · simp only [Run.issuedCount, List.length_append, List.length_singleton]
    omega
  · simp [Run.issuedCount, hfree hopen]

end

theorem writeRefused_cmd_eq_false {s : State} : s.writeRefused 0 = false ↔ s.busy = false ∧ s.fatal = false := by
  rw [State.writeRefused_cmd, State.guardClosed, Bool.or_eq_false_iff]

theorem writeRefused_cmd_eq_true {s : State} : s.writeRefused 0 = true ↔ s.busy = true ∨ s.fatal = true := by
  rw [State.writeRefused_cmd, State.guardClosed, Bool.or_eq_true]

/-- While the guard is open no command is in flight. -/
theorem flight_eq_none {r : Run} (h : RunInv r) (hopen : r.state.writeRefused 0 = false) : r.flight = none := by
  obtain ⟨_, _, hflight⟩ := h
  rw [(writeRefused_cmd_eq_false.mp hopen).1] at hflight
  exact Option.isNone_iff_eq_none.mp (by simpa using hflight)

theorem move_issuedCount {r r' : Run} {m : Mover} (h : RunInv r) (hmove : r.move m = some r') :
    r'.issuedCount = r.issuedCount + if r.issuesBy m then 1 else 0 := by
  rcases Run.move_cases hmove with ⟨hm, t, _, rfl⟩ | ⟨rfl, rest, hhost⟩
  · simp [Run.issuesBy_eq_false hm, Run.coreMoved_issuedCount]
  · rcases hhost with ⟨w, meant, hs, rfl⟩ | ⟨ha, d, hne, hs, rfl⟩ | ⟨ha, hs, rfl⟩ | ⟨rest', hs, _, rfl⟩ | ⟨hs, rfl⟩ |
      ⟨answers, hs, rfl⟩
    · rw [if_pos (Run.issuesBy_cmd hs)]
      exact Run.issued_issuedCount r rest _ meant (flight_eq_none h)
    · rw [Run.issuesBy_host hs, Line.intention, if_neg hne]
      rfl
    · rw [Run.issuesBy_host hs]
      rfl
    · rw [Run.issuesBy_host hs]
      rfl
    · rw [Run.issuesBy_host hs]
      exact Run.wasReset_issuedCount r rest _
    · rw [Run.issuesBy_host hs]
      rfl

/-! ### What a move records -/

/-- A move of mover `m` from `r` to `r'` records `(meant, left)`: of a command that the core ended, of a word dropped, or
of a command abandoned by a reset. -/
def Records (r r' : Run) (m : Mover) (meant : Bool) (left : Option ECode) : Prop :=
  (m ≠ .host ∧ r.flight = some meant ∧ r'.flight = none ∧ r'.state.busy = false ∧ left = r'.state.verdict) ∨
  (m = .host ∧ r.issuesBy m = true ∧ r.state.writeRefused 0 = true ∧ left = none) ∨
  (m = .host ∧ r.flight = some meant ∧ r.script.head? = some .reset ∧ left = none)

theorem move_records {r r' : Run} {m : Mover} {meant : Bool} {left : Option ECode} (hmove : r.move m = some r')
    (hleft : r'.left = r.left ++ [(meant, left)]) : Records r r' m meant left := by
  have hgrew : r'.left ≠ r.left := by simp [hleft]
  rcases Run.move_cases hmove with ⟨hm, t, _, rfl⟩ | ⟨rfl, rest, hhost⟩
  · rcases r.coreMoved_cases t with ⟨_, hr⟩ | ⟨_, _, _, hr⟩ | ⟨meant', hsome, hfree, hr⟩ <;> rw [hr] at hgrew hleft ⊢
    · exact absurd rfl hgrew
    · exact absurd rfl hgrew
    · obtain ⟨rfl, rfl⟩ : meant' = meant ∧ t.verdict = left := by simpa using hleft
      exact .inl ⟨hm, hsome, rfl, hfree, rfl⟩
  · rcases hhost with ⟨w, meant', hs, rfl⟩ | ⟨_, _, _, _, rfl⟩ | ⟨_, _, rfl⟩ | ⟨_, _, _, rfl⟩ | ⟨hs, rfl⟩ | ⟨_, _, rfl⟩
    · rcases r.issued_cases meant' rest (State.serve (r.state.plan []) (.hostWrite 0 w)) with
        ⟨hclosed, hr⟩ | ⟨_, hr⟩ <;> rw [hr] at hgrew hleft ⊢
      · obtain ⟨rfl, rfl⟩ : meant' = meant ∧ none = left := by simpa using hleft
        exact .inr (.inl ⟨rfl, Run.issuesBy_cmd hs, hclosed, rfl⟩)
      · exact absurd rfl hgrew
    · exact absurd rfl hgrew
    · exact absurd rfl hgrew
    · exact absurd rfl hgrew
    · rcases r.wasReset_cases rest (State.serve (r.state.plan []) .reset) with ⟨_, hr⟩ | ⟨meant', hsome, hr⟩ <;>
        rw [hr] at hgrew hleft ⊢
      · exact absurd rfl hgrew
      · obtain ⟨rfl, rfl⟩ : meant' = meant ∧ none = left := by simpa using hleft
        exact .inr (.inr ⟨rfl, hsome, by rw [hs]; rfl, rfl⟩)
    · exact absurd rfl hgrew

/-- A command the core ends without entering the fatal state has reported its end (R29, R241, R242). -/
theorem move_done {r r' : Run} {m : Mover} {meant : Bool} (h : RunInv r) (hmove : r.move m = some r') (hm : m ≠ .host)
    (hflight : r.flight = some meant) (hbusy : r'.state.busy = false) (hfatal : r'.state.fatal = false) :
    r'.state.done = true := by
  obtain ⟨hinv, hs, hrun⟩ := h
  rcases Run.move_cases hmove with ⟨_, t, ht, rfl⟩ | ⟨hhost, _⟩
  · rw [Run.coreMoved_state] at hbusy hfatal ⊢
    obtain ⟨_, _, hkept | ⟨_, hend⟩⟩ := State.after_coreMoved hinv hs ht
    · simp [hflight, ← hkept, hbusy] at hrun
    · exact hend.resolve_right (by simp [hfatal])
  · exact absurd hhost hm

theorem State.verdict_eq_some {s : State} {code : ECode} (h : some code = s.verdict) :
    s.fatal = false ∧ s.ecode = code := by
  unfold State.verdict at h
  split at h <;> simp_all

theorem State.verdict_eq_none {s : State} (h : none = s.verdict) : s.fatal = true := by
  unfold State.verdict at h
  split at h <;> simp_all

end Sys2Proof.Machine

namespace Sys2Proof.Proofs

open Sys2Proof.Machine Sys2Proof.Safety

/-- Settles O57: a code in the record is the verdict on a command that the core ended, and an entry without one is that of
a fatal end, of a word dropped, or of a reset. -/
theorem runsRecordEveryCommand : Obligations.RunsRecordEveryCommand := by
  unfold Obligations.RunsRecordEveryCommand
  intro r r' m h hmove
  refine ⟨Run.move_left hmove, move_issuedCount h hmove, fun meant code hleft => ?_, fun meant hleft => ?_⟩
  · rcases move_records hmove hleft with ⟨hm, hflight, hover, hbusy, hcode⟩ | ⟨_, _, _, hcode⟩ | ⟨_, _, _, hcode⟩
    · obtain ⟨hfatal, hecode⟩ := State.verdict_eq_some hcode
      exact ⟨hflight, hover, move_done h hmove hm hflight hbusy hfatal, hbusy, hecode⟩
    · nomatch hcode
    · nomatch hcode
  · rcases move_records hmove hleft with ⟨hm, hflight, _, _, hnone⟩ | ⟨hm, hissues, hclosed, _⟩ |
      ⟨hm, hflight, hreset, _⟩
    · exact .inr (.inr ⟨hm, hflight, State.verdict_eq_none hnone⟩)
    · exact .inl ⟨hm, hissues, writeRefused_cmd_eq_true.mp hclosed⟩
    · exact .inr (.inl ⟨hm, hflight, hreset⟩)

end Sys2Proof.Proofs
end

section
/-! PROOF. O3: the example words of the encoding section and of V-E (R91, R92, R95). -/

namespace Sys2Proof

/-- A word is known to decode to a well-formed command when the command encodes to it. -/
theorem decode_of_encode_eq {i : Instr} {w : Word} (hwf : i.wf = true) (hw : encode i = w) : decode w = .ok i :=
  hw ▸ decode_encode hwf

end Sys2Proof

namespace Sys2Proof.Proofs

/-- Settles O3: each legal word is the encoding of its command, and each illegal one is refused by the check its reason
names. -/
theorem exampleWordsDecode : Obligations.ExampleWordsDecode := by
  unfold Obligations.ExampleWordsDecode
  have hcount : decode 0x11101002 = .illegal (.countOutOfRange 257) := by decide
  have hzero : decode 0x03530100 = .illegal .nonzeroZeroField := by decide
  have hreserved : decode 0x05000000 = .illegal (.reservedOpcode 0x05) := by decide
  refine ⟨?gfadd, ?gfmul, ?gfinv, ?gfdiv, ?pgen, ?peval, ?linterp, ?split, ?combine, hcount, hzero, hreserved⟩ <;>
    exact decode_of_encode_eq (by decide) (by decide)

end Sys2Proof.Proofs
end
